-- ==== Sys2Proof/Word.lean ====
section
/-! DEFINITION. The word types of HUFCORE and the records its tables hold.

Widths: SYM_BITS = 8, CNT_BITS = 32, IDX_BITS = 9, LEN_BITS = 8 (00_scope.md R9). -/

namespace Sys2Proof

/-- A symbol or a buffer byte: SYM_BITS = 8 (R9), unsigned (R17). -/
abbrev Byte := BitVec 8

/-- A register word, a count or a length: CNT_BITS = 32 (R9). -/
abbrev Word := BitVec 32

/-- An index into NODE: IDX_BITS = 9 (R9). -/
abbrev NodeIdx := BitVec 9

/-- A bit-string in reading order, the first bit nearest the tree root (R12); `true` is the bit 1. -/
abbrev BitString := List Bool

/-- The three byte-addressed spaces (R34, R60). -/
inductive Space where
  | ibuf
  | obuf
  | extbuf
  deriving DecidableEq, Repr

/-- One record of NODE (R28): `leaf` is the field kind (1 for a Leaf, 0 for an Internal node). -/
structure NodeRec where
  leaf : Bool
  sym : Byte
  freq : Word
  left : NodeIdx
  right : NodeIdx
  deriving DecidableEq, Repr, Inhabited

/-- One record of LUT (R31) in its stored layout (R33): bit `c[i]` of the code is bit 255 − i of `code`. -/
structure LutEntry where
  len : BitVec 8
  code : BitVec 256
  deriving DecidableEq, Repr, Inhabited

end Sys2Proof
end

