-- ==== Sys2Proof/Syntax.lean ====
section
/-! DEFINITION. The commands of HUFCORE: one constructor per row of spec/opcode_table.json (30_encoding.md R91). A
command word has no register fields and no immediates (R90), so no constructor has an argument. -/

namespace Sys2Proof

/-- The eleven commands of R91. -/
inductive Instr where
  | nop          -- NOP, R240
  | count        -- COUNT, R130
  | build        -- BUILD, R140
  | gencodes     -- GENCODES, R160
  | serialize    -- SERIALIZE, R170
  | deserialize  -- DESERIALIZE, R175
  | pack         -- PACK, R190
  | unpack       -- UNPACK, R196
  | compress     -- COMPRESS, R210
  | decompress   -- DECOMPRESS, R220
  | clear        -- CLEAR, R241
  deriving DecidableEq, Repr

/-- Every command, in the table's order. -/
def Instr.all : List Instr :=
  [.nop, .count, .build, .gencodes, .serialize, .deserialize, .pack, .unpack, .compress, .decompress, .clear]

end Sys2Proof
end

