-- ==== Sys2Proof/Decode.lean ====
section
/-! DEFINITION. The command word: decoding, total on every 32-bit word and rejecting by name, and the encoder, both from
30_encoding.md R90 and R91. -/

namespace Sys2Proof

/-- Why a word is no command (R90, R102). -/
inductive DecodeError where
  | upperBitsSet     -- bits 31:8 are not all zero
  | reservedOpcode   -- bits 7:0 hold an opcode R91 does not list
  deriving DecidableEq, Repr

/-- The field opcode, bits 7:0 (R90). -/
def opcodeField (w : Word) : BitVec 8 := w.extractLsb' 0 8

/-- The field zero, bits 31:8 (R90). -/
def zeroField (w : Word) : BitVec 24 := w.extractLsb' 8 24

/-- The opcode map of R91; `none` is a reserved opcode (0x0A .. 0x0E, 0x10 .. 0xFF). -/
def opcodeMap (op : BitVec 8) : Option Instr :=
  if op = 0x00 then some .nop
  else if op = 0x01 then some .count
  else if op = 0x02 then some .build
  else if op = 0x03 then some .gencodes
  else if op = 0x04 then some .serialize
  else if op = 0x05 then some .deserialize
  else if op = 0x06 then some .pack
  else if op = 0x07 then some .unpack
  else if op = 0x08 then some .compress
  else if op = 0x09 then some .decompress
  else if op = 0x0F then some .clear
  else none

/-- Decoding is total (R92): a word is one of the eleven commands or illegal. -/
def decode (w : Word) : Except DecodeError Instr :=
  if zeroField w ≠ 0 then .error .upperBitsSet
  else
    match opcodeMap (opcodeField w) with
    | some i => .ok i
    | none => .error .reservedOpcode

/-- The opcode of each command (R91). -/
def opcodeOf : Instr → BitVec 8
  | .nop => 0x00
  | .count => 0x01
  | .build => 0x02
  | .gencodes => 0x03
  | .serialize => 0x04
  | .deserialize => 0x05
  | .pack => 0x06
  | .unpack => 0x07
  | .compress => 0x08
  | .decompress => 0x09
  | .clear => 0x0F

/-- The word of a command: opcode in bits 7:0, bits 31:8 zero (R90). -/
def encode (i : Instr) : Word := (0 : BitVec 24) ++ opcodeOf i

/-- The decoder on a row of spec/opcode_table.json: the row's `nbits` bits of `w`, every bit above them 0. -/
def decodeTableWord (nbits w : Nat) : Option Instr :=
  let v := w % 2 ^ nbits
  if 2 ^ 32 ≤ v then none
  else
    match decode (BitVec.ofNat 32 v) with
    | .ok i => some i
    | .error _ => none

end Sys2Proof
end

