-- ==== Sys2Proof/Config.lean ====
section
/-! DEFINITION. What an implementation fixes (the OPEN parameters of 00_scope.md R9) and the free values, the values
the spec leaves unspecified (93_implementation_defined.md U1 to U7).

A free value is a constant without a body: no proof can see which value it is, so a claim about it holds whatever the
hardware gives. -/

namespace Sys2Proof

/-- The OPEN parameters of R9, and the two flag bytes, which 93_implementation_defined.md lists with them.
DESIGN CHOICE (log 1): a field of State holds them and no step changes it. -/
structure Params where
  ibufCap : Nat
  obufCap : Nat
  extCap : Nat
  regBase : Nat
  ibufBase : Nat
  obufBase : Nat
  extbufBase : Nat
  flagInternal : Byte
  flagLeaf : Byte
  deriving DecidableEq, Repr

/-- The suggested values of R9 (92_eei_decisions.md, open parameters), which 95_test_vectors.md assumes. -/
def Params.suggested : Params where
  ibufCap := 65536
  obufCap := 65536
  extCap := 256
  regBase := 0x00000000
  ibufBase := 0x01000000
  obufBase := 0x02000000
  extbufBase := 0x00008000
  flagInternal := 0x30
  flagLeaf := 0x31

/-- FREE VALUE (U3, U4, U5; log 5, log 6). Byte `a` of a space whose contents are unspecified; the first number is the
space's epoch, so contents that become unspecified again are free anew. -/
opaque Config.freeByte : Space → Nat → Nat → Byte

/-- FREE VALUE (U1; log 7). Record `i` of NODE where it is unspecified, by NODE's epoch. -/
opaque Config.freeNode : Nat → Nat → NodeRec

/-- FREE VALUE (U2; log 7). Record `s` of LUT where it is unspecified, by LUT's epoch. -/
opaque Config.freeLut : Nat → Nat → LutEntry

/-- FREE VALUE (U1, U2, U7; log 8). The word a host read returns where the spec calls it unspecified, by the number of
such reads made before. -/
opaque Config.freeWord : Nat → Word

end Sys2Proof
end

