-- ==== Sys2Proof/WellFormed.lean ====
section
/-! DEFINITION. What counts as a well-formed command and as an admitted choice of the OPEN parameters. -/

namespace Sys2Proof

/-- A command has no operand in its word (R90), so there is nothing in it to check: every command is well-formed. -/
def Instr.wellFormed : Instr → Bool
  | .nop => true
  | .count => true
  | .build => true
  | .gencodes => true
  | .serialize => true
  | .deserialize => true
  | .pack => true
  | .unpack => true
  | .compress => true
  | .decompress => true
  | .clear => true

/-- The largest capacity, 2^31 − 1 (R10). -/
def Params.maxCap : Nat := 2147483647

/-- The size of the register region in bytes: offsets 0x0000 .. 0x3FFF (R60). -/
def Params.regSize : Nat := 0x4000

/-- Two regions, each a base and a size, share no address (R66: the four regions must not overlap).
DESIGN CHOICE (log 21): a region of no bytes (EXTBUF with EXT_CAP = 0) has no address to share, so it overlaps no region,
wherever its base lies; R9 and R66 do not say. -/
def Params.apart (b₁ n₁ b₂ n₂ : Nat) : Bool :=
  decide (n₁ = 0) || decide (n₂ = 0) || decide (b₁ + n₁ ≤ b₂) || decide (b₂ + n₂ ≤ b₁)

/-- The constraints of R9, R10 and R66 on the OPEN parameters: capacities within their ranges, REG_BASE word-aligned,
the four regions apart, the two flag bytes distinct. -/
def Params.wellFormed (p : Params) : Bool :=
  decide (1 ≤ p.ibufCap) && decide (p.ibufCap ≤ Params.maxCap)
  && decide (1 ≤ p.obufCap) && decide (p.obufCap ≤ Params.maxCap)
  && decide (p.extCap ≤ Params.maxCap)
  && decide (p.regBase % 4 = 0)
  && Params.apart p.regBase Params.regSize p.ibufBase p.ibufCap
  && Params.apart p.regBase Params.regSize p.obufBase p.obufCap
  && Params.apart p.regBase Params.regSize p.extbufBase p.extCap
  && Params.apart p.ibufBase p.ibufCap p.obufBase p.obufCap
  && Params.apart p.ibufBase p.ibufCap p.extbufBase p.extCap
  && Params.apart p.obufBase p.obufCap p.extbufBase p.extCap
  && decide (p.flagInternal ≠ p.flagLeaf)

end Sys2Proof
end

