-- ==== Sys2Proof/Machine/State.lean ====
section
/-! DEFINITION. The state of HUFCORE (10_state.md R20), the reasons a step can stop, and the state after reset (R39). -/

namespace Sys2Proof.Machine

/-- Entries by number, in strictly rising order, of a memory whose other entries hold unspecified values. `epoch` is the
model's own counter: it says which free contents the unlisted entries have, and it advances when the whole memory
becomes unspecified again (R27, R74). -/
structure Store (α : Type) where
  cells : List (Nat × α)
  epoch : Nat
  deriving DecidableEq, Repr

/-- The three byte spaces (R34). The cells of each are a list of Host.Cell. -/
structure Memory where
  ibuf : Store Byte
  obuf : Store Byte
  extbuf : Store Byte
  deriving DecidableEq, Repr

/-- The sequencer phases, the values of pc (R36). -/
inductive Phase where
  | idle
  | count
  | build
  | gen
  | ser
  | des
  | pack
  | unpack
  | hdr
  deriving DecidableEq, Repr

/-- An entry of STK (R35). `path` is used by GENCODES (the bit-string to the node), `left` by DESERIALIZE (the left child
of an open internal node, once it is built). -/
structure Frame where
  idx : NodeIdx
  path : BitString
  left : Option NodeIdx
  deriving DecidableEq, Repr

/-- The sequencer phase and the transient state (R35, R36), with the counters `n` and `leaves` of the pseudocode of BUILD
and DESERIALIZE. The cursors and counts never wrap (R37), so they are natural numbers (log 12). -/
structure Seq where
  pc : Phase
  ipos : Nat
  opos : Nat
  acc : Byte
  nbits : BitVec 3
  cur : NodeIdx
  emitted : Nat
  pq : List NodeIdx
  stk : List Frame
  path : BitString
  n : Nat
  leaves : Nat
  deriving DecidableEq, Repr

/-- No command runs: pc is PH_IDLE (R36) and the transient state, which then does not exist (R35), is at one fixed value
(DESIGN CHOICE, log 14). -/
def Seq.idle : Seq where
  pc := .idle
  ipos := 0
  opos := 0
  acc := 0
  nbits := 0
  cur := 0
  emitted := 0
  pq := []
  stk := []
  path := []
  n := 0
  leaves := 0

/-- One thing the outside does to the block: an access of the host (R14), by width, a 32-bit word or a byte, at a byte
address of the map of R66; or the platform's reset (R280), which is no access (log 19). -/
inductive HostAccess where
  | platformReset
  | readWord (addr : Nat)
  | writeWord (addr : Nat) (v : Word)
  | readByte (addr : Nat)
  | writeByte (addr : Nat) (b : Byte)
  deriving DecidableEq, Repr

/-- What a host read returns. -/
inductive HostDatum where
  | word (v : Word)
  | byte (b : Byte)
  deriving DecidableEq, Repr

/-- Everything the spec gives the machine (R20), and the model's own fields: `params` (log 1), `host` (log 2), `lastRead`
and `freeCount` (log 8, log 16). CMD holds no value (R23) and has no field. -/
structure State where
  params : Params
  inLen : Word
  outLen : Word
  total : Word
  extLen : Word
  freq : Vector Word 256
  busy : Bool
  done : Bool
  err : Bool
  treeValid : Bool
  lutValid : Bool
  errCode : BitVec 4
  nleaf : BitVec 9
  nnode : BitVec 9
  root : NodeIdx
  node : Store NodeRec
  lut : Store LutEntry
  mem : Memory
  seq : Seq
  host : List HostAccess
  lastRead : Option HostDatum
  freeCount : Nat
  deriving DecidableEq, Repr

/-- Why the machine stops. -/
inductive Fault where
  /-- Raised by the walk of NODE in GENCODES, SERIALIZE and COMPRESS when it has visited NODE_CAP records and is not at
  its end, so that the records are no tree (R30 fails). No run reaches such a state. Safe (log 13). -/
  | walkNotEnding
  /-- Raised by a host access at an address of none of the four regions: it belongs to the platform and is not the
  block's (R66). Safe (log 10). -/
  | outsideRegions
  deriving DecidableEq, Repr

/-- Why a step has no meaning. -/
inductive Refusal where
  /-- Raised by exec for a command that has no meaning yet; the string is its mnemonic. Safe. -/
  | notModelled (mnemonic : String)
  /-- Raised by a host access that is not an aligned word of the register region or a byte of a buffer: R63 says a model
  refuses it (U6). Safe (log 9). -/
  | accessShape
  deriving DecidableEq, Repr

/-- A store with no specified entry. -/
def Store.unspecified {α : Type} : Store α where
  cells := []
  epoch := 0

/-- The state after reset (R39, R280) of a block with the parameters `p`: every register and FREQ zero, STATUS zero,
NODE, LUT and the buffers unspecified, pc = PH_IDLE. -/
def State.resetWith (p : Params) : State where
  params := p
  inLen := 0
  outLen := 0
  total := 0
  extLen := 0
  freq := Vector.replicate 256 0
  busy := false
  done := false
  err := false
  treeValid := false
  lutValid := false
  errCode := 0
  nleaf := 0
  nnode := 0
  root := 0
  node := Store.unspecified
  lut := Store.unspecified
  mem := { ibuf := Store.unspecified, obuf := Store.unspecified, extbuf := Store.unspecified }
  seq := Seq.idle
  host := []
  lastRead := none
  freeCount := 0

/-- The machine right after reset, with the suggested parameters of R9 (log 1). -/
def State.reset : State := State.resetWith Params.suggested

end Sys2Proof.Machine
end

