-- ==== Sys2Proof/Machine/Flags.lean ====
section
/-! DEFINITION. STATUS and every change of its fields (10_state.md R24, 60_exceptions.md R250, R257 to R259). -/

namespace Sys2Proof.Machine

/-- The error kinds (R250). -/
inductive ErrKind where
  | emptyInput
  | badMagic
  | corruptTree
  | truncatedStream
  | resource
  | illegalCmd
  | precondition
  deriving DecidableEq, Repr

/-- The error code of each kind (R250). -/
def errCodeOf : ErrKind → BitVec 4
  | .emptyInput => 1
  | .badMagic => 2
  | .corruptTree => 3
  | .truncatedStream => 4
  | .resource => 5
  | .illegalCmd => 6
  | .precondition => 7

/-- One bit of a register word. -/
def bit1 (b : Bool) : BitVec 1 := BitVec.ofBool b

/-- The word a read of STATUS returns (R24): ERRCODE in bits 11:8, LUT_VALID 4, TREE_VALID 3, ERR 2, DONE 1, BUSY 0, the
reserved bits 0. -/
def State.statusWord (s : State) : Word :=
  (0 : BitVec 20) ++ s.errCode ++ (0 : BitVec 3) ++ bit1 s.lutValid ++ bit1 s.treeValid ++ bit1 s.err ++ bit1 s.done
    ++ bit1 s.busy

/-- A read of STATUS while BUSY = 1 (R40): BUSY reads 1, every other field is the free word's, the reserved bits read 0
(R38). -/
def busyStatusWord (free : Word) : Word := (free &&& 0x00000F1E) ||| 1

/-- Command start (R257): BUSY is set, DONE, ERR and ERRCODE are cleared. -/
def State.commandStart (s : State) : State :=
  { s with busy := true, done := false, err := false, errCode := 0 }

/-- The flags of the success exit (R259). -/
def State.successFlags (s : State) : State :=
  { s with busy := false, done := true }

/-- The flags of the error entry (R258). -/
def State.errorFlags (e : ErrKind) (s : State) : State :=
  { s with errCode := errCodeOf e, err := true, busy := false, done := true }

end Sys2Proof.Machine
end

