-- ==== Sys2Proof/Machine/Store.lean ====
section
/-! DEFINITION. The stores: NODE, LUT and the three byte spaces are lists of (number, value) pairs in one canonical form,
strictly rising numbers. An entry that is not listed holds an unspecified value, so no listed entry can equal it. -/

namespace Sys2Proof.Machine

/-- The value listed at number `a`, if one is. -/
def lookupCell {α : Type} (a : Nat) : List (Nat × α) → Option α
  | [] => none
  | (k, v) :: rest => if k = a then some v else lookupCell a rest

/-- Lists the value `v` at number `a`, in place of what was listed there. -/
def insertCell {α : Type} (a : Nat) (v : α) : List (Nat × α) → List (Nat × α)
  | [] => [(a, v)]
  | (k, w) :: rest =>
    if a < k then (a, v) :: (k, w) :: rest
    else if a = k then (a, v) :: rest
    else (k, w) :: insertCell a v rest

/-- Every number of the list is at least `lo`, and the numbers rise strictly. -/
def risingFrom {α : Type} (lo : Nat) : List (Nat × α) → Bool
  | [] => true
  | (k, _) :: rest => decide (lo ≤ k) && risingFrom (k + 1) rest

/-- The canonical form of a store. -/
def Store.wf {α : Type} (st : Store α) : Bool := risingFrom 0 st.cells

/-- Every number the store lists is below `cap`. -/
def Store.below {α : Type} (cap : Nat) (st : Store α) : Bool := st.cells.all fun c => decide (c.1 < cap)

/-- Entry `a` where it is specified. -/
def Store.get? {α : Type} (st : Store α) (a : Nat) : Option α := lookupCell a st.cells

/-- Entry `a`, with `free` (a free value, by the epoch and the number) where it is unspecified. -/
def Store.read {α : Type} (free : Nat → Nat → α) (st : Store α) (a : Nat) : α :=
  (st.get? a).getD (free st.epoch a)

/-- Writes entry `a`. -/
def Store.write {α : Type} (st : Store α) (a : Nat) (v : α) : Store α :=
  { st with cells := insertCell a v st.cells }

/-- Every entry becomes unspecified: nothing is listed, and the unlisted contents are free anew (R27, R74). -/
def Store.forget {α : Type} (st : Store α) : Store α :=
  { cells := [], epoch := st.epoch + 1 }

/-- Writes `v` to entries 0 .. n − 1 of a store that has no other entry. -/
def Store.fill {α : Type} (st : Store α) (n : Nat) (v : α) : Store α :=
  { st with cells := (List.range n).map fun i => (i, v) }

/-- The canonical form of the three byte spaces. -/
def Memory.wf (m : Memory) : Bool := m.ibuf.wf && m.obuf.wf && m.extbuf.wf

/-- One byte space of the three. -/
def Memory.space (m : Memory) : Space → Store Byte
  | .ibuf => m.ibuf
  | .obuf => m.obuf
  | .extbuf => m.extbuf

/-- Replaces one byte space. -/
def Memory.setSpace (m : Memory) (sp : Space) (st : Store Byte) : Memory :=
  match sp with
  | .ibuf => { m with ibuf := st }
  | .obuf => { m with obuf := st }
  | .extbuf => { m with extbuf := st }

/-- The byte at offset `a` of a space (MemRead of one byte, R13); a free value where it is unspecified (U3, log 5). -/
def Memory.readByte (m : Memory) (sp : Space) (a : Nat) : Byte :=
  (m.space sp).read (Config.freeByte sp) a

/-- Writes the byte at offset `a` of a space (MemWrite of one byte, R13). -/
def Memory.writeByte (m : Memory) (sp : Space) (a : Nat) (b : Byte) : Memory :=
  m.setSpace sp ((m.space sp).write a b)

/-- Every byte of a space becomes unspecified (R74). -/
def Memory.forget (m : Memory) (sp : Space) : Memory :=
  m.setSpace sp (m.space sp).forget

end Sys2Proof.Machine
end

