-- ==== Sys2Proof/Machine/Operands.lean ====
section
/-! DEFINITION. Where the commands take their operands from (30_encoding.md R93): the bytes of IBUF and EXTBUF, the
records of NODE and LUT, and the constants of 00_scope.md R9. A command word itself holds no operand (R90). -/

namespace Sys2Proof.Machine

/-- NODE_CAP, the number of NODE records (R9). -/
def nodeCap : Nat := 511

/-- MAGIC, the seven bytes of the file tag (R9, R98). -/
def magicBytes : List Byte := [0x48, 0x55, 0x46, 0x54, 0x52, 0x45, 0x45]

/-- The 256 symbols in ascending unsigned order (R17, R141). -/
def allSymbols : List Byte := (List.range 256).map (BitVec.ofNat 8)

/-- `MemRead(B+a, 1)` (R13). -/
def State.memRead (s : State) (sp : Space) (a : Nat) : Byte := s.mem.readByte sp a

/-- `MemRead(B+a, 4)`: four single-byte reads, the byte at `a` in bits 7:0 (R13, R61, R63). -/
def State.memRead4 (s : State) (sp : Space) (a : Nat) : Word :=
  s.memRead sp (a + 3) ++ s.memRead sp (a + 2) ++ s.memRead sp (a + 1) ++ s.memRead sp a

/-- `s32(v)` (R13): the integer whose two's-complement pattern is `v`. -/
def s32 (v : Word) : Int := v.toInt

/-- FREQ[sym] (R22), indexed by the unsigned symbol (R132). -/
def State.freqOf (s : State) (sym : Byte) : Word := s.freq[sym.toNat]'sym.isLt

/-- NODE[i] (R28); a free value where it is unspecified (U1, log 7). -/
def State.nodeRead (s : State) (i : NodeIdx) : NodeRec := s.node.read Config.freeNode i.toNat

/-- LUT[sym] (R31); a free value where it is unspecified (U2, log 7). -/
def State.lutRead (s : State) (sym : Byte) : LutEntry := s.lut.read Config.freeLut sym.toNat

/-- The bit-string of a code: its element `i` is bit 255 − i of the stored vector (R33). -/
def codeBits (e : LutEntry) : BitString := (List.range e.len.toNat).map e.code.getMsbD

/-- A bit-string left-aligned in 256 bits: its first bit is bit 255, the bits after its last are 0 (R33). -/
def leftAlign : BitString → BitVec 256
  | [] => 0
  | b :: rest => (if b then (1 : BitVec 256) <<< 255 else 0) ||| (leftAlign rest >>> 1)

/-- The LUT record of a code (R31). -/
def lutEntryOf (c : BitString) : LutEntry := { len := BitVec.ofNat 8 c.length, code := leftAlign c }

end Sys2Proof.Machine
end

