-- ==== Sys2Proof/Machine/Ops.lean ====
section
/-! DEFINITION. The named operations over the registers, tables and buffers that the commands share, the error entry
(60_exceptions.md R258), which is this block's way of taking an exception, and the success exit (R259). -/

namespace Sys2Proof.Machine

/-- What a piece of a command's pseudocode comes to: it goes on, it raises an error (`raise E`, R258), or it is stuck in
a way the spec gives no effect to. -/
inductive Run where
  | ok (s : State)
  | raised (e : ErrKind) (s : State)
  | stuck (f : Fault)
  deriving DecidableEq, Repr

/-- One piece of pseudocode after another: no later statement runs after a raise (R258). -/
def Run.bind (r : Run) (k : State → Run) : Run :=
  match r with
  | .ok s => k s
  | .raised e s => .raised e s
  | .stuck f => .stuck f

/-- A piece of pseudocode that always goes on, after another. -/
def Run.map (r : Run) (k : State → State) : Run := r.bind fun s => .ok (k s)

/-- `pc <- P` (R13, R36). -/
def State.setPhase (s : State) (p : Phase) : State := { s with seq := { s.seq with pc := p } }

/-- Sets the input cursor. -/
def State.setIpos (s : State) (a : Nat) : State := { s with seq := { s.seq with ipos := a } }

/-- Sets the output cursor. -/
def State.setOpos (s : State) (a : Nat) : State := { s with seq := { s.seq with opos := a } }

/-- Sets STK. -/
def State.setStk (s : State) (l : List Frame) : State := { s with seq := { s.seq with stk := l } }

/-- Sets PQ. -/
def State.setPq (s : State) (l : List NodeIdx) : State := { s with seq := { s.seq with pq := l } }

/-- `MemWrite(B+a, 1, b)` (R13). -/
def State.memWrite (s : State) (sp : Space) (a : Nat) (b : Byte) : State :=
  { s with mem := s.mem.writeByte sp a b }

/-- `NODE[i] <- r` (R28). -/
def State.nodeWrite (s : State) (i : NodeIdx) (r : NodeRec) : State := { s with node := s.node.write i.toNat r }

/-- `LUT[sym] <- e` (R31). -/
def State.lutWrite (s : State) (sym : Byte) (e : LutEntry) : State := { s with lut := s.lut.write sym.toNat e }

/-- `Put(b)` (R172): Resource where OBUF is full, else the byte at OPOS, which advances. -/
def State.put (b : Byte) (s : State) : Run :=
  if s.params.obufCap ≤ s.seq.opos then .raised .resource s
  else .ok ((s.memWrite .obuf s.seq.opos b).setOpos (s.seq.opos + 1))

/-- `Put` of each byte of a list, in order. -/
def State.putAll : List Byte → State → Run
  | [], s => .ok s
  | b :: rest, s => (s.put b).bind (State.putAll rest)

/-- The four bytes of `Put32`, least significant first (R61, R214). -/
def le32 (v : Word) : List Byte :=
  [v.extractLsb' 0 8, v.extractLsb' 8 8, v.extractLsb' 16 8, v.extractLsb' 24 8]

/-- `Put32(v)` (R214). -/
def State.put32 (v : Word) (s : State) : Run := s.putAll (le32 v)

/-- `OUT_LEN <- OPOS`. -/
def State.setOutLen (s : State) : State := { s with outLen := BitVec.ofNat 32 s.seq.opos }

/-- The bytes at offsets start .. start + n − 1 of a space. -/
def State.bytes (s : State) (sp : Space) (start n : Nat) : List Byte :=
  (List.range n).map fun k => s.memRead sp (start + k)

/-- `InvalidateTree()` (R27): the tree and the code table are discarded, NODE and LUT become unspecified. -/
def State.invalidateTree (s : State) : State :=
  { s with
    treeValid := false, lutValid := false, nleaf := 0, nnode := 0, root := 0,
    node := s.node.forget, lut := s.lut.forget }

/-- `CleanTables()` (R27): InvalidateTree, and FREQ all zero. -/
def State.cleanTables (s : State) : State :=
  { s.invalidateTree with freq := Vector.replicate 256 0 }

/-- `TOTAL <- 0`. -/
def State.clearTotal (s : State) : State := { s with total := 0 }

/-- `EXT_LEN <- 0`. -/
def State.clearExtLen (s : State) : State := { s with extLen := 0 }

/-- NODE becomes unspecified (U1). -/
def State.forgetNode (s : State) : State := { s with node := s.node.forget }

/-- Every byte of a space becomes unspecified (R74). -/
def State.forgetSpace (s : State) (sp : Space) : State := { s with mem := s.mem.forget sp }

/-- What an error of a command makes unspecified: every byte of OBUF if the command writes OBUF, every byte of EXTBUF
after DECOMPRESS (R74), NODE after DESERIALIZE (R175). -/
def State.forgetOutputs (s : State) : Instr → State
  | .nop => s
  | .count => s
  | .build => s
  | .gencodes => s
  | .serialize => s.forgetSpace .obuf
  | .deserialize => s.forgetNode
  | .pack => s.forgetSpace .obuf
  | .unpack => s.forgetSpace .obuf
  | .compress => s.forgetSpace .obuf
  | .decompress => (s.forgetSpace .obuf).forgetSpace .extbuf
  | .clear => s

/-- The first part of the error entry: a composite command discards its tables, TOTAL and, for DECOMPRESS, EXT_LEN (R213,
R258). -/
def State.dropComposite (s : State) : Instr → State
  | .nop => s
  | .count => s
  | .build => s
  | .gencodes => s
  | .serialize => s
  | .deserialize => s
  | .pack => s
  | .unpack => s
  | .compress => s.cleanTables.clearTotal
  | .decompress => s.cleanTables.clearTotal.clearExtLen
  | .clear => s

/-- The last part of the error entry (R258): OUT_LEN = 0, the flags, pc = PH_IDLE and no transient state (R35). -/
def State.errorExit (e : ErrKind) (s : State) : State :=
  { s.errorFlags e with outLen := 0, seq := Seq.idle }

/-- The error entry (R258, R74): the meaning of `raise e` in the running command `c`. It is how this block takes an
exception: nothing is saved, control goes nowhere, and the block is ready for the next command. -/
def State.errorEntry (c : Instr) (e : ErrKind) (s : State) : State :=
  ((s.dropComposite c).forgetOutputs c).errorExit e

/-- The error entry of an illegal command word (R256): no command runs. -/
def State.illegalEntry (s : State) : State := s.errorExit .illegalCmd

/-- The success exit (R259): pc = PH_IDLE, no transient state (R35), BUSY = 0, DONE = 1. -/
def State.successExit (s : State) : State := { s.successFlags with seq := Seq.idle }

/-- How a command ends: success exit, error entry or a stop. -/
def finish (c : Instr) : Run → Host.Outcome State Fault Refusal
  | .ok s => .next s.successExit
  | .raised e s => .next (s.errorEntry c e)
  | .stuck f => .fault f

/-- A whole command from the CMD write to its completion: the command start (R257), its phase (R36), its pseudocode, its
end. No intermediate state is visible (R7). -/
def command (c : Instr) (p : Phase) (body : State → Run) (s : State) : Host.Outcome State Fault Refusal :=
  finish c (body (s.commandStart.setPhase p))

end Sys2Proof.Machine
end

