-- ==== Sys2Proof/Machine/Control.lean ====
section
/-! DEFINITION. The control commands, NOP and CLEAR (46_control.md R240, R241). -/

namespace Sys2Proof.Machine

/-- NOP (R240): only the command start and the success exit. -/
def execNop : State → Host.Outcome State Fault Refusal := command .nop .idle .ok

/-- CLEAR (R241): clean tables, the four operand and result registers zero; the buffers are not touched. -/
def execClear : State → Host.Outcome State Fault Refusal :=
  command .clear .idle fun s => .ok { s.cleanTables.clearTotal with inLen := 0, outLen := 0, extLen := 0 }

end Sys2Proof.Machine
end

