-- ==== Sys2Proof/Machine/BitCodec.lean ====
section
/-! DEFINITION. The bit packer and the bit unpacker, PACK and UNPACK (44_bit_codec.md R190 to R202). -/

namespace Sys2Proof.Machine

/-- `v[i] <- b`. -/
def setBitTo (v : Byte) (i : Nat) (b : Bool) : Byte :=
  if b then v ||| ((1 : Byte) <<< i) else v &&& ~~~((1 : Byte) <<< i)

/-- `PutBit(b)` (R190): ACC is filled from bit 7 downward and put when it is full. -/
def putBit (b : Bool) (s : State) : Run :=
  let acc := setBitTo s.seq.acc (7 - s.seq.nbits.toNat) b
  let s₁ := { s with seq := { s.seq with acc := acc } }
  if s.seq.nbits = 7 then (s₁.put acc).map fun t => { t with seq := { t.seq with acc := 0, nbits := 0 } }
  else .ok { s₁ with seq := { s₁.seq with nbits := s₁.seq.nbits + 1 } }

/-- `PutBit` of each bit of a code, root-side bit first (R161, R190). -/
def putBits : BitString → State → Run
  | [], s => .ok s
  | b :: rest, s => (putBit b s).bind (putBits rest)

/-- One round of the packing loop (R190): the code of the byte at IPOS; a byte without a code is a Precondition error
(R194). -/
def packSymbol (s : State) : Run :=
  let e := s.lutRead (s.memRead .ibuf s.seq.ipos)
  if e.len = 0 then .raised .precondition s
  else (putBits (codeBits e) s).map fun t => t.setIpos (t.seq.ipos + 1)

/-- `k` rounds of the packing loop, in the original order. -/
def packLoop : Nat → State → Run
  | 0, s => .ok s
  | k + 1, s => (packSymbol s).bind (packLoop k)

/-- The flush of a partly filled byte; its low bits are 0 (R192). -/
def packFlush (s : State) : Run := if s.seq.nbits = 0 then .ok s else s.put s.seq.acc

/-- `PackRange(start, end)` (R190). -/
def packRange (start stop : Nat) (s : State) : Run :=
  (packLoop (stop - start) { s with seq := { s.seq with acc := 0, nbits := 0, ipos := start } }).bind packFlush

/-- PACK (R190). -/
def execPack : State → Host.Outcome State Fault Refusal :=
  command .pack .pack fun s =>
    if s.lutValid = false then .raised .precondition s
    else if s.params.ibufCap < s.inLen.toNat then .raised .resource s
    else (packRange 0 s.inLen.toNat (s.setOpos 0)).map State.setOutLen

/-- The next payload bit, MSB first, and the cursors after it (R62, R196). -/
def takeBit (s : State) : Bool × State :=
  let bit := (s.memRead .ibuf s.seq.ipos).getLsbD (7 - s.seq.nbits.toNat)
  if s.seq.nbits = 7 then (bit, { s with seq := { s.seq with nbits := 0, ipos := s.seq.ipos + 1 } })
  else (bit, { s with seq := { s.seq with nbits := s.seq.nbits + 1 } })

/-- `Put(sym) ; EMITTED <- EMITTED + 1` (R196). -/
def emitSymbol (sym : Byte) (s : State) : Run :=
  (s.put sym).map fun t => { t with seq := { t.seq with emitted := t.seq.emitted + 1 } }

/-- What one bit does (R196): with a leaf at the root it is one symbol, whatever its value (R198); else it moves CUR to a
child, and a leaf reached there is emitted and resets CUR to the root. -/
def unpackBit (bit : Bool) (s : State) : Run :=
  if (s.nodeRead s.root).leaf then emitSymbol (s.nodeRead s.root).sym s
  else
    let c := if bit then (s.nodeRead s.seq.cur).right else (s.nodeRead s.seq.cur).left
    let s₁ := { s with seq := { s.seq with cur := c } }
    if (s₁.nodeRead c).leaf then
      (emitSymbol (s₁.nodeRead c).sym s₁).map fun t => { t with seq := { t.seq with cur := t.root } }
    else .ok s₁

/-- The decoding loop (R196): it stops by count before it looks for a bit (R199), and fails where a bit is needed and none
is left (R197). `k` counts the bits left, so IPOS ≥ end exactly where `k` = 0. -/
def unpackLoop (count : Nat) : Nat → State → Run
  | 0, s => if s.seq.emitted < count then .raised .truncatedStream s else .ok s
  | k + 1, s =>
    if s.seq.emitted < count then
      let (bit, t) := takeBit s
      (unpackBit bit t).bind (unpackLoop count k)
    else .ok s

/-- `UnpackRange(start, end, count)` (R196). -/
def unpackRange (start stop count : Nat) (s : State) : Run :=
  unpackLoop count (8 * (stop - start))
    { s with seq := { s.seq with ipos := start, nbits := 0, cur := s.root, emitted := 0 } }

/-- UNPACK (R196). -/
def execUnpack : State → Host.Outcome State Fault Refusal :=
  command .unpack .unpack fun s =>
    if s.treeValid = false then .raised .precondition s
    else if s.params.ibufCap < s.inLen.toNat then .raised .resource s
    else (unpackRange 0 s.inLen.toNat s.total.toNat (s.setOpos 0)).map State.setOutLen

end Sys2Proof.Machine
end

