-- ==== Sys2Proof/Machine/CodeTable.lean ====
section
/-! DEFINITION. The prefix-code table generator, GENCODES (42_code_table.md R160 to R165). The recursion of `Walk` is the
explicit-stack traversal that R164 allows; STK holds the subtrees still to visit. -/

namespace Sys2Proof.Machine

/-- `Walk(i, path)` up to its calls (R160): a leaf records its path (the last visit wins, R164), an internal node leaves
its right and left subtrees on STK, the left one on top. -/
def walkVisit (f : Frame) (s : State) : State :=
  let s₁ := { s with seq := { s.seq with path := f.path } }
  let r := s₁.nodeRead f.idx
  if r.leaf then s₁.lutWrite r.sym (lutEntryOf f.path)
  else
    s₁.setStk
      ({ idx := r.left, path := f.path ++ [false], left := none }
        :: { idx := r.right, path := f.path ++ [true], left := none } :: s₁.seq.stk)

/-- The traversal. A tree of NODE has at most NODE_CAP records and the walk visits each once, so `k` = NODE_CAP visits are
enough; records that are no tree leave it stuck (log 13). -/
def walkLoop : Nat → State → Run
  | 0, s => if s.seq.stk = [] then .ok s else .stuck .walkNotEnding
  | k + 1, s =>
    match s.seq.stk with
    | [] => .ok s
    | f :: rest => walkLoop k (walkVisit f (s.setStk rest))

/-- GENCODES from `LUT_VALID <- 0` to `LUT_VALID <- 1` (R160), which COMPRESS shares (R210). -/
def gencodesBody (s : State) : Run :=
  let s₁ := { s with lutValid := false, lut := s.lut.fill 256 { len := 0, code := 0 } }
  let r := s₁.nodeRead s₁.root
  let run :=
    if r.leaf then .ok (s₁.lutWrite r.sym (lutEntryOf [false]))
    else walkLoop nodeCap (s₁.setStk [{ idx := s₁.root, path := [], left := none }])
  run.map fun t => { t with lutValid := true }

/-- GENCODES (R160). -/
def execGencodes : State → Host.Outcome State Fault Refusal :=
  command .gencodes .gen fun s => if s.treeValid then gencodesBody s else .raised .precondition s

end Sys2Proof.Machine
end

