-- ==== Sys2Proof/Machine/Counter.lean ====
section
/-! DEFINITION. The frequency counter, COUNT (40_frequency_counter.md R130 to R134). -/

namespace Sys2Proof.Machine

/-- One round of the counting loop (R130): the byte at IPOS, unsigned (R132), increments its FREQ entry on 32 bits. -/
def countSymbol (s : State) : State :=
  let b := s.memRead .ibuf s.seq.ipos
  { s with freq := s.freq.set b.toNat (s.freqOf b + 1) b.isLt, seq := { s.seq with ipos := s.seq.ipos + 1 } }

/-- `k` rounds of the counting loop. -/
def countLoop : Nat → State → State
  | 0, s => s
  | k + 1, s => countLoop k (countSymbol s)

/-- COUNT from its first check to `TOTAL <- IN_LEN` (R130), which COMPRESS shares (R210). -/
def countBody (s : State) : Run :=
  if s.params.ibufCap < s.inLen.toNat then .raised .resource s
  else if s.inLen = 0 then .raised .emptyInput s
  else
    let t := countLoop s.inLen.toNat (s.setIpos 0)
    .ok { t with total := t.inLen }

/-- COUNT (R130). -/
def execCount : State → Host.Outcome State Fault Refusal :=
  command .count .count fun s => countBody s.cleanTables.clearTotal

end Sys2Proof.Machine
end

