-- ==== Sys2Proof/Machine/TreeBuilder.lean ====
section
/-! DEFINITION. The tree builder, BUILD (41_tree_builder.md R140 to R148). -/

namespace Sys2Proof.Machine

/-- The priority key K(i) = {NODE[i].freq, i}, 41 bits, compared unsigned (R142). -/
def State.key (s : State) (i : NodeIdx) : BitVec 41 := (s.nodeRead i).freq ++ i

/-- The node of a list with the smallest key (R142, R148). -/
def State.leastKey (s : State) : List NodeIdx → Option NodeIdx
  | [] => none
  | i :: rest =>
    match s.leastKey rest with
    | none => some i
    | some j => if s.key i < s.key j then some i else some j

/-- `PQ.extractMin()` (R142): the node of the smallest key, and the state without it in PQ; `none` if PQ is empty. -/
def State.extractMin (s : State) : Option (NodeIdx × State) :=
  (s.leastKey s.seq.pq).map fun i => (i, s.setPq (s.seq.pq.erase i))

/-- Numbers node `n`, writes its record and inserts it in PQ (R140). -/
def State.addNode (s : State) (r : NodeRec) : State :=
  let i : NodeIdx := BitVec.ofNat 9 s.seq.n
  let t := s.nodeWrite i r
  { t with seq := { t.seq with pq := i :: t.seq.pq, n := t.seq.n + 1 } }

/-- A Leaf for one symbol, if it is present in FREQ (R141). -/
def addLeaf (s : State) (sym : Byte) : State :=
  if s.freqOf sym = 0 then s
  else s.addNode { leaf := true, sym := sym, freq := s.freqOf sym, left := 0, right := 0 }

/-- The leaves, in ascending symbol value (R141). -/
def addLeaves : List Byte → State → State
  | [], s => s
  | sym :: rest, s => addLeaves rest (addLeaf s sym)

/-- One merge (R143): the first node extracted is the left child, the second the right, the frequency is the 32-bit sum. -/
def mergeStep (s : State) : State :=
  match s.extractMin with
  | none => s
  | some (a, s₁) =>
    match s₁.extractMin with
    | none => s
    | some (b, s₂) =>
      s₂.addNode
        { leaf := false, sym := 0, freq := (s₂.nodeRead a).freq + (s₂.nodeRead b).freq, left := a, right := b }

/-- The merge loop: while PQ holds more than one node (R140). Each round makes PQ one shorter, so at most as many rounds
as there are leaves. -/
def mergeLoop : Nat → State → State
  | 0, s => s
  | k + 1, s => if 1 < s.seq.pq.length then mergeLoop k (mergeStep s) else s

/-- The end of BUILD: the one node left in PQ is the root (R140). PQ is empty exactly where there is no leaf, which is
EmptyInput (R145). -/
def buildFinish (l : Nat) (s : State) : Run :=
  match s.extractMin with
  | none => .raised .emptyInput s
  | some (r, t) =>
    .ok { t with root := r, nleaf := BitVec.ofNat 9 l, nnode := BitVec.ofNat 9 t.seq.n, treeValid := true }

/-- BUILD from `n <- 0` to `TREE_VALID <- 1` (R140), which COMPRESS shares (R210). -/
def buildBody (s : State) : Run :=
  let t := addLeaves allSymbols { s with seq := { s.seq with n := 0, pq := [] } }
  if t.seq.n = 0 then .raised .emptyInput t
  else buildFinish t.seq.n (mergeLoop t.seq.n t)

/-- BUILD (R140). -/
def execBuild : State → Host.Outcome State Fault Refusal :=
  command .build .build fun s => buildBody s.invalidateTree

end Sys2Proof.Machine
end

