-- ==== Sys2Proof/Machine/TreeCodec.lean ====
section
/-! DEFINITION. The tree serializer and deserializer, SERIALIZE and DESERIALIZE (43_tree_codec.md R170 to R181). Both
recursions are explicit-stack traversals on STK (10_state.md R35, U9). -/

namespace Sys2Proof.Machine

/-- `Emit(i)` up to its calls (R170): a leaf puts its flag and symbol, an internal node puts its flag and leaves its right
and left subtrees on STK, the left one on top. -/
def emitVisit (i : NodeIdx) (s : State) : Run :=
  let r := s.nodeRead i
  if r.leaf then (s.put s.params.flagLeaf).bind (State.put r.sym)
  else
    (s.put s.params.flagInternal).map fun t =>
      t.setStk
        ({ idx := r.left, path := [], left := none } :: { idx := r.right, path := [], left := none } :: t.seq.stk)

/-- The preorder emission; at most NODE_CAP visits in a tree of NODE, else it is stuck (log 13). -/
def emitLoop : Nat → State → Run
  | 0, s => if s.seq.stk = [] then .ok s else .stuck .walkNotEnding
  | k + 1, s =>
    match s.seq.stk with
    | [] => .ok s
    | f :: rest => (emitVisit f.idx (s.setStk rest)).bind (emitLoop k)

/-- `Emit(ROOT)` (R170). -/
def emitTree (s : State) : Run := emitLoop nodeCap (s.setStk [{ idx := s.root, path := [], left := none }])

/-- SERIALIZE (R170). -/
def execSerialize : State → Host.Outcome State Fault Refusal :=
  command .serialize .ser fun s =>
    if s.treeValid then (emitTree (s.setOpos 0)).map State.setOutLen else .raised .precondition s

/-- Returns the finished subtree `j` to the open internal node on top of STK: as its left child, or as its right child,
which completes that node in turn (R175). The root's subtree finds STK empty. -/
def closeNode (j : NodeIdx) : List Frame → State → State
  | [], s => s.setStk []
  | f :: rest, s =>
    match f.left with
    | none => s.setStk ({ f with left := some j } :: rest)
    | some l =>
      closeNode f.idx rest (s.nodeWrite f.idx { leaf := false, sym := 0, freq := 0, left := l, right := j })

/-- `IPOS <- IPOS + 1`. -/
def State.advance (s : State) : State := s.setIpos (s.seq.ipos + 1)

/-- The leaf part of `Parse` (R175): the symbol byte, the record, and the return to the parent. -/
def parseLeaf (stop : Nat) (i : NodeIdx) (s : State) : Run :=
  if stop ≤ s.seq.ipos then .raised .corruptTree s
  else
    let t := s.advance.nodeWrite i
      { leaf := true, sym := s.memRead .ibuf s.seq.ipos, freq := 0, left := 0, right := 0 }
    .ok (closeNode i t.seq.stk { t with seq := { t.seq with leaves := t.seq.leaves + 1 } })

/-- One call of `Parse(end)` up to its own calls (R175), its checks in the pseudocode's order: flag byte present, flag
legal, node capacity; then the next preorder number (R179), and a leaf or an open internal node on STK. -/
def parseNode (stop : Nat) (s : State) : Run :=
  if stop ≤ s.seq.ipos then .raised .corruptTree s
  else
    let f := s.memRead .ibuf s.seq.ipos
    let s₁ := s.advance
    if f ≠ s.params.flagLeaf ∧ f ≠ s.params.flagInternal then .raised .corruptTree s₁
    else if nodeCap ≤ s₁.seq.n then .raised .corruptTree s₁
    else
      let i : NodeIdx := BitVec.ofNat 9 s₁.seq.n
      let s₂ := { s₁ with seq := { s₁.seq with n := s₁.seq.n + 1 } }
      if f = s.params.flagLeaf then parseLeaf stop i s₂
      else .ok (s₂.setStk ({ idx := i, path := [], left := none } :: s₂.seq.stk))

/-- The parse of one whole tree: calls of `Parse` until STK is empty again. Each takes at least one byte, so `k` = the
number of bytes is enough; without a byte left the flag byte is missing. -/
def parseLoop (stop : Nat) : Nat → State → Run
  | 0, s => .raised .corruptTree s
  | k + 1, s => (parseNode stop s).bind fun t => if t.seq.stk = [] then .ok t else parseLoop stop k t

/-- `DeserializeRange(start, end)` (R175): the parse, exact consumption (R176), and the tree registers; the root is the
first node numbered. -/
def deserializeRange (start stop : Nat) (s : State) : Run :=
  (parseLoop stop (stop - start)
      { s with seq := { s.seq with n := 0, leaves := 0, ipos := start, stk := [] } }).bind fun t =>
    if t.seq.ipos ≠ stop then .raised .corruptTree t
    else
      .ok
        { t with
          root := 0, nnode := BitVec.ofNat 9 t.seq.n, nleaf := BitVec.ofNat 9 t.seq.leaves, treeValid := true }

/-- DESERIALIZE (R175). -/
def execDeserialize : State → Host.Outcome State Fault Refusal :=
  command .deserialize .des fun s =>
    if s.params.ibufCap < s.inLen.toNat then .raised .resource s.invalidateTree
    else deserializeRange 0 s.inLen.toNat s.invalidateTree

end Sys2Proof.Machine
end

