-- ==== Sys2Proof/Machine/Orchestration.lean ====
section
/-! DEFINITION. The compressor and the decompressor, COMPRESS and DECOMPRESS (45_orchestration.md R210 to R226). -/

namespace Sys2Proof.Machine

/-- The phases PH_COUNT, PH_BUILD and PH_GEN of COMPRESS (R210, R211): the bodies of COUNT, BUILD and GENCODES. -/
def compressTables (s : State) : Run :=
  (countBody s).bind fun t => (buildBody (t.setPhase .build)).bind fun u => gencodesBody (u.setPhase .gen)

/-- treeLen, 3·NLEAF − 1 (R171, R210). -/
def State.treeLen (s : State) : Word := BitVec.ofNat 32 (3 * s.nleaf.toNat - 1)

/-- The first phase PH_HDR of COMPRESS: magic, extLen, the extension as it stands (R215), treeLen. -/
def compressHeader (s : State) : Run :=
  if s.params.extCap < s.extLen.toNat then .raised .resource s
  else
    (s.setOpos 0).putAll magicBytes
      |>.bind (State.put32 s.extLen)
      |>.bind (State.putAll (s.bytes .extbuf 0 s.extLen.toNat))
      |>.bind (State.put32 s.treeLen)

/-- The phases of COMPRESS that write the file: PH_HDR, PH_SER, PH_HDR (totalChars), PH_PACK (R211). -/
def compressFile (s : State) : Run :=
  (compressHeader (s.setPhase .hdr)).bind fun t =>
    (emitTree (t.setPhase .ser)).bind fun u =>
      ((u.setPhase .hdr).put32 u.total).bind fun v => packRange 0 v.inLen.toNat (v.setPhase .pack)

/-- COMPRESS (R210): clean tables before and after (R213). -/
def execCompress : State → Host.Outcome State Fault Refusal :=
  command .compress .count fun s =>
    ((compressTables s.cleanTables.clearTotal).bind compressFile).map fun t => t.setOutLen.cleanTables

/-- The extension copied from IBUF to EXTBUF: `r` more bytes from number `k` on (R220). -/
def copyExt : Nat → Nat → State → State
  | 0, _, s => s
  | r + 1, k, s => copyExt r (k + 1) (s.memWrite .extbuf k (s.memRead .ibuf (11 + k)))

/-- DECOMPRESS from the totalChars field at offset `p` on (R220; rows 12 to 15 of R222); `e` is extLen. -/
def decompressPayload (e p : Nat) (s : State) : Run :=
  if s.inLen.toNat < p + 4 then .raised .badMagic s
  else
    let total := s.memRead4 .ibuf p
    if s32 total < 0 then .raised .badMagic s
    else
      (unpackRange (p + 4) s.inLen.toNat (s32 total).toNat ((s.setPhase .unpack).setOpos 0)).map fun t =>
        { t.setOutLen with total := total, extLen := BitVec.ofNat 32 e }

/-- DECOMPRESS from the treeLen field on (R220; rows 8 to 11 of R222); `e` is extLen. -/
def decompressTree (e : Nat) (s : State) : Run :=
  if s.inLen.toNat < 11 + e + 4 then .raised .badMagic s
  else
    let treeLen := s32 (s.memRead4 .ibuf (11 + e))
    if treeLen < 0 then .raised .corruptTree s
    else if (s.inLen.toNat : Int) - (15 + e) < treeLen then .raised .corruptTree s
    else
      (deserializeRange (15 + e) (15 + e + treeLen.toNat) (s.setPhase .des)).bind fun t =>
        decompressPayload e (15 + e + treeLen.toNat) (t.setPhase .hdr)

/-- The checks of DECOMPRESS on the tag and the extension (R220; rows 1 to 7 of R222), then the rest. -/
def decompressBody (s : State) : Run :=
  if s.params.ibufCap < s.inLen.toNat then .raised .resource s
  else if s.inLen.toNat < 7 then .raised .badMagic s
  else if s.bytes .ibuf 0 7 ≠ magicBytes then .raised .badMagic s
  else if s.inLen.toNat < 7 + 4 then .raised .badMagic s
  else
    let e := s32 (s.memRead4 .ibuf 7)
    if e < 0 then .raised .badMagic s
    else if (s.inLen.toNat : Int) - 11 < e then .raised .badMagic s
    else if (s.params.extCap : Int) < e then .raised .resource s
    else decompressTree e.toNat (copyExt e.toNat 0 s)

/-- DECOMPRESS (R220): clean tables before and after (R213). -/
def execDecompress : State → Host.Outcome State Fault Refusal :=
  command .decompress .hdr fun s => (decompressBody s.cleanTables.clearTotal).map State.cleanTables

end Sys2Proof.Machine
end

