-- ==== Sys2Proof/Machine/HostPort.lean ====
section
/-! DEFINITION. The host's accesses: the address map (20_memory.md R66), register and window reads (10_state.md R21 to
R38), writes, the CMD write that starts a command (R23, R257), and the host notation of 30_encoding.md R103. -/

namespace Sys2Proof.Machine

/-- What stands at an offset of the register region (R66). -/
inductive RegName where
  | cmd
  | status
  | inLen
  | outLen
  | total
  | extLen
  | nleaf
  | nnode
  | root
  | freq (sym : Byte)
  | lutLen (sym : Byte)
  | nodeFreq (i : NodeIdx)
  | nodeLinks (i : NodeIdx)
  | lutCode (sym : Byte) (k : Nat)
  | unmapped
  deriving DecidableEq, Repr

/-- The register map (R66), for a word-aligned offset. -/
def regAt (off : Nat) : RegName :=
  if off = 0x0000 then .cmd
  else if off = 0x0004 then .status
  else if off = 0x0008 then .inLen
  else if off = 0x000C then .outLen
  else if off = 0x0010 then .total
  else if off = 0x0014 then .extLen
  else if off = 0x0018 then .nleaf
  else if off = 0x001C then .nnode
  else if off = 0x0020 then .root
  else if 0x0400 ≤ off ∧ off < 0x0800 then .freq (BitVec.ofNat 8 ((off - 0x0400) / 4))
  else if 0x0800 ≤ off ∧ off < 0x0C00 then .lutLen (BitVec.ofNat 8 ((off - 0x0800) / 4))
  else if 0x1000 ≤ off ∧ off < 0x1FF8 then
    if off % 8 = 0 then .nodeFreq (BitVec.ofNat 9 ((off - 0x1000) / 8))
    else .nodeLinks (BitVec.ofNat 9 ((off - 0x1000) / 8))
  else if 0x2000 ≤ off ∧ off < 0x4000 then
    .lutCode (BitVec.ofNat 8 ((off - 0x2000) / 32)) ((off - 0x2000) % 32 / 4)
  else .unmapped

/-- Where an address falls (R66). -/
inductive Place where
  | reg (off : Nat)
  | buffer (sp : Space) (a : Nat)
  | outside
  deriving DecidableEq, Repr

/-- The address map (R66): the four regions. -/
def placeOf (p : Params) (addr : Nat) : Place :=
  if p.regBase ≤ addr ∧ addr < p.regBase + Params.regSize then .reg (addr - p.regBase)
  else if p.ibufBase ≤ addr ∧ addr < p.ibufBase + p.ibufCap then .buffer .ibuf (addr - p.ibufBase)
  else if p.obufBase ≤ addr ∧ addr < p.obufBase + p.obufCap then .buffer .obuf (addr - p.obufBase)
  else if p.extbufBase ≤ addr ∧ addr < p.extbufBase + p.extCap then .buffer .extbuf (addr - p.extbufBase)
  else .outside

/-- Word 1 of a NODE record (R29): kind in bit 26, sym in 25:18, right in 17:9, left in 8:0. -/
def linkWord (r : NodeRec) : Word := (0 : BitVec 5) ++ bit1 r.leaf ++ r.sym ++ r.right ++ r.left

/-- Word `k` of a code vector (R33): V[255 − 32·k : 224 − 32·k]. -/
def codeWord (e : LutEntry) (k : Nat) : Word := e.code.extractLsb' (224 - 32 * k) 32

/-- NODE[i] as the window shows it: a record only while TREE_VALID = 1 and i < NNODE (R29, R292). -/
def State.windowNode (s : State) (i : NodeIdx) : Option NodeRec :=
  if s.treeValid = true ∧ i.toNat < s.nnode.toNat then some (s.nodeRead i) else none

/-- LUT[sym] as the windows show it: a record only while LUT_VALID = 1 (R33, R292). -/
def State.windowLut (s : State) (sym : Byte) : Option LutEntry :=
  if s.lutValid = true then some (s.lutRead sym) else none

/-- The word a register holds for a host that reads it while BUSY = 0 (R21 to R25, R29, R33, R38); `none` where the spec
calls the value unspecified (U1, U2). -/
def State.regWord (s : State) : RegName → Option Word
  | .cmd => some 0
  | .status => some s.statusWord
  | .inLen => some s.inLen
  | .outLen => some s.outLen
  | .total => some s.total
  | .extLen => some s.extLen
  | .nleaf => some (s.nleaf.zeroExtend 32)
  | .nnode => some (s.nnode.zeroExtend 32)
  | .root => some (s.root.zeroExtend 32)
  | .freq sym => some (s.freqOf sym)
  | .lutLen sym => (s.windowLut sym).map fun e => e.len.zeroExtend 32
  | .nodeFreq i => (s.windowNode i).map fun r => r.freq
  | .nodeLinks i => (s.windowNode i).map linkWord
  | .lutCode sym k => (s.windowLut sym).map fun e => codeWord e k
  | .unmapped => some 0

/-- The host receives a datum. -/
def State.deliver (s : State) (d : HostDatum) : State := { s with lastRead := some d }

/-- The next free word (U1, U2, U7; log 8), and the state that has used it. -/
def State.takeFree (s : State) : Word × State :=
  (Config.freeWord s.freeCount, { s with freeCount := s.freeCount + 1 })

/-- A host read of a register (R38, R40, R67): an unspecified value is a free word. -/
def readReg (r : RegName) (s : State) : State :=
  let (free, t) := s.takeFree
  if s.busy then t.deliver (.word (if r = .status then busyStatusWord free else free))
  else
    match s.regWord r with
    | some v => s.deliver (.word v)
    | none => t.deliver (.word free)

/-- A host read of a buffer byte (R40, R60); while BUSY = 1 the value is unspecified. -/
def readBuffer (sp : Space) (a : Nat) (s : State) : State :=
  if s.busy then
    let (free, t) := s.takeFree
    t.deliver (.byte (free.extractLsb' 0 8))
  else s.deliver (.byte (s.memRead sp a))

/-- A CMD write while BUSY = 0 (R23, R256, R257): the command the word encodes, from start to completion, or IllegalCmd. -/
def startCommand (w : Word) (s : State) : Host.Outcome State Fault Refusal :=
  match decode w with
  | .ok i => exec i s
  | .error _ => .next s.commandStart.illegalEntry

/-- A host write of a register while BUSY = 0 (R21, R23, R38): only CMD, IN_LEN, TOTAL and EXT_LEN take it. -/
def writeReg (r : RegName) (v : Word) (s : State) : Host.Outcome State Fault Refusal :=
  match r with
  | .cmd => startCommand v s
  | .inLen => .next { s with inLen := v }
  | .total => .next { s with total := v }
  | .extLen => .next { s with extLen := v }
  | .status => .next s
  | .outLen => .next s
  | .nleaf => .next s
  | .nnode => .next s
  | .root => .next s
  | .freq _ => .next s
  | .lutLen _ => .next s
  | .nodeFreq _ => .next s
  | .nodeLinks _ => .next s
  | .lutCode _ _ => .next s
  | .unmapped => .next s

/-- The platform's reset, in any state (R280, R282): every piece of state has the value of R39; NODE, LUT and the three
buffers are unspecified anew. The parameters and the model's own fields stay (log 19). -/
def platformReset (s : State) : State :=
  { State.resetWith s.params with
    node := s.node.forget
    lut := s.lut.forget
    mem := ((s.mem.forget .ibuf).forget .obuf).forget .extbuf
    host := s.host
    lastRead := s.lastRead
    freeCount := s.freeCount }

/-- One access of the host (R14): an aligned word of the register region or a byte of a buffer; another shape is refused
(R63, U6), an address of no region faults (R66). A write while BUSY = 1 is ignored (R40). The platform's reset is taken
at once. -/
def hostAccess (a : HostAccess) (s : State) : Host.Outcome State Fault Refusal :=
  match a with
  | .platformReset => .next (platformReset s)
  | .readWord addr =>
    match placeOf s.params addr with
    | .reg off => if off % 4 = 0 then .next (readReg (regAt off) s) else .refused .accessShape
    | .buffer _ _ => .refused .accessShape
    | .outside => .fault .outsideRegions
  | .writeWord addr v =>
    match placeOf s.params addr with
    | .reg off =>
      if off % 4 = 0 then (if s.busy then .next s else writeReg (regAt off) v s) else .refused .accessShape
    | .buffer _ _ => .refused .accessShape
    | .outside => .fault .outsideRegions
  | .readByte addr =>
    match placeOf s.params addr with
    | .reg _ => .refused .accessShape
    | .buffer sp o => .next (readBuffer sp o s)
    | .outside => .fault .outsideRegions
  | .writeByte addr b =>
    match placeOf s.params addr with
    | .reg _ => .refused .accessShape
    | .buffer sp o => .next (if s.busy then s else s.memWrite sp o b)
    | .outside => .fault .outsideRegions

/-- The offset of a register in the register region (R66). -/
def regOffset : RegName → Nat
  | .cmd => 0x0000
  | .status => 0x0004
  | .inLen => 0x0008
  | .outLen => 0x000C
  | .total => 0x0010
  | .extLen => 0x0014
  | .nleaf => 0x0018
  | .nnode => 0x001C
  | .root => 0x0020
  | .freq sym => 0x0400 + 4 * sym.toNat
  | .lutLen sym => 0x0800 + 4 * sym.toNat
  | .nodeFreq i => 0x1000 + 8 * i.toNat
  | .nodeLinks i => 0x1004 + 8 * i.toNat
  | .lutCode sym k => 0x2000 + 32 * sym.toNat + 4 * k
  | .unmapped => 0x0024

/-- The base address of a buffer (R66). -/
def bufBase (p : Params) : Space → Nat
  | .ibuf => p.ibufBase
  | .obuf => p.obufBase
  | .extbuf => p.extbufBase

/-- `wr REG, v` (R103). -/
def hostWr (p : Params) (r : RegName) (v : Word) : List HostAccess := [.writeWord (p.regBase + regOffset r) v]

/-- `rd REG` (R103). -/
def hostRd (p : Params) (r : RegName) : List HostAccess := [.readWord (p.regBase + regOffset r)]

/-- `ldb BUF+a, b0 b1 …` (R103). -/
def hostLdb (p : Params) (sp : Space) : Nat → List Byte → List HostAccess
  | _, [] => []
  | a, b :: rest => .writeByte (bufBase p sp + a) b :: hostLdb p sp (a + 1) rest

/-- `rdb BUF+a, n` (R103). -/
def hostRdb (p : Params) (sp : Space) (a n : Nat) : List HostAccess :=
  (List.range n).map fun k => .readByte (bufBase p sp + a + k)

/-- `cmd M` (R103). -/
def hostCmd (p : Params) (i : Instr) : List HostAccess := hostWr p .cmd (encode i)

/-- `wait` (R103): in the atomic model the first read of STATUS shows DONE = 1 (R243). -/
def hostWait (p : Params) : List HostAccess := hostRd p .status

end Sys2Proof.Machine
end

