-- ==== Sys2Proof/Machine/Step.lean ====
section
/-! DEFINITION. One step: the host's next access, performed to completion (R7, R14, R70 a). With no access pending the
block is idle and keeps all state (R271, R281). -/

namespace Sys2Proof.Machine

/-- One step of the machine. -/
def step (s : State) : Host.Outcome State Fault Refusal :=
  match s.host with
  | [] => .next s
  | a :: rest => hostAccess a { s with host := rest }

/-- `s` with a write of the command word `w` to CMD as the host's next access, and BUSY = 0, without which the write would
be ignored (R23; log 2). -/
def State.withFetchWord (s : State) (nbits w : Nat) : State :=
  { s with
    busy := false
    host := .writeWord s.params.regBase (BitVec.ofNat 32 (w % 2 ^ nbits)) :: s.host }

end Sys2Proof.Machine
end

