-- ==== Sys2Proof/Safety.lean ====
section
/-! DEFINITION. The terms the claims use: trees as NODE stores them (10_state.md R30), the serialized tree (30_encoding.md
R94), the codes (42_code_table.md R161 to R164), decoding by a tree (44_bit_codec.md R196 to R199), the compressed file
(30_encoding.md R96), and the invariant of the machine. None of them is used by the machine. -/

namespace Sys2Proof.Machine

/-- The topology and the leaf symbols of a tree: a full binary tree (R30 b). -/
inductive Shape where
  | leaf (sym : Byte)
  | node (left right : Shape)
  deriving DecidableEq, Repr

/-- L, the number of leaves. -/
def Shape.numLeaves : Shape → Nat
  | .leaf _ => 1
  | .node l r => l.numLeaves + r.numLeaves

/-- The number of nodes. -/
def Shape.numNodes : Shape → Nat
  | .leaf _ => 1
  | .node l r => l.numNodes + r.numNodes + 1

/-- The leaf symbols in preorder. -/
def Shape.symbols : Shape → List Byte
  | .leaf s => [s]
  | .node l r => l.symbols ++ r.symbols

/-- The serialized tree (R94), with the flag bytes of an internal node and of a leaf. -/
def Shape.serial (flagInternal flagLeaf : Byte) : Shape → List Byte
  | .leaf s => [flagLeaf, s]
  | .node l r => flagInternal :: (l.serial flagInternal flagLeaf ++ r.serial flagInternal flagLeaf)

/-- The leaf symbols in preorder, each with the branch bits of its path after `p` (R161). -/
def Shape.paths (p : BitString) : Shape → List (Byte × BitString)
  | .leaf s => [(s, p)]
  | .node l r => l.paths (p ++ [false]) ++ r.paths (p ++ [true])

/-- The codes of the leaves in preorder; a leaf at the root has the code "0" (R163). -/
def Shape.codes : Shape → List (Byte × BitString)
  | .leaf s => [(s, [false])]
  | .node l r => (Shape.node l r).paths []

/-- The code of a symbol: that of the last leaf in preorder that carries it (R164). -/
def Shape.codeOf (t : Shape) (sym : Byte) : Option BitString :=
  (t.codes.reverse.find? fun c => c.1 == sym).map fun c => c.2

/-- The LUT record a symbol has in the code table of a tree (R31, R32). -/
def Shape.lutEntry (t : Shape) (sym : Byte) : LutEntry :=
  match t.codeOf sym with
  | some c => lutEntryOf c
  | none => { len := 0, code := 0 }

/-- Decoding by the tree `root`, from the subtree `cur`: `n` symbols off a bit-string (R196, R198, R199); `none` where the
bits run out first (R197). -/
def Shape.decodeFrom (root : Shape) : Shape → Nat → BitString → Option (List Byte)
  | _, 0, _ => some []
  | _, _ + 1, [] => none
  | cur, n + 1, b :: bs =>
    match root with
    | .leaf s => (Shape.decodeFrom root root n bs).map (s :: ·)
    | .node _ _ =>
      match cur with
      | .leaf _ => none
      | .node l r =>
        match (if b then r else l) with
        | .leaf s => (Shape.decodeFrom root root n bs).map (s :: ·)
        | .node l' r' => Shape.decodeFrom root (.node l' r') (n + 1) bs

/-- `n` symbols decoded from the root. -/
def Shape.decode (t : Shape) (n : Nat) (bs : BitString) : Option (List Byte) := t.decodeFrom t n bs

/-- The bits of a byte, most significant first (R62). -/
def byteBits (b : Byte) : BitString := (List.range 8).map b.getMsbD

/-- The bits of a byte sequence (R62). -/
def bitsOf (l : List Byte) : BitString := l.flatMap byteBits

/-- A tree with the NODE index of every node. -/
inductive NodeTree where
  | leaf (i : NodeIdx) (sym : Byte)
  | node (i : NodeIdx) (left right : NodeTree)
  deriving DecidableEq, Repr

/-- The index of the root. -/
def NodeTree.idx : NodeTree → NodeIdx
  | .leaf i _ => i
  | .node i _ _ => i

/-- The indices of all nodes, in preorder. -/
def NodeTree.indices : NodeTree → List Nat
  | .leaf i _ => [i.toNat]
  | .node i l r => i.toNat :: (l.indices ++ r.indices)

/-- The tree without its indices. -/
def NodeTree.shape : NodeTree → Shape
  | .leaf _ s => .leaf s
  | .node _ l r => .node l.shape r.shape

/-- The records of NODE hold the tree, with the unused fields 0 (R28). -/
def NodeTree.stored (s : State) : NodeTree → Bool
  | .leaf i sym =>
    match s.node.get? i.toNat with
    | some r => r.leaf && r.sym == sym && r.left == 0 && r.right == 0
    | none => false
  | .node i l r =>
    (match s.node.get? i.toNat with
      | some q => !q.leaf && q.sym == 0 && q.left == l.idx && q.right == r.idx
      | none => false)
    && l.stored s && r.stored s

/-- NODE, ROOT, NNODE and NLEAF hold the tree `t` (R30 a to d): the records 0 .. NNODE − 1, and only those, are its nodes,
each once. -/
abbrev TreeOf (s : State) (t : NodeTree) : Prop :=
  t.stored s = true ∧ t.idx = s.root ∧ t.indices.Perm (List.range s.nnode.toNat)
    ∧ t.shape.numLeaves = s.nleaf.toNat

/-- The LUT holds the code table of the tree `t` (R32). -/
def TableOf (s : State) (t : Shape) : Prop :=
  ∀ sym : Byte, s.lut.get? sym.toNat = some (t.lutEntry sym)

/-- A shape with its nodes numbered in preorder from `n` (R179). -/
def Shape.numbered (n : Nat) : Shape → NodeTree
  | .leaf s => .leaf (BitVec.ofNat 9 n) s
  | .node l r => .node (BitVec.ofNat 9 n) (l.numbered (n + 1)) (r.numbered (n + 1 + l.numNodes))

/-- The compressed file (R96): magic, extension, tree, count, payload. -/
def fileOf (p : Params) (ext : List Byte) (t : Shape) (total : Word) (payload : List Byte) : List Byte :=
  magicBytes ++ le32 (BitVec.ofNat 32 ext.length) ++ ext
    ++ le32 (BitVec.ofNat 32 (t.serial p.flagInternal p.flagLeaf).length)
    ++ t.serial p.flagInternal p.flagLeaf ++ le32 total ++ payload

/-- The bytes a command takes as input, IBUF[0 .. IN_LEN − 1] (R34). -/
def State.input (s : State) : List Byte := s.bytes .ibuf 0 s.inLen.toNat

/-- The bytes a command gave as output, OBUF[0 .. OUT_LEN − 1] (R34). -/
def State.output (s : State) : List Byte := s.bytes .obuf 0 s.outLen.toNat

/-- The extension, EXTBUF[0 .. EXT_LEN − 1] (R34). -/
def State.extension (s : State) : List Byte := s.bytes .extbuf 0 s.extLen.toNat

/-- The codes of a list of bytes, end to end, in the code table of a state. -/
def State.bitsFor (s : State) (l : List Byte) : BitString := l.flatMap fun b => codeBits (s.lutRead b)

/-- The bits PACK lays end to end: the codes of the input in order (R99, R190). -/
def State.payloadBits (s : State) : BitString := s.bitsFor s.input

/-- What the host does to use an output as the next input (R289): it writes the bytes to IBUF from offset 0 on, and their
number to IN_LEN. -/
def loadInput (l : List Byte) (s : State) : State :=
  { s with
    mem := { s.mem with ibuf := l.zipIdx.foldl (fun st c => st.write c.2 c.1) s.mem.ibuf }
    inLen := BitVec.ofNat 32 l.length }

/-- The clean-tables state (R16). -/
def CleanTables (s : State) : Prop :=
  (∀ sym, s.freqOf sym = 0) ∧ s.treeValid = false ∧ s.lutValid = false ∧ s.nleaf = 0 ∧ s.nnode = 0 ∧ s.root = 0

/-- What no command changes: the model's own fields and the parameters. -/
def SameEnvironment (s t : State) : Prop :=
  t.params = s.params ∧ t.host = s.host ∧ t.lastRead = s.lastRead ∧ t.freeCount = s.freeCount

/-- Nothing of a store is specified. -/
def Unspecified {α : Type} (st : Store α) : Prop := ∀ i, st.get? i = none

/-- What the success exit makes of a state (R257, R259): DONE = 1, BUSY = ERR = 0, ERRCODE = 0. `q` is the sequencer after
it: of it the spec gives pc alone, and statements claim no more (log 14). -/
def asSucceeded (q : Seq) (s : State) : State :=
  { s with busy := false, done := true, err := false, errCode := 0, seq := q }

/-- What the error entry makes of a state (R258): DONE = ERR = 1, BUSY = 0, the code of the kind, OUT_LEN = 0. `q` is the
sequencer after it. -/
def asFailed (e : ErrKind) (q : Seq) (s : State) : State :=
  { s with busy := false, done := true, err := true, errCode := errCodeOf e, outLen := 0, seq := q }

/-- The state with the tree and the code table discarded (R27): flags and tree registers 0; `m` and `l` are the contents
of NODE and LUT then, unspecified. -/
def withoutTree (m : Store NodeRec) (l : Store LutEntry) (s : State) : State :=
  { s with treeValid := false, lutValid := false, nleaf := 0, nnode := 0, root := 0, node := m, lut := l }

/-- The command `i` answers a next state from `s`, through the error entry, and but for it that state is `u`; pc is
PH_IDLE. -/
def FailsAs (e : ErrKind) (i : Instr) (s u : State) : Prop :=
  ∃ t, exec i s = .next t ∧ t.seq.pc = .idle ∧ t = asFailed e t.seq u

/-- The same, with every OBUF byte unspecified and everything else as in `s` (R74). -/
def FailsWithoutOutput (e : ErrKind) (i : Instr) (s : State) : Prop :=
  ∃ o, Unspecified o ∧ FailsAs e i s { s with mem := { s.mem with obuf := o } }

/-- The same, with the tree and the code table discarded, NODE and LUT unspecified (R27), and everything else as in
`u`. -/
def FailsWithoutTree (e : ErrKind) (i : Instr) (s u : State) : Prop :=
  ∃ m l, Unspecified m ∧ Unspecified l ∧ FailsAs e i s (withoutTree m l u)

/-- The symbols present in FREQ, in ascending order (R22, R141). -/
def present (s : State) : List Byte := allSymbols.filter fun sym => s.freqOf sym != 0

/-- Node `i` is in PQ when BUILD creates node `j` (R140): it exists, and no internal node before `j` has taken it. -/
def Unmerged (t : State) (j : Nat) (i : NodeIdx) : Prop :=
  i.toNat < j ∧ ∀ k : NodeIdx, t.nleaf.toNat ≤ k.toNat → k.toNat < j →
    (t.nodeRead k).left ≠ i ∧ (t.nodeRead k).right ≠ i

/-- The success exit shows in STATUS as BUSY = 0, DONE = 1, ERR = 0, ERRCODE = 0, and pc is PH_IDLE (R259). -/
def Succeeded (t : State) : Prop :=
  t.busy = false ∧ t.done = true ∧ t.err = false ∧ t.errCode = 0 ∧ t.seq.pc = .idle

/-- The error entry shows in STATUS as BUSY = 0, DONE = 1, ERR = 1 and the code of the kind, OUT_LEN is 0 and pc is
PH_IDLE (R258). -/
def Failed (e : ErrKind) (t : State) : Prop :=
  t.busy = false ∧ t.done = true ∧ t.err = true ∧ t.errCode = errCodeOf e ∧ t.outLen = 0 ∧ t.seq.pc = .idle

/-- The error kinds each command can raise: the error matrix (R264). -/
def mayRaise : Instr → List ErrKind
  | .nop => []
  | .count => [.emptyInput, .resource]
  | .build => [.emptyInput]
  | .gencodes => [.precondition]
  | .serialize => [.resource, .precondition]
  | .deserialize => [.corruptTree, .resource]
  | .pack => [.resource, .precondition]
  | .unpack => [.truncatedStream, .resource, .precondition]
  | .compress => [.emptyInput, .resource]
  | .decompress => [.badMagic, .corruptTree, .truncatedStream, .resource]
  | .clear => []

/-- The checks of DECOMPRESS up to the tree bytes, in the order made, each with its error: rows 1 to 10 of R222. -/
def headerChecks (s : State) : List (Bool × ErrKind) :=
  let n : Int := s.inLen.toNat
  let e := s32 (s.memRead4 .ibuf 7)
  let t := s32 (s.memRead4 .ibuf (11 + e.toNat))
  [ (decide ((s.params.ibufCap : Int) < n), .resource),
    (decide (n < 7), .badMagic),
    (decide (s.bytes .ibuf 0 7 ≠ magicBytes), .badMagic),
    (decide (n < 11), .badMagic),
    (decide (e < 0), .badMagic),
    (decide (n - 11 < e), .badMagic),
    (decide ((s.params.extCap : Int) < e), .resource),
    (decide (n < 15 + e), .badMagic),
    (decide (t < 0), .corruptTree),
    (decide (n - (15 + e) < t), .corruptTree) ]

/-- The error of the first check that fails. -/
def firstFailing (l : List (Bool × ErrKind)) : Option ErrKind := (l.find? fun c => c.1).map fun c => c.2

/-- The invariant: the parameters are admitted (R9, R10). -/
def ParamsInv (s : State) : Prop := s.params.wellFormed = true

/-- The invariant: memory is in canonical form and every listed byte lies in its space (R65). -/
def MemoryInv (s : State) : Prop :=
  s.mem.wf = true ∧ s.mem.ibuf.below s.params.ibufCap = true ∧ s.mem.obuf.below s.params.obufCap = true
    ∧ s.mem.extbuf.below s.params.extCap = true

/-- The invariant: the table stores are in canonical form, with no record outside NODE and LUT (R28, R31). -/
def StoreInv (s : State) : Prop :=
  s.node.wf = true ∧ s.node.below nodeCap = true ∧ s.lut.wf = true ∧ s.lut.below 256 = true

/-- The invariant: between steps no command runs (R7, R24, R36). -/
def IdleInv (s : State) : Prop := s.busy = false ∧ s.seq.pc = .idle

/-- The invariant on STATUS (R24, R250, R258): ERRCODE is 0 without an error, one of the codes 1 to 7 with one; an error
is a completion, and it leaves OUT_LEN = 0 until a command sets it. -/
def StatusInv (s : State) : Prop :=
  (s.err = false → s.errCode = 0)
    ∧ (s.err = true → s.done = true ∧ s.outLen = 0 ∧ 1 ≤ s.errCode.toNat ∧ s.errCode.toNat ≤ 7)

/-- The invariant on validity (R25, R26): LUT_VALID implies TREE_VALID; without a tree the tree registers are 0 and
nothing of NODE is specified, without a code table nothing of LUT is. -/
def ValidityInv (s : State) : Prop :=
  (s.lutValid = true → s.treeValid = true)
    ∧ (s.treeValid = false → s.nleaf = 0 ∧ s.nnode = 0 ∧ s.root = 0 ∧ s.node.cells = [])
    ∧ (s.lutValid = false → s.lut.cells = [])

/-- The sum of all FREQ entries, without wrap. -/
def State.freqSum (s : State) : Nat := (allSymbols.map fun sym => (s.freqOf sym).toNat).sum

/-- The invariant on FREQ (R15 a): the counts are those of at most IBUF_CAP bytes. -/
def FreqInv (s : State) : Prop := s.freqSum ≤ s.params.ibufCap

/-- The invariant on OUT_LEN (R37): no output is longer than OBUF. -/
def OutputInv (s : State) : Prop := s.outLen.toNat ≤ s.params.obufCap

/-- The tree and the code-table invariants (R30, R32). -/
def TreeInv (s : State) : Prop :=
  s.treeValid = true → ∃ t : NodeTree, TreeOf s t ∧ (s.lutValid = true → TableOf s t.shape)

/-- The invariant of the machine. -/
def Inv (s : State) : Prop :=
  ParamsInv s ∧ MemoryInv s ∧ StoreInv s ∧ IdleInv s ∧ StatusInv s ∧ ValidityInv s ∧ FreqInv s ∧ OutputInv s ∧ TreeInv s

end Sys2Proof.Machine
end

