-- ==== Sys2Proof/Certificates/Slice0/Obligations.lean ====
section
/-! DEFINITION. The statements about the machine, from the numbered rules of spec/. Each is a Prop, proved elsewhere. -/

open Sys2Proof Sys2Proof.Machine

/-! ### Reset, encoding, the step -/

/-- R39: what reset leaves, for every choice of the OPEN parameters. That NODE, LUT and the buffers are "unspecified" is
that no entry of theirs is listed. The transient state is "none": only pc is claimed. -/
def Obligations.ResetLeavesTheStatedValues : Prop :=
  (∃ p : Params, State.reset = State.resetWith p) ∧
  ∀ p : Params,
    (State.resetWith p).inLen = 0 ∧ (State.resetWith p).outLen = 0 ∧ (State.resetWith p).total = 0
    ∧ (State.resetWith p).extLen = 0 ∧ (State.resetWith p).statusWord = 0
    ∧ (State.resetWith p).busy = false ∧ (State.resetWith p).done = false ∧ (State.resetWith p).err = false
    ∧ (State.resetWith p).errCode = 0
    ∧ CleanTables (State.resetWith p) ∧ (State.resetWith p).seq.pc = .idle
    ∧ Unspecified (State.resetWith p).node ∧ Unspecified (State.resetWith p).lut
    ∧ (∀ sp, Unspecified ((State.resetWith p).mem.space sp))

/-- R280, R282: the platform's reset, from any state, even with BUSY = 1: every register, flag and FREQ entry is as R39
says, NODE, LUT and the buffers are unspecified anew; the host's further accesses wait (the model's choice, log 19). -/
def Obligations.PlatformResetReturnsToReset : Prop :=
  ∀ (s : State) (rest : List HostAccess), s.host = .platformReset :: rest →
    ∃ t, step s = .next t ∧ SameEnvironment { s with host := rest } t
      ∧ t.seq.pc = .idle ∧ Unspecified t.node ∧ Unspecified t.lut ∧ (∀ sp, Unspecified (t.mem.space sp))
      ∧ t = { State.resetWith s.params with
          node := t.node, lut := t.lut, mem := t.mem, seq := t.seq, host := t.host, lastRead := t.lastRead,
          freeCount := t.freeCount }

/-- R91: words written out from the opcode map, and two illegal ones (R102). -/
def Obligations.WrittenOutWordsDecode : Prop :=
  decode 0x00000000 = .ok .nop ∧ decode 0x00000001 = .ok .count ∧ decode 0x00000002 = .ok .build
  ∧ decode 0x00000003 = .ok .gencodes ∧ decode 0x00000004 = .ok .serialize
  ∧ decode 0x00000005 = .ok .deserialize ∧ decode 0x00000006 = .ok .pack ∧ decode 0x00000007 = .ok .unpack
  ∧ decode 0x00000008 = .ok .compress ∧ decode 0x00000009 = .ok .decompress ∧ decode 0x0000000F = .ok .clear
  ∧ decode 0x0000000A = .error .reservedOpcode ∧ decode 0x00000101 = .error .upperBitsSet

/-- R90, R91: decoding the word of a command gives the command back. -/
def Obligations.DecodeOfEncodeIsTheCommand : Prop :=
  ∀ i : Instr, i.wellFormed = true → decode (encode i) = .ok i

/-- R92: every word is one of the eleven command words or illegal, and a command's word is the only one for it. -/
def Obligations.DecodeAcceptsOnlyTheElevenWords : Prop :=
  ∀ (w : Word) (i : Instr), decode w = .ok i ↔ w = encode i

/-- A step with a CMD write pending and BUSY = 0 is the meaning of the decoded command (R23, R257). -/
def Obligations.StepRunsTheDecodedCommand : Prop :=
  ∀ (s : State) (w : Word) (rest : List HostAccess) (i : Instr),
    s.busy = false → s.host = .writeWord s.params.regBase w :: rest → decode w = .ok i →
    step s = exec i { s with host := rest }

/-- withFetchWord places exactly a CMD write, which the next step runs. -/
def Obligations.StepRunsThePlacedWord : Prop :=
  ∀ (s : State) (w : Nat) (i : Instr), decodeTableWord 32 w = some i →
    step (s.withFetchWord 32 w) = exec i { s with busy := false }

/-- R256: a word with bits 31:8 not all zero, or with an opcode outside the map, is the command start and the error entry
with IllegalCmd, and nothing else: only STATUS and OUT_LEN change (and the host's access is done). -/
def Obligations.IllegalWordChangesOnlyStatusAndOutLen : Prop :=
  ∀ (s : State) (w : Word) (rest : List HostAccess),
    s.busy = false → s.host = .writeWord s.params.regBase w :: rest →
    w.extractLsb' 8 24 ≠ 0
      ∨ w.extractLsb' 0 8
        ∉ [0x00, 0x01, 0x02, 0x03, 0x04, 0x05, 0x06, 0x07, 0x08, 0x09, (0x0F : BitVec 8)] →
    ∃ t, step s = .next t ∧ t.seq.pc = .idle ∧ t = asFailed .illegalCmd t.seq { s with host := rest }

/-- R281, R271: without a host access the block does nothing and keeps all state. -/
def Obligations.IdleBlockKeepsItsState : Prop :=
  ∀ s : State, s.host = [] → step s = .next s

/-! ### Host accesses -/

/-- R67: a host read changes nothing but what the host has read (and the model's counter of free words). -/
def Obligations.HostReadsHaveNoSideEffect : Prop :=
  ∀ (s t : State) (addr : Nat) (rest : List HostAccess),
    s.host = .readWord addr :: rest ∨ s.host = .readByte addr :: rest → step s = .next t →
    t = { s with host := rest, lastRead := t.lastRead, freeCount := t.freeCount }

/-- R21 to R25 and R38, with the offsets of R66: the word a host reads from each register while BUSY = 0. -/
def Obligations.HostReadsTheRegisters : Prop :=
  ∀ (s : State) (off : Nat) (rest : List HostAccess) (v : Word),
    s.busy = false → s.host = .readWord (s.params.regBase + off) :: rest →
    (off = 0x0000 ∧ v = 0) ∨ (off = 0x0004 ∧ v = s.statusWord) ∨ (off = 0x0008 ∧ v = s.inLen)
      ∨ (off = 0x000C ∧ v = s.outLen) ∨ (off = 0x0010 ∧ v = s.total) ∨ (off = 0x0014 ∧ v = s.extLen)
      ∨ (off = 0x0018 ∧ v = s.nleaf.zeroExtend 32) ∨ (off = 0x001C ∧ v = s.nnode.zeroExtend 32)
      ∨ (off = 0x0020 ∧ v = s.root.zeroExtend 32)
      ∨ (∃ sym : Byte, off = 0x0400 + 4 * sym.toNat ∧ v = s.freqOf sym)
      ∨ (off % 4 = 0 ∧ 0x0024 ≤ off ∧ off ≤ 0x03FC ∧ v = 0)
      ∨ (off % 4 = 0 ∧ 0x0C00 ≤ off ∧ off ≤ 0x0FFC ∧ v = 0)
      ∨ ((off = 0x1FF8 ∨ off = 0x1FFC) ∧ v = 0) →
    step s = .next { s with host := rest, lastRead := some (.word v) }

/-- R24: the fields of STATUS, bit by bit; the reserved bits read 0. -/
def Obligations.StatusFieldsStandAtTheirBits : Prop :=
  ∀ s : State,
    s.statusWord.getLsbD 0 = s.busy ∧ s.statusWord.getLsbD 1 = s.done ∧ s.statusWord.getLsbD 2 = s.err
    ∧ s.statusWord.getLsbD 3 = s.treeValid ∧ s.statusWord.getLsbD 4 = s.lutValid
    ∧ s.statusWord.extractLsb' 5 3 = 0 ∧ s.statusWord.extractLsb' 8 4 = s.errCode
    ∧ s.statusWord.extractLsb' 12 20 = 0

/-- R29: the two words of NODE record `i` while TREE_VALID = 1 and `i` is below NNODE. -/
def Obligations.NodeWindowShowsTheRecord : Prop :=
  ∀ (s : State) (i : NodeIdx) (r : NodeRec) (rest : List HostAccess),
    s.busy = false → s.treeValid = true → i.toNat < s.nnode.toNat → i.toNat < 511 → s.node.get? i.toNat = some r →
    (s.host = .readWord (s.params.regBase + 0x1000 + 8 * i.toNat) :: rest →
      step s = .next { s with host := rest, lastRead := some (.word r.freq) })
    ∧ (s.host = .readWord (s.params.regBase + 0x1004 + 8 * i.toNat) :: rest →
      ∃ w : Word, step s = .next { s with host := rest, lastRead := some (.word w) }
        ∧ w.extractLsb' 27 5 = 0 ∧ w.getLsbD 26 = r.leaf ∧ w.extractLsb' 18 8 = r.sym
        ∧ w.extractLsb' 9 9 = r.right ∧ w.extractLsb' 0 9 = r.left)

/-- R33: the length word and the eight code words of a symbol while LUT_VALID = 1; element `i` of the code is bit
31 − (i mod 32) of word i div 32. -/
def Obligations.LutWindowShowsTheCode : Prop :=
  ∀ (s : State) (sym : Byte) (e : LutEntry) (rest : List HostAccess),
    s.busy = false → s.lutValid = true → s.lut.get? sym.toNat = some e →
    (s.host = .readWord (s.params.regBase + 0x0800 + 4 * sym.toNat) :: rest →
      step s = .next { s with host := rest, lastRead := some (.word (e.len.zeroExtend 32)) })
    ∧ ∀ k < 8, s.host = .readWord (s.params.regBase + 0x2000 + 32 * sym.toNat + 4 * k) :: rest →
      ∃ w : Word, step s = .next { s with host := rest, lastRead := some (.word w) }
        ∧ ∀ j < 32, w.getLsbD (31 - j) = e.code.getLsbD (255 - (32 * k + j))

/-- R292, with U1 and U2: a window read of an invalid table, or of a NODE record from NNODE on, gives an unspecified
value: the model's is the next free word (its choice, log 7), whatever that is; the machine goes on. -/
def Obligations.WindowsOfInvalidTablesGiveAFreeWord : Prop :=
  ∀ (s : State) (off : Nat) (rest : List HostAccess),
    s.busy = false → off % 4 = 0 → s.host = .readWord (s.params.regBase + off) :: rest →
    (0x1000 ≤ off ∧ off < 0x1FF8 ∧ (s.treeValid = false ∨ s.nnode.toNat ≤ (off - 0x1000) / 8))
      ∨ (0x0800 ≤ off ∧ off < 0x0C00 ∧ s.lutValid = false)
      ∨ (0x2000 ≤ off ∧ off < 0x4000 ∧ s.lutValid = false) →
    step s = .next
      { s with
        host := rest, freeCount := s.freeCount + 1
        lastRead := some (.word (Config.freeWord s.freeCount)) }

/-- R21, R38: IN_LEN, TOTAL and EXT_LEN take a host write; every other aligned offset but CMD's ignores it. -/
def Obligations.HostWritesOnlyTheThreeRegisters : Prop :=
  ∀ (s : State) (off : Nat) (v : Word) (rest : List HostAccess),
    s.busy = false → off % 4 = 0 → off < 0x4000 → off ≠ 0 →
    s.host = .writeWord (s.params.regBase + off) v :: rest →
    step s = .next
      { s with
        host := rest
        inLen := if off = 0x0008 then v else s.inLen
        total := if off = 0x0010 then v else s.total
        extLen := if off = 0x0014 then v else s.extLen }

/-- R40: while BUSY = 1 every write is ignored, and a read of STATUS shows BUSY = 1 and its reserved bits 0, the other
fields being whatever the free word gives. -/
def Obligations.BusyBlockIgnoresWrites : Prop :=
  ∀ (s : State) (rest : List HostAccess), s.busy = true →
    (∀ off v, off % 4 = 0 → off < 0x4000 → s.host = .writeWord (s.params.regBase + off) v :: rest →
      step s = .next { s with host := rest })
    ∧ (∀ addr b sp a, s.host = .writeByte addr b :: rest → placeOf s.params addr = .buffer sp a →
      step s = .next { s with host := rest })
    ∧ (s.host = .readWord (s.params.regBase + 0x0004) :: rest →
      ∃ w : Word, w.getLsbD 0 = true ∧ w.extractLsb' 5 3 = 0 ∧ w.extractLsb' 12 20 = 0
        ∧ step s = .next { s with host := rest, freeCount := s.freeCount + 1, lastRead := some (.word w) })

/-- R60, R66, R67: a host byte write changes that byte of its space, no other byte and nothing else, and a byte read
gives the byte. -/
def Obligations.HostBytesAreStoredAndReadBack : Prop :=
  ∀ (s : State) (sp : Space) (a : Nat) (rest : List HostAccess),
    s.params.wellFormed = true → s.busy = false →
    a < (match sp with
      | .ibuf => s.params.ibufCap
      | .obuf => s.params.obufCap
      | .extbuf => s.params.extCap) →
    (∀ b : Byte, s.host = .writeByte (bufBase s.params sp + a) b :: rest →
      ∃ t, step s = .next t ∧ t.memRead sp a = b
        ∧ (∀ sp' a', ¬(sp' = sp ∧ a' = a) → t.memRead sp' a' = s.memRead sp' a')
        ∧ t = { s with host := rest, mem := t.mem })
    ∧ (s.host = .readByte (bufBase s.params sp + a) :: rest →
      step s = .next { s with host := rest, lastRead := some (.byte (s.memRead sp a)) })

/-- R63, R66: where a host access stops: a misaligned word or a word outside the register region's words is refused, a
byte of the register region is refused, and an address of no region faults. -/
def Obligations.WrongHostAccessesStop : Prop :=
  ∀ (s : State) (addr : Nat) (rest : List HostAccess),
    (∀ off, placeOf s.params addr = .reg off → off % 4 ≠ 0 →
      (s.host = .readWord addr :: rest → step s = .refused .accessShape)
      ∧ (∀ v, s.host = .writeWord addr v :: rest → step s = .refused .accessShape))
    ∧ (∀ sp a, placeOf s.params addr = .buffer sp a →
      (s.host = .readWord addr :: rest → step s = .refused .accessShape)
      ∧ (∀ v, s.host = .writeWord addr v :: rest → step s = .refused .accessShape))
    ∧ (∀ off, placeOf s.params addr = .reg off →
      (s.host = .readByte addr :: rest → step s = .refused .accessShape)
      ∧ (∀ b, s.host = .writeByte addr b :: rest → step s = .refused .accessShape))
    ∧ (placeOf s.params addr = .outside →
      (s.host = .readWord addr :: rest → step s = .fault .outsideRegions)
      ∧ (∀ v, s.host = .writeWord addr v :: rest → step s = .fault .outsideRegions)
      ∧ (s.host = .readByte addr :: rest → step s = .fault .outsideRegions)
      ∧ (∀ b, s.host = .writeByte addr b :: rest → step s = .fault .outsideRegions))

/-- R61: a 4-byte read is little-endian, and so is the 4-byte field `Put32` writes. -/
def Obligations.IntegersAreLittleEndian : Prop :=
  (∀ (s : State) (sp : Space) (a : Nat),
    (s.memRead4 sp a).extractLsb' 0 8 = s.memRead sp a ∧ (s.memRead4 sp a).extractLsb' 8 8 = s.memRead sp (a + 1)
    ∧ (s.memRead4 sp a).extractLsb' 16 8 = s.memRead sp (a + 2)
    ∧ (s.memRead4 sp a).extractLsb' 24 8 = s.memRead sp (a + 3))
  ∧ ∀ (s : State) (v : Word), s.seq.opos + 4 ≤ s.params.obufCap →
    ∃ t, s.put32 v = .ok t ∧ t.memRead .obuf s.seq.opos = v.extractLsb' 0 8
      ∧ t.memRead .obuf (s.seq.opos + 1) = v.extractLsb' 8 8 ∧ t.memRead .obuf (s.seq.opos + 2) = v.extractLsb' 16 8
      ∧ t.memRead .obuf (s.seq.opos + 3) = v.extractLsb' 24 8 ∧ t.memRead4 .obuf s.seq.opos = v
      ∧ t.seq.opos = s.seq.opos + 4

/-! ### NOP, CLEAR -/

/-- R240: NOP changes only DONE, ERR and ERRCODE (and completes: BUSY = 0, pc = PH_IDLE). -/
def Obligations.NopOnlyAcknowledges : Prop :=
  ∀ s : State, ∃ t, exec .nop s = .next t ∧ t.seq.pc = .idle ∧ t = asSucceeded t.seq s

/-- R241: CLEAR leaves the reset state but for DONE = 1, and does not touch the buffers. -/
def Obligations.ClearReturnsToReset : Prop :=
  ∀ s : State, ∃ t, exec .clear s = .next t ∧ SameEnvironment s t ∧ t.mem = s.mem
    ∧ t.seq.pc = .idle ∧ Unspecified t.node ∧ Unspecified t.lut
    ∧ t = { State.resetWith s.params with
        done := true, mem := s.mem, host := s.host, lastRead := s.lastRead, freeCount := s.freeCount,
        node := t.node, lut := t.lut, seq := t.seq }

/-! ### COUNT -/

/-- R130: a COUNT of a non-empty input within IBUF completes: TOTAL = IN_LEN, FREQ the counts, the tree and the code table
discarded, everything else as before. -/
def Obligations.CountCompletes : Prop :=
  ∀ s : State, s.inLen ≠ 0 → s.inLen.toNat ≤ s.params.ibufCap →
    ∃ t, exec .count s = .next t ∧ t.seq.pc = .idle ∧ Unspecified t.node ∧ Unspecified t.lut
      ∧ t = asSucceeded t.seq { withoutTree t.node t.lut s with freq := t.freq, total := s.inLen }
      ∧ ∀ sym, (t.freqOf sym).toNat = s.input.count sym

/-- R131: the result law of COUNT. -/
def Obligations.CountResultLaw : Prop :=
  ∀ s t : State, exec .count s = .next t → t.err = false →
    (∀ sym, (t.freqOf sym).toNat = s.input.count sym)
    ∧ t.freqSum = t.total.toNat ∧ t.total = s.inLen ∧ (∃ sym, t.freqOf sym ≠ 0)
    ∧ ∀ s' t' : State, exec .count s' = .next t' → t'.err = false → s'.input.Perm s.input →
      t'.freq = t.freq ∧ t'.total = t.total

/-- R130, R133: the errors of COUNT, in their order; FREQ is all zero and TOTAL = 0 at the end. -/
def Obligations.CountErrors : Prop :=
  ∀ s : State,
    (s.params.ibufCap < s.inLen.toNat →
      FailsWithoutTree .resource .count s { s with freq := Vector.replicate 256 0, total := 0 })
    ∧ (s.inLen = 0 →
      FailsWithoutTree .emptyInput .count s { s with freq := Vector.replicate 256 0, total := 0 })

/-! ### BUILD -/

/-- R141: the leaves that BUILD makes, and their indices; internal nodes take the indices after them in the order they are
created, so that a child always has the smaller index. -/
def Obligations.BuildNumbersLeavesBySymbol : Prop :=
  ∀ s : State, present s ≠ [] →
    ∃ t, exec .build s = .next t ∧ Succeeded t ∧ t.treeValid = true
      ∧ t.nleaf.toNat = (present s).length ∧ t.nnode.toNat = 2 * (present s).length - 1
      ∧ (∀ (k : Nat) (h : k < (present s).length),
        t.node.get? k
          = some { leaf := true, sym := (present s)[k], freq := s.freqOf (present s)[k], left := 0, right := 0 })
      ∧ ∀ k, (present s).length ≤ k → k < t.nnode.toNat →
        ∃ r, t.node.get? k = some r ∧ r.leaf = false ∧ r.left.toNat < k ∧ r.right.toNat < k

/-- R142, R143: every internal node merges the two nodes in PQ with the smallest keys, the smaller one on the left. -/
def Obligations.BuildMergesTheTwoSmallestKeys : Prop :=
  ∀ s : State, present s ≠ [] →
    ∃ t, exec .build s = .next t ∧ Succeeded t
      ∧ ∀ j : NodeIdx, t.nleaf.toNat ≤ j.toNat → j.toNat < t.nnode.toNat →
        (t.nodeRead j).leaf = false ∧ (t.nodeRead j).sym = 0
        ∧ Unmerged t j.toNat (t.nodeRead j).left ∧ Unmerged t j.toNat (t.nodeRead j).right
        ∧ t.key (t.nodeRead j).left < t.key (t.nodeRead j).right
        ∧ (∀ i, Unmerged t j.toNat i → i ≠ (t.nodeRead j).left → i ≠ (t.nodeRead j).right →
          t.key (t.nodeRead j).right < t.key i)
        ∧ (t.nodeRead j).freq = (t.nodeRead (t.nodeRead j).left).freq + (t.nodeRead (t.nodeRead j).right).freq

/-- R146 a, b, d, and the frame of BUILD (R140): the tree has distinct leaf symbols, those present in FREQ; its root is
the last node, with the sum of FREQ; nothing but the tree, the table and STATUS changes. -/
def Obligations.BuildMakesATreeOfTheSymbols : Prop :=
  ∀ s : State, present s ≠ [] →
    ∃ t tree, exec .build s = .next t ∧ TreeOf t tree ∧ tree.shape.symbols.Perm (present s)
      ∧ tree.shape.symbols.Nodup ∧ t.root.toNat = 2 * t.nleaf.toNat - 2
      ∧ (t.nodeRead t.root).freq = BitVec.ofNat 32 s.freqSum
      ∧ t.seq.pc = .idle ∧ Unspecified t.lut
      ∧ t = asSucceeded t.seq
        { withoutTree t.node t.lut s with treeValid := true, nleaf := t.nleaf, nnode := t.nnode, root := t.root }

/-- R146 c: internal nodes are created with non-decreasing frequency, where the counts add up without wrap (R15 b). -/
def Obligations.BuildFrequenciesDoNotDecrease : Prop :=
  ∀ s t : State, s.freqSum < 2 ^ 32 → exec .build s = .next t → t.err = false →
    ∀ i j : NodeIdx, t.nleaf.toNat ≤ i.toNat → i.toNat < j.toNat → j.toNat < t.nnode.toNat →
      (t.nodeRead i).freq.toNat ≤ (t.nodeRead j).freq.toNat

/-- R145: BUILD on an empty mapping. -/
def Obligations.BuildOfNothingIsEmptyInput : Prop :=
  ∀ s : State, (∀ sym, s.freqOf sym = 0) → FailsWithoutTree .emptyInput .build s s

/-! ### GENCODES -/

/-- R160, R161, R163, R164: GENCODES on a valid tree completes, every LUT record is the code of its symbol in the tree,
and nothing but LUT, LUT_VALID and STATUS changes. -/
def Obligations.GencodesTabulatesTheTree : Prop :=
  ∀ (s : State) (tree : NodeTree), s.treeValid = true → TreeOf s tree →
    ∃ t, exec .gencodes s = .next t ∧ t.seq.pc = .idle
      ∧ t = asSucceeded t.seq { s with lut := t.lut, lutValid := true }
      ∧ ∀ sym : Byte, t.lut.get? sym.toNat = some (tree.shape.lutEntry sym)
        ∧ (tree.shape.codeOf sym = none → tree.shape.lutEntry sym = { len := 0, code := 0 })
        ∧ ∀ c, tree.shape.codeOf sym = some c →
          1 ≤ c.length ∧ c.length ≤ 255 ∧ codeBits (tree.shape.lutEntry sym) = c

/-- R162: after COUNT, BUILD and GENCODES on the same data exactly the counted symbols have a code, the codes are
prefix-free, and with two leaves or more their lengths satisfy the Kraft equality (here times 2^256). -/
def Obligations.CountedSymbolsGetPrefixFreeCodes : Prop :=
  ∀ s : State, s.inLen ≠ 0 → s.inLen.toNat ≤ s.params.ibufCap →
    ∃ t u v, exec .count s = .next t ∧ exec .build t = .next u ∧ exec .gencodes u = .next v ∧ Succeeded v
      ∧ (∀ sym, (v.lutRead sym).len ≠ 0 ↔ t.freqOf sym ≠ 0)
      ∧ (∀ x y, x ≠ y → t.freqOf x ≠ 0 → t.freqOf y ≠ 0 →
        ¬ codeBits (v.lutRead x) <+: codeBits (v.lutRead y))
      ∧ (2 ≤ v.nleaf.toNat →
        ((present t).map fun sym => 2 ^ (256 - (v.lutRead sym).len.toNat)).sum = 2 ^ 256)

/-! ### SERIALIZE, DESERIALIZE -/

/-- R170, R171: SERIALIZE of a valid tree that fits OBUF completes with the 3·L − 1 preorder bytes at OBUF[0 ..]; every
other byte and every table is as before. -/
def Obligations.SerializeWritesThePreorderBytes : Prop :=
  ∀ (s : State) (tree : NodeTree), s.treeValid = true → TreeOf s tree →
    3 * s.nleaf.toNat - 1 ≤ s.params.obufCap →
    ∃ t, exec .serialize s = .next t
      ∧ t.outLen.toNat = 3 * s.nleaf.toNat - 1
      ∧ t.output = tree.shape.serial s.params.flagInternal s.params.flagLeaf
      ∧ (∀ a, t.outLen.toNat ≤ a → t.memRead .obuf a = s.memRead .obuf a)
      ∧ t.seq.pc = .idle
      ∧ t = asSucceeded t.seq { s with outLen := t.outLen, mem := { s.mem with obuf := t.mem.obuf } }

/-- R170: SERIALIZE of a valid tree that does not fit OBUF is Resource; the tree and the table stay. -/
def Obligations.SerializeBeyondObufIsResource : Prop :=
  ∀ (s : State) (tree : NodeTree), s.treeValid = true → TreeOf s tree →
    s.params.obufCap < 3 * s.nleaf.toNat - 1 →
    FailsWithoutOutput .resource .serialize s

/-- R175, R179, R180: DESERIALIZE of the bytes of a tree of at most 511 nodes completes with that tree, numbered in
preorder with the root at 0, and every freq 0; FREQ and TOTAL are not touched. -/
def Obligations.DeserializeBuildsThePreorderTree : Prop :=
  ∀ (s : State) (shape : Shape), s.params.flagInternal ≠ s.params.flagLeaf → s.inLen.toNat ≤ s.params.ibufCap →
    shape.numNodes ≤ 511 → s.input = shape.serial s.params.flagInternal s.params.flagLeaf →
    ∃ t, exec .deserialize s = .next t ∧ TreeOf t (shape.numbered 0) ∧ t.root = 0
      ∧ t.nnode.toNat = shape.numNodes ∧ t.nleaf.toNat = shape.numLeaves
      ∧ (∀ k < shape.numNodes, ∃ r, t.node.get? k = some r ∧ r.freq = 0)
      ∧ t.seq.pc = .idle ∧ Unspecified t.lut
      ∧ t = asSucceeded t.seq { withoutTree t.node t.lut s with treeValid := true, nleaf := t.nleaf, nnode := t.nnode }

/-- R177: DESERIALIZE of any other byte sequence is CorruptTree, and no tree is left. -/
def Obligations.OtherTreeBytesAreCorrupt : Prop :=
  ∀ s : State, s.inLen.toNat ≤ s.params.ibufCap →
    (∀ shape : Shape, shape.numNodes ≤ 511 →
      s.input ≠ shape.serial s.params.flagInternal s.params.flagLeaf) →
    ∃ t, exec .deserialize s = .next t ∧ Failed .corruptTree t ∧ t.treeValid = false ∧ t.lutValid = false
      ∧ t.nleaf = 0 ∧ t.nnode = 0 ∧ t.root = 0 ∧ t.freq = s.freq ∧ t.total = s.total ∧ t.mem = s.mem

/-- R165, R181: a valid tree that is serialized and deserialized again has the same shape and leaf symbols, serializes to
the same bytes, and gives the same code table. -/
def Obligations.TreeCodecRoundTrip : Prop :=
  ∀ (s : State) (tree : NodeTree), s.params.wellFormed = true → s.treeValid = true → TreeOf s tree →
    3 * s.nleaf.toNat - 1 ≤ s.params.obufCap → 3 * s.nleaf.toNat - 1 ≤ s.params.ibufCap →
    ∃ t u tree', exec .serialize s = .next t ∧ Succeeded t
      ∧ exec .deserialize (loadInput t.output t) = .next u ∧ Succeeded u ∧ TreeOf u tree' ∧ tree'.shape = tree.shape
      ∧ (∃ v, exec .serialize u = .next v ∧ Succeeded v ∧ v.output = t.output)
      ∧ ∃ v w, exec .gencodes s = .next v ∧ exec .gencodes u = .next w
        ∧ ∀ sym, w.lutRead sym = v.lutRead sym

/-! ### PACK, UNPACK -/

/-- R191, R192, R193: PACK of bytes that all have a code, with room in OBUF, completes: the output's bits are the codes
end to end and then fewer than 8 zeros; every other byte and every table is as before. -/
def Obligations.PackLaysTheCodesEndToEnd : Prop :=
  ∀ s : State, s.lutValid = true → s.inLen.toNat ≤ s.params.ibufCap → s.params.obufCap < 2 ^ 32 →
    (∀ b ∈ s.input, (s.lutRead b).len ≠ 0) → (s.payloadBits.length + 7) / 8 ≤ s.params.obufCap →
    ∃ t pad, exec .pack s = .next t ∧ pad < 8 ∧ bitsOf t.output = s.payloadBits ++ List.replicate pad false
      ∧ t.outLen.toNat = (s.payloadBits.length + 7) / 8
      ∧ (∀ a, t.outLen.toNat ≤ a → t.memRead .obuf a = s.memRead .obuf a)
      ∧ t.seq.pc = .idle
      ∧ t = asSucceeded t.seq { s with outLen := t.outLen, mem := { s.mem with obuf := t.mem.obuf } }

/-- R194, R255: PACK meeting a byte without a code is Precondition, PACK without room in OBUF is Resource, whichever
comes first in input order; the tables stay. -/
def Obligations.PackErrorsInInputOrder : Prop :=
  ∀ (s : State) (before after : List Byte), s.lutValid = true → s.inLen.toNat ≤ s.params.ibufCap →
    s.input = before ++ after → (∀ b ∈ before, (s.lutRead b).len ≠ 0) →
    (∀ b rest, after = b :: rest → (s.lutRead b).len = 0 → (s.bitsFor before).length / 8 ≤ s.params.obufCap →
      FailsWithoutOutput .precondition .pack s)
    ∧ (s.params.obufCap < (s.bitsFor before).length / 8 →
      FailsWithoutOutput .resource .pack s)
    ∧ (after = [] → s.params.obufCap < ((s.bitsFor before).length + 7) / 8 →
      FailsWithoutOutput .resource .pack s)

/-- R196, R198, R199: UNPACK of a payload with enough bits, with room in OBUF, completes with the TOTAL symbols that the
tree decodes, whatever bits remain; every other byte and every table is as before. -/
def Obligations.UnpackDecodesTotalSymbols : Prop :=
  ∀ (s : State) (tree : NodeTree) (out : List Byte), s.treeValid = true → TreeOf s tree →
    s.inLen.toNat ≤ s.params.ibufCap → s.total.toNat ≤ s.params.obufCap →
    tree.shape.decode s.total.toNat (bitsOf s.input) = some out →
    ∃ t, exec .unpack s = .next t ∧ t.output = out ∧ t.outLen = s.total
      ∧ (∀ a, t.outLen.toNat ≤ a → t.memRead .obuf a = s.memRead .obuf a)
      ∧ t.seq.pc = .idle
      ∧ t = asSucceeded t.seq { s with outLen := t.outLen, mem := { s.mem with obuf := t.mem.obuf } }

/-- R197, R255: UNPACK is TruncatedStream where the bits run out first, and Resource where a symbol has no room first. -/
def Obligations.UnpackErrorsInDecodeOrder : Prop :=
  ∀ (s : State) (tree : NodeTree), s.treeValid = true → TreeOf s tree → s.inLen.toNat ≤ s.params.ibufCap →
    (tree.shape.decode s.total.toNat (bitsOf s.input) = none →
      tree.shape.decode (s.params.obufCap + 1) (bitsOf s.input) = none →
      FailsWithoutOutput .truncatedStream .unpack s)
    ∧ (s.params.obufCap < s.total.toNat →
      tree.shape.decode (s.params.obufCap + 1) (bitsOf s.input) ≠ none →
      FailsWithoutOutput .resource .unpack s)

/-- R201: UNPACK of the output of PACK under the same tree gives the packed bytes back. -/
def Obligations.UnpackInvertsPack : Prop :=
  ∀ (s : State) (tree : NodeTree), s.params.wellFormed = true → s.treeValid = true → s.lutValid = true →
    TreeOf s tree → TableOf s tree.shape → tree.shape.symbols.Nodup → (∀ b ∈ s.input, b ∈ tree.shape.symbols) →
    s.inLen.toNat ≤ s.params.ibufCap → s.inLen.toNat ≤ s.params.obufCap →
    (s.payloadBits.length + 7) / 8 ≤ s.params.obufCap → (s.payloadBits.length + 7) / 8 ≤ s.params.ibufCap →
    ∃ t v, exec .pack s = .next t ∧ Succeeded t
      ∧ exec .unpack { loadInput t.output t with total := s.inLen } = .next v ∧ Succeeded v ∧ v.output = s.input

/-! ### COMPRESS, DECOMPRESS -/

/-- R210: COMPRESS completes on every non-empty input with an extension that fits and room for the longest file those can
need; nothing but OBUF, OUT_LEN, TOTAL, the tables and STATUS changes. -/
def Obligations.CompressCompletes : Prop :=
  ∀ s : State, s.params.wellFormed = true → s.inLen ≠ 0 → s.inLen.toNat ≤ s.params.ibufCap →
    s.extLen.toNat ≤ s.params.extCap → 786 + s.extLen.toNat + 32 * s.inLen.toNat ≤ s.params.obufCap →
    ∃ t, exec .compress s = .next t ∧ Succeeded t ∧ CleanTables t ∧ t.total = s.inLen
      ∧ (∀ a, t.outLen.toNat ≤ a → t.memRead .obuf a = s.memRead .obuf a)
      ∧ t = { s with
          outLen := t.outLen, total := t.total, freq := t.freq, busy := t.busy, done := t.done, err := t.err,
          treeValid := t.treeValid, lutValid := t.lutValid, errCode := t.errCode, nleaf := t.nleaf,
          nnode := t.nnode, root := t.root, node := t.node, lut := t.lut, seq := t.seq,
          mem := { s.mem with obuf := t.mem.obuf } }

/-- R104 (derived there), R100: the output of COMPRESS is fixed by the component commands on the same input, and so is its length. -/
def Obligations.CompressIsTheComponentsInOrder : Prop :=
  ∀ s t u v a b : State, s.params.wellFormed = true →
    exec .count s = .next t → exec .build t = .next u → exec .gencodes u = .next v →
    exec .serialize v = .next a → exec .pack v = .next b → t.err = false → a.err = false → b.err = false →
    s.extLen.toNat ≤ s.params.extCap →
    19 + s.extLen.toNat + a.outLen.toNat + b.outLen.toNat ≤ s.params.obufCap →
    ∃ w, exec .compress s = .next w ∧ Succeeded w
      ∧ w.output = magicBytes ++ le32 s.extLen ++ s.extension ++ le32 a.outLen ++ a.output ++ le32 s.inLen ++ b.output
      ∧ w.outLen.toNat = 19 + s.extLen.toNat + (3 * v.nleaf.toNat - 1) + (v.payloadBits.length + 7) / 8

/-- R210, R212, R255, R262: all the errors of COMPRESS in their order, with OUT_LEN = TOTAL = 0 and clean tables (R213);
the last is a file longer than OBUF_CAP, its length (R100) taken from the tables that COUNT, BUILD and GENCODES make of
the same input. -/
def Obligations.CompressErrors : Prop :=
  ∀ s : State,
    (s.params.ibufCap < s.inLen.toNat →
      ∃ t, exec .compress s = .next t ∧ Failed .resource t ∧ t.total = 0 ∧ CleanTables t)
    ∧ (s.inLen = 0 → ∃ t, exec .compress s = .next t ∧ Failed .emptyInput t ∧ t.total = 0 ∧ CleanTables t)
    ∧ (s.inLen ≠ 0 → s.inLen.toNat ≤ s.params.ibufCap → s.params.extCap < s.extLen.toNat →
      ∃ t, exec .compress s = .next t ∧ Failed .resource t ∧ t.total = 0 ∧ CleanTables t)
    ∧ ∀ a b v : State, s.inLen ≠ 0 → s.inLen.toNat ≤ s.params.ibufCap → s.extLen.toNat ≤ s.params.extCap →
      exec .count s = .next a → exec .build a = .next b → exec .gencodes b = .next v →
      s.params.obufCap < 19 + s.extLen.toNat + (3 * v.nleaf.toNat - 1) + (v.payloadBits.length + 7) / 8 →
      ∃ t, exec .compress s = .next t ∧ Failed .resource t ∧ t.total = 0 ∧ CleanTables t

/-- R217: COMPRESS is a function of its inputs and the capacities alone; the flag bytes, constants of the format that are
parameters here (93_implementation_defined.md), are the same too. The base addresses may differ. -/
def Obligations.CompressIsPure : Prop :=
  ∀ s s' t : State, s'.params.ibufCap = s.params.ibufCap → s'.params.obufCap = s.params.obufCap →
    s'.params.extCap = s.params.extCap → s'.params.flagInternal = s.params.flagInternal →
    s'.params.flagLeaf = s.params.flagLeaf → s'.inLen = s.inLen → s'.extLen = s.extLen → s'.input = s.input →
    s'.extension = s.extension → exec .compress s = .next t →
    ∃ t', exec .compress s' = .next t' ∧ t'.output = t.output ∧ t'.outLen = t.outLen ∧ t'.total = t.total
      ∧ t'.inLen = t.inLen ∧ t'.extLen = t.extLen ∧ t'.statusWord = t.statusWord ∧ t'.seq.pc = t.seq.pc
      ∧ t'.freq = t.freq ∧ t'.nleaf = t.nleaf ∧ t'.nnode = t.nnode ∧ t'.root = t.root

/-- R96, R220, R223: DECOMPRESS of a well-formed file within the capacities completes with the decoded bytes and the
extension; nothing else of the buffers changes. -/
def Obligations.DecompressReadsAWellFormedFile : Prop :=
  ∀ (s : State) (ext payload out : List Byte) (shape : Shape) (total : Word),
    s.params.wellFormed = true → s.inLen.toNat ≤ s.params.ibufCap →
    s.input = fileOf s.params ext shape total payload → ext.length ≤ s.params.extCap → shape.numNodes ≤ 511 →
    total.toNat < 2 ^ 31 → total.toNat ≤ s.params.obufCap →
    shape.decode total.toNat (bitsOf payload) = some out →
    ∃ t, exec .decompress s = .next t ∧ Succeeded t ∧ CleanTables t ∧ t.output = out ∧ t.outLen = total
      ∧ t.total = total ∧ t.extLen.toNat = ext.length ∧ t.extension = ext ∧ t.inLen = s.inLen ∧ SameEnvironment s t
      ∧ (∀ a, t.memRead .ibuf a = s.memRead .ibuf a)
      ∧ (∀ a, t.outLen.toNat ≤ a → t.memRead .obuf a = s.memRead .obuf a)
      ∧ (∀ a, t.extLen.toNat ≤ a → t.memRead .extbuf a = s.memRead .extbuf a)

/-- R222, rows 1 to 10: the first check that fails decides the error; OUT_LEN, TOTAL and EXT_LEN are 0, the tables clean. -/
def Obligations.DecompressReportsTheFirstHeaderError : Prop :=
  ∀ (s : State) (e : ErrKind), firstFailing (headerChecks s) = some e →
    ∃ t, exec .decompress s = .next t ∧ Failed e t ∧ t.total = 0 ∧ t.extLen = 0 ∧ CleanTables t

/-- R222, rows 11 to 15, for a file whose rows 1 to 10 pass; `e` is extLen, `k` is treeLen. -/
def Obligations.DecompressReportsTheLaterErrors : Prop :=
  ∀ (s : State) (e k : Nat), s.params.wellFormed = true → firstFailing (headerChecks s) = none →
    s32 (s.memRead4 .ibuf 7) = e → s32 (s.memRead4 .ibuf (11 + e)) = k →
    ((∀ shape : Shape, shape.numNodes ≤ 511 →
        s.bytes .ibuf (15 + e) k ≠ shape.serial s.params.flagInternal s.params.flagLeaf) →
      ∃ t, exec .decompress s = .next t ∧ Failed .corruptTree t ∧ t.total = 0 ∧ t.extLen = 0 ∧ CleanTables t)
    ∧ ∀ shape : Shape, shape.numNodes ≤ 511 →
      s.bytes .ibuf (15 + e) k = shape.serial s.params.flagInternal s.params.flagLeaf →
      ((s.inLen.toNat < 19 + e + k ∨ s32 (s.memRead4 .ibuf (15 + e + k)) < 0) →
        ∃ t, exec .decompress s = .next t ∧ Failed .badMagic t ∧ t.total = 0 ∧ t.extLen = 0 ∧ CleanTables t)
      ∧ ∀ n : Nat, 19 + e + k ≤ s.inLen.toNat → s32 (s.memRead4 .ibuf (15 + e + k)) = n →
        (shape.decode n (bitsOf (s.bytes .ibuf (19 + e + k) (s.inLen.toNat - (19 + e + k)))) = none →
          shape.decode (s.params.obufCap + 1)
            (bitsOf (s.bytes .ibuf (19 + e + k) (s.inLen.toNat - (19 + e + k)))) = none →
          ∃ t, exec .decompress s = .next t ∧ Failed .truncatedStream t ∧ t.total = 0 ∧ t.extLen = 0
            ∧ CleanTables t)
        ∧ (s.params.obufCap < n →
          shape.decode (s.params.obufCap + 1)
            (bitsOf (s.bytes .ibuf (19 + e + k) (s.inLen.toNat - (19 + e + k)))) ≠ none →
          ∃ t, exec .decompress s = .next t ∧ Failed .resource t ∧ t.total = 0 ∧ t.extLen = 0 ∧ CleanTables t)

/-- R224: the round trip. -/
def Obligations.DecompressInvertsCompress : Prop :=
  ∀ s t : State, s.params.wellFormed = true → exec .compress s = .next t → t.err = false →
    t.outLen.toNat ≤ s.params.ibufCap → s.inLen.toNat ≤ s.params.obufCap →
    ∃ v, exec .decompress (loadInput t.output t) = .next v ∧ Succeeded v ∧ v.output = s.input
      ∧ v.total = v.outLen ∧ v.outLen = s.inLen ∧ v.extLen = s.extLen ∧ v.extension = s.extension

/-! ### Rules of the whole machine -/

/-- R255: IN_LEN above IBUF_CAP is Resource in every command that reads IBUF, once its table is there (R262).
DESERIALIZE has then discarded the tree and the code table (R175), PACK and UNPACK keep them (R190, R196); all else is as
before, but for OBUF after PACK and UNPACK (R74). -/
def Obligations.OversizedInputIsResource : Prop :=
  ∀ s : State, s.params.ibufCap < s.inLen.toNat →
    (∀ i ∈ [Instr.count, .compress, .decompress], ∃ t, exec i s = .next t ∧ Failed .resource t)
    ∧ FailsWithoutTree .resource .deserialize s s
    ∧ (s.lutValid = true → FailsWithoutOutput .resource .pack s)
    ∧ (s.treeValid = true → FailsWithoutOutput .resource .unpack s)

/-- R263, R262: a command without the table it consumes is Precondition, before any other check; the tables stay. -/
def Obligations.MissingTableIsPrecondition : Prop :=
  ∀ s : State,
    (s.treeValid = false →
      FailsAs .precondition .gencodes s s
      ∧ FailsWithoutOutput .precondition .serialize s
      ∧ FailsWithoutOutput .precondition .unpack s)
    ∧ (s.lutValid = false →
      FailsWithoutOutput .precondition .pack s)

/-- R258, R259, R264: a command that ends has succeeded, or has failed with one of the kinds the error matrix gives it. -/
def Obligations.CommandsEndByTheErrorMatrix : Prop :=
  ∀ (i : Instr) (s t : State), exec i s = .next t →
    (t.err = false → Succeeded t) ∧ (t.err = true → ∃ e ∈ mayRaise i, Failed e t)

/-- R213, R258: after COMPRESS and DECOMPRESS, in every outcome, the tables are clean; after an error TOTAL = 0, and for
DECOMPRESS EXT_LEN = 0. -/
def Obligations.CompositeCommandsLeaveCleanTables : Prop :=
  ∀ (i : Instr) (s t : State), i = .compress ∨ i = .decompress → exec i s = .next t →
    CleanTables t ∧ (t.err = true → t.total = 0 ∧ (i = .decompress → t.extLen = 0))

/-- R21, R93: the registers and tables that no rule lets a command write are as before it. -/
def Obligations.CommandsKeepTheOtherRegisters : Prop :=
  ∀ (i : Instr) (s t : State), exec i s = .next t →
    SameEnvironment s t
    ∧ (i ≠ .clear → t.inLen = s.inLen)
    ∧ (i ≠ .decompress → i ≠ .clear → t.extLen = s.extLen)
    ∧ (i ∈ [Instr.nop, .build, .gencodes, .serialize, .deserialize, .pack, .unpack] →
      t.total = s.total ∧ t.freq = s.freq)
    ∧ (i ∈ [Instr.nop, .gencodes, .serialize, .pack, .unpack] →
      t.node = s.node ∧ t.nleaf = s.nleaf ∧ t.nnode = s.nnode ∧ t.root = s.root ∧ t.treeValid = s.treeValid)
    ∧ (i ∈ [Instr.nop, .serialize, .pack, .unpack] → t.lut = s.lut ∧ t.lutValid = s.lutValid)
    ∧ (i ∈ [Instr.nop, .count, .build, .gencodes, .deserialize] → t.err = false → t.outLen = s.outLen)

/-- R74: the bytes a command leaves unchanged, with and without an error. -/
def Obligations.CommandsKeepTheOtherBytes : Prop :=
  ∀ (i : Instr) (s t : State), s.params.wellFormed = true → exec i s = .next t →
    (∀ a, t.memRead .ibuf a = s.memRead .ibuf a)
    ∧ (i ∈ [Instr.nop, .count, .build, .gencodes, .deserialize, .clear] →
      ∀ a, t.memRead .obuf a = s.memRead .obuf a)
    ∧ (i ∈ [Instr.serialize, .pack, .unpack, .compress, .decompress] → t.err = false →
      ∀ a, t.outLen.toNat ≤ a → t.memRead .obuf a = s.memRead .obuf a)
    ∧ (i ≠ .decompress → ∀ a, t.memRead .extbuf a = s.memRead .extbuf a)
    ∧ (i = .decompress → t.err = false → ∀ a, t.extLen.toNat ≤ a → t.memRead .extbuf a = s.memRead .extbuf a)
    ∧ (t.err = true → t.outLen = 0)

/-- R290: every command ends, in every state of the invariant: no walk of NODE is stuck. -/
def Obligations.EveryCommandEnds : Prop :=
  ∀ (i : Instr) (s : State), Inv s → ∃ t, exec i s = .next t

/-- The invariant holds after reset, for every admitted choice of the OPEN parameters. -/
def Obligations.ResetMeetsTheInvariant : Prop :=
  ∀ p : Params, p.wellFormed = true → Inv (State.resetWith p)

/-- The invariant (R10, R24 to R26, R28 to R32, R36, R37, R65) is kept by every step. -/
def Obligations.StepKeepsTheInvariant : Prop :=
  ∀ s t : State, Inv s → step s = .next t → Inv t
end

