-- ==== Sys2Proof/Laws/Codes.lean ====
section
/-! SUPPORT. A code and its stored record (10_state.md R31, R33): the record gives the code back. -/

namespace Sys2Proof.Machine

theorem firstBit_getMsbD (b : Bool) (i : Nat) (h : i < 256) :
    (if b then (1 : BitVec 256) <<< 255 else 0).getMsbD i = (b && decide (i = 0)) := by
  cases b
  · simp
  · simp only [↓reduceIte, Bool.true_and]
    rw [BitVec.getMsbD_eq_getLsbD]
    simp only [h, decide_true, Bool.true_and, BitVec.getLsbD_shiftLeft]
    by_cases hi : i = 0
    · subst hi
      simp
    · have : 256 - 1 - i < 255 := by omega
      simp [this, hi]

/-- Bit 255 − i of a left-aligned bit-string is its element `i`, or 0 after its end. -/
theorem leftAlign_getMsbD (c : BitString) (i : Nat) (h : i < 256) : (leftAlign c).getMsbD i = c.getD i false := by
  induction c generalizing i with
  | nil => simp [leftAlign]
  | cons b rest ih =>
    rw [leftAlign, BitVec.getMsbD_or, firstBit_getMsbD b i h, BitVec.getMsbD_ushiftRight]
    cases i with
    | zero => simp
    | succ i => simp [ih i (by omega), h]

/-- The record of a code of at most 255 bits holds that code. -/
theorem codeBits_lutEntryOf {c : BitString} (h : c.length ≤ 255) : codeBits (lutEntryOf c) = c := by
  have hl : (lutEntryOf c).len.toNat = c.length := by
    simp only [lutEntryOf, BitVec.toNat_ofNat]
    exact Nat.mod_eq_of_lt (by omega)
  refine List.ext_getElem (by simp [codeBits, hl]) fun i h₁ h₂ => ?_
  simp only [codeBits, List.getElem_map, List.getElem_range, lutEntryOf]
  rw [leftAlign_getMsbD c i (by omega)]
  simp [List.getD, h₂]

/-- The record of a code of at most 255 bits has length 0 only for the empty code. -/
theorem lutEntryOf_len_eq_zero {c : BitString} (h : c.length ≤ 255) : (lutEntryOf c).len = 0 ↔ c = [] := by
  refine ⟨fun hz => ?_, fun hc => by subst hc; rfl⟩
  rw [← codeBits_lutEntryOf h]
  simp [codeBits, hz]

end Sys2Proof.Machine
end

