-- ==== Sys2Proof/Laws/State.lean ====
section
/-! SUPPORT. One lemma per field of State and per update of it: what the field holds after the update. All are true by
unfolding, so that no later proof unfolds a record update. -/

namespace Sys2Proof.Machine

variable (s : State)

/-! ### setPhase -/

@[simp] theorem State.setPhase_params (p : Phase) : (s.setPhase p).params = s.params := rfl
@[simp] theorem State.setPhase_inLen (p : Phase) : (s.setPhase p).inLen = s.inLen := rfl
@[simp] theorem State.setPhase_outLen (p : Phase) : (s.setPhase p).outLen = s.outLen := rfl
@[simp] theorem State.setPhase_total (p : Phase) : (s.setPhase p).total = s.total := rfl
@[simp] theorem State.setPhase_extLen (p : Phase) : (s.setPhase p).extLen = s.extLen := rfl
@[simp] theorem State.setPhase_freq (p : Phase) : (s.setPhase p).freq = s.freq := rfl
@[simp] theorem State.setPhase_busy (p : Phase) : (s.setPhase p).busy = s.busy := rfl
@[simp] theorem State.setPhase_done (p : Phase) : (s.setPhase p).done = s.done := rfl
@[simp] theorem State.setPhase_err (p : Phase) : (s.setPhase p).err = s.err := rfl
@[simp] theorem State.setPhase_treeValid (p : Phase) : (s.setPhase p).treeValid = s.treeValid := rfl
@[simp] theorem State.setPhase_lutValid (p : Phase) : (s.setPhase p).lutValid = s.lutValid := rfl
@[simp] theorem State.setPhase_errCode (p : Phase) : (s.setPhase p).errCode = s.errCode := rfl
@[simp] theorem State.setPhase_nleaf (p : Phase) : (s.setPhase p).nleaf = s.nleaf := rfl
@[simp] theorem State.setPhase_nnode (p : Phase) : (s.setPhase p).nnode = s.nnode := rfl
@[simp] theorem State.setPhase_root (p : Phase) : (s.setPhase p).root = s.root := rfl
@[simp] theorem State.setPhase_node (p : Phase) : (s.setPhase p).node = s.node := rfl
@[simp] theorem State.setPhase_lut (p : Phase) : (s.setPhase p).lut = s.lut := rfl
@[simp] theorem State.setPhase_mem (p : Phase) : (s.setPhase p).mem = s.mem := rfl
@[simp] theorem State.setPhase_seq (p : Phase) : (s.setPhase p).seq = { s.seq with pc := p } := rfl
@[simp] theorem State.setPhase_host (p : Phase) : (s.setPhase p).host = s.host := rfl
@[simp] theorem State.setPhase_lastRead (p : Phase) : (s.setPhase p).lastRead = s.lastRead := rfl
@[simp] theorem State.setPhase_freeCount (p : Phase) : (s.setPhase p).freeCount = s.freeCount := rfl

/-! ### setIpos -/

@[simp] theorem State.setIpos_params (a : Nat) : (s.setIpos a).params = s.params := rfl
@[simp] theorem State.setIpos_inLen (a : Nat) : (s.setIpos a).inLen = s.inLen := rfl
@[simp] theorem State.setIpos_outLen (a : Nat) : (s.setIpos a).outLen = s.outLen := rfl
@[simp] theorem State.setIpos_total (a : Nat) : (s.setIpos a).total = s.total := rfl
@[simp] theorem State.setIpos_extLen (a : Nat) : (s.setIpos a).extLen = s.extLen := rfl
@[simp] theorem State.setIpos_freq (a : Nat) : (s.setIpos a).freq = s.freq := rfl
@[simp] theorem State.setIpos_busy (a : Nat) : (s.setIpos a).busy = s.busy := rfl
@[simp] theorem State.setIpos_done (a : Nat) : (s.setIpos a).done = s.done := rfl
@[simp] theorem State.setIpos_err (a : Nat) : (s.setIpos a).err = s.err := rfl
@[simp] theorem State.setIpos_treeValid (a : Nat) : (s.setIpos a).treeValid = s.treeValid := rfl
@[simp] theorem State.setIpos_lutValid (a : Nat) : (s.setIpos a).lutValid = s.lutValid := rfl
@[simp] theorem State.setIpos_errCode (a : Nat) : (s.setIpos a).errCode = s.errCode := rfl
@[simp] theorem State.setIpos_nleaf (a : Nat) : (s.setIpos a).nleaf = s.nleaf := rfl
@[simp] theorem State.setIpos_nnode (a : Nat) : (s.setIpos a).nnode = s.nnode := rfl
@[simp] theorem State.setIpos_root (a : Nat) : (s.setIpos a).root = s.root := rfl
@[simp] theorem State.setIpos_node (a : Nat) : (s.setIpos a).node = s.node := rfl
@[simp] theorem State.setIpos_lut (a : Nat) : (s.setIpos a).lut = s.lut := rfl
@[simp] theorem State.setIpos_mem (a : Nat) : (s.setIpos a).mem = s.mem := rfl
@[simp] theorem State.setIpos_seq (a : Nat) : (s.setIpos a).seq = { s.seq with ipos := a } := rfl
@[simp] theorem State.setIpos_host (a : Nat) : (s.setIpos a).host = s.host := rfl
@[simp] theorem State.setIpos_lastRead (a : Nat) : (s.setIpos a).lastRead = s.lastRead := rfl
@[simp] theorem State.setIpos_freeCount (a : Nat) : (s.setIpos a).freeCount = s.freeCount := rfl

/-! ### setOpos -/

@[simp] theorem State.setOpos_params (a : Nat) : (s.setOpos a).params = s.params := rfl
@[simp] theorem State.setOpos_inLen (a : Nat) : (s.setOpos a).inLen = s.inLen := rfl
@[simp] theorem State.setOpos_outLen (a : Nat) : (s.setOpos a).outLen = s.outLen := rfl
@[simp] theorem State.setOpos_total (a : Nat) : (s.setOpos a).total = s.total := rfl
@[simp] theorem State.setOpos_extLen (a : Nat) : (s.setOpos a).extLen = s.extLen := rfl
@[simp] theorem State.setOpos_freq (a : Nat) : (s.setOpos a).freq = s.freq := rfl
@[simp] theorem State.setOpos_busy (a : Nat) : (s.setOpos a).busy = s.busy := rfl
@[simp] theorem State.setOpos_done (a : Nat) : (s.setOpos a).done = s.done := rfl
@[simp] theorem State.setOpos_err (a : Nat) : (s.setOpos a).err = s.err := rfl
@[simp] theorem State.setOpos_treeValid (a : Nat) : (s.setOpos a).treeValid = s.treeValid := rfl
@[simp] theorem State.setOpos_lutValid (a : Nat) : (s.setOpos a).lutValid = s.lutValid := rfl
@[simp] theorem State.setOpos_errCode (a : Nat) : (s.setOpos a).errCode = s.errCode := rfl
@[simp] theorem State.setOpos_nleaf (a : Nat) : (s.setOpos a).nleaf = s.nleaf := rfl
@[simp] theorem State.setOpos_nnode (a : Nat) : (s.setOpos a).nnode = s.nnode := rfl
@[simp] theorem State.setOpos_root (a : Nat) : (s.setOpos a).root = s.root := rfl
@[simp] theorem State.setOpos_node (a : Nat) : (s.setOpos a).node = s.node := rfl
@[simp] theorem State.setOpos_lut (a : Nat) : (s.setOpos a).lut = s.lut := rfl
@[simp] theorem State.setOpos_mem (a : Nat) : (s.setOpos a).mem = s.mem := rfl
@[simp] theorem State.setOpos_seq (a : Nat) : (s.setOpos a).seq = { s.seq with opos := a } := rfl
@[simp] theorem State.setOpos_host (a : Nat) : (s.setOpos a).host = s.host := rfl
@[simp] theorem State.setOpos_lastRead (a : Nat) : (s.setOpos a).lastRead = s.lastRead := rfl
@[simp] theorem State.setOpos_freeCount (a : Nat) : (s.setOpos a).freeCount = s.freeCount := rfl

/-! ### setStk -/

@[simp] theorem State.setStk_params (l : List Frame) : (s.setStk l).params = s.params := rfl
@[simp] theorem State.setStk_inLen (l : List Frame) : (s.setStk l).inLen = s.inLen := rfl
@[simp] theorem State.setStk_outLen (l : List Frame) : (s.setStk l).outLen = s.outLen := rfl
@[simp] theorem State.setStk_total (l : List Frame) : (s.setStk l).total = s.total := rfl
@[simp] theorem State.setStk_extLen (l : List Frame) : (s.setStk l).extLen = s.extLen := rfl
@[simp] theorem State.setStk_freq (l : List Frame) : (s.setStk l).freq = s.freq := rfl
@[simp] theorem State.setStk_busy (l : List Frame) : (s.setStk l).busy = s.busy := rfl
@[simp] theorem State.setStk_done (l : List Frame) : (s.setStk l).done = s.done := rfl
@[simp] theorem State.setStk_err (l : List Frame) : (s.setStk l).err = s.err := rfl
@[simp] theorem State.setStk_treeValid (l : List Frame) : (s.setStk l).treeValid = s.treeValid := rfl
@[simp] theorem State.setStk_lutValid (l : List Frame) : (s.setStk l).lutValid = s.lutValid := rfl
@[simp] theorem State.setStk_errCode (l : List Frame) : (s.setStk l).errCode = s.errCode := rfl
@[simp] theorem State.setStk_nleaf (l : List Frame) : (s.setStk l).nleaf = s.nleaf := rfl
@[simp] theorem State.setStk_nnode (l : List Frame) : (s.setStk l).nnode = s.nnode := rfl
@[simp] theorem State.setStk_root (l : List Frame) : (s.setStk l).root = s.root := rfl
@[simp] theorem State.setStk_node (l : List Frame) : (s.setStk l).node = s.node := rfl
@[simp] theorem State.setStk_lut (l : List Frame) : (s.setStk l).lut = s.lut := rfl
@[simp] theorem State.setStk_mem (l : List Frame) : (s.setStk l).mem = s.mem := rfl
@[simp] theorem State.setStk_seq (l : List Frame) : (s.setStk l).seq = { s.seq with stk := l } := rfl
@[simp] theorem State.setStk_host (l : List Frame) : (s.setStk l).host = s.host := rfl
@[simp] theorem State.setStk_lastRead (l : List Frame) : (s.setStk l).lastRead = s.lastRead := rfl
@[simp] theorem State.setStk_freeCount (l : List Frame) : (s.setStk l).freeCount = s.freeCount := rfl

/-! ### setPq -/

@[simp] theorem State.setPq_params (l : List NodeIdx) : (s.setPq l).params = s.params := rfl
@[simp] theorem State.setPq_inLen (l : List NodeIdx) : (s.setPq l).inLen = s.inLen := rfl
@[simp] theorem State.setPq_outLen (l : List NodeIdx) : (s.setPq l).outLen = s.outLen := rfl
@[simp] theorem State.setPq_total (l : List NodeIdx) : (s.setPq l).total = s.total := rfl
@[simp] theorem State.setPq_extLen (l : List NodeIdx) : (s.setPq l).extLen = s.extLen := rfl
@[simp] theorem State.setPq_freq (l : List NodeIdx) : (s.setPq l).freq = s.freq := rfl
@[simp] theorem State.setPq_busy (l : List NodeIdx) : (s.setPq l).busy = s.busy := rfl
@[simp] theorem State.setPq_done (l : List NodeIdx) : (s.setPq l).done = s.done := rfl
@[simp] theorem State.setPq_err (l : List NodeIdx) : (s.setPq l).err = s.err := rfl
@[simp] theorem State.setPq_treeValid (l : List NodeIdx) : (s.setPq l).treeValid = s.treeValid := rfl
@[simp] theorem State.setPq_lutValid (l : List NodeIdx) : (s.setPq l).lutValid = s.lutValid := rfl
@[simp] theorem State.setPq_errCode (l : List NodeIdx) : (s.setPq l).errCode = s.errCode := rfl
@[simp] theorem State.setPq_nleaf (l : List NodeIdx) : (s.setPq l).nleaf = s.nleaf := rfl
@[simp] theorem State.setPq_nnode (l : List NodeIdx) : (s.setPq l).nnode = s.nnode := rfl
@[simp] theorem State.setPq_root (l : List NodeIdx) : (s.setPq l).root = s.root := rfl
@[simp] theorem State.setPq_node (l : List NodeIdx) : (s.setPq l).node = s.node := rfl
@[simp] theorem State.setPq_lut (l : List NodeIdx) : (s.setPq l).lut = s.lut := rfl
@[simp] theorem State.setPq_mem (l : List NodeIdx) : (s.setPq l).mem = s.mem := rfl
@[simp] theorem State.setPq_seq (l : List NodeIdx) : (s.setPq l).seq = { s.seq with pq := l } := rfl
@[simp] theorem State.setPq_host (l : List NodeIdx) : (s.setPq l).host = s.host := rfl
@[simp] theorem State.setPq_lastRead (l : List NodeIdx) : (s.setPq l).lastRead = s.lastRead := rfl
@[simp] theorem State.setPq_freeCount (l : List NodeIdx) : (s.setPq l).freeCount = s.freeCount := rfl

/-! ### setOutLen -/

@[simp] theorem State.setOutLen_params : (s.setOutLen).params = s.params := rfl
@[simp] theorem State.setOutLen_inLen : (s.setOutLen).inLen = s.inLen := rfl
@[simp] theorem State.setOutLen_outLen : (s.setOutLen).outLen = BitVec.ofNat 32 s.seq.opos := rfl
@[simp] theorem State.setOutLen_total : (s.setOutLen).total = s.total := rfl
@[simp] theorem State.setOutLen_extLen : (s.setOutLen).extLen = s.extLen := rfl
@[simp] theorem State.setOutLen_freq : (s.setOutLen).freq = s.freq := rfl
@[simp] theorem State.setOutLen_busy : (s.setOutLen).busy = s.busy := rfl
@[simp] theorem State.setOutLen_done : (s.setOutLen).done = s.done := rfl
@[simp] theorem State.setOutLen_err : (s.setOutLen).err = s.err := rfl
@[simp] theorem State.setOutLen_treeValid : (s.setOutLen).treeValid = s.treeValid := rfl
@[simp] theorem State.setOutLen_lutValid : (s.setOutLen).lutValid = s.lutValid := rfl
@[simp] theorem State.setOutLen_errCode : (s.setOutLen).errCode = s.errCode := rfl
@[simp] theorem State.setOutLen_nleaf : (s.setOutLen).nleaf = s.nleaf := rfl
@[simp] theorem State.setOutLen_nnode : (s.setOutLen).nnode = s.nnode := rfl
@[simp] theorem State.setOutLen_root : (s.setOutLen).root = s.root := rfl
@[simp] theorem State.setOutLen_node : (s.setOutLen).node = s.node := rfl
@[simp] theorem State.setOutLen_lut : (s.setOutLen).lut = s.lut := rfl
@[simp] theorem State.setOutLen_mem : (s.setOutLen).mem = s.mem := rfl
@[simp] theorem State.setOutLen_seq : (s.setOutLen).seq = s.seq := rfl
@[simp] theorem State.setOutLen_host : (s.setOutLen).host = s.host := rfl
@[simp] theorem State.setOutLen_lastRead : (s.setOutLen).lastRead = s.lastRead := rfl
@[simp] theorem State.setOutLen_freeCount : (s.setOutLen).freeCount = s.freeCount := rfl

/-! ### memWrite -/

@[simp] theorem State.memWrite_params (sp : Space) (a : Nat) (b : Byte) : (s.memWrite sp a b).params = s.params := rfl
@[simp] theorem State.memWrite_inLen (sp : Space) (a : Nat) (b : Byte) : (s.memWrite sp a b).inLen = s.inLen := rfl
@[simp] theorem State.memWrite_outLen (sp : Space) (a : Nat) (b : Byte) : (s.memWrite sp a b).outLen = s.outLen := rfl
@[simp] theorem State.memWrite_total (sp : Space) (a : Nat) (b : Byte) : (s.memWrite sp a b).total = s.total := rfl
@[simp] theorem State.memWrite_extLen (sp : Space) (a : Nat) (b : Byte) : (s.memWrite sp a b).extLen = s.extLen := rfl
@[simp] theorem State.memWrite_freq (sp : Space) (a : Nat) (b : Byte) : (s.memWrite sp a b).freq = s.freq := rfl
@[simp] theorem State.memWrite_busy (sp : Space) (a : Nat) (b : Byte) : (s.memWrite sp a b).busy = s.busy := rfl
@[simp] theorem State.memWrite_done (sp : Space) (a : Nat) (b : Byte) : (s.memWrite sp a b).done = s.done := rfl
@[simp] theorem State.memWrite_err (sp : Space) (a : Nat) (b : Byte) : (s.memWrite sp a b).err = s.err := rfl
@[simp] theorem State.memWrite_treeValid (sp : Space) (a : Nat) (b : Byte) : (s.memWrite sp a b).treeValid = s.treeValid := rfl
@[simp] theorem State.memWrite_lutValid (sp : Space) (a : Nat) (b : Byte) : (s.memWrite sp a b).lutValid = s.lutValid := rfl
@[simp] theorem State.memWrite_errCode (sp : Space) (a : Nat) (b : Byte) : (s.memWrite sp a b).errCode = s.errCode := rfl
@[simp] theorem State.memWrite_nleaf (sp : Space) (a : Nat) (b : Byte) : (s.memWrite sp a b).nleaf = s.nleaf := rfl
@[simp] theorem State.memWrite_nnode (sp : Space) (a : Nat) (b : Byte) : (s.memWrite sp a b).nnode = s.nnode := rfl
@[simp] theorem State.memWrite_root (sp : Space) (a : Nat) (b : Byte) : (s.memWrite sp a b).root = s.root := rfl
@[simp] theorem State.memWrite_node (sp : Space) (a : Nat) (b : Byte) : (s.memWrite sp a b).node = s.node := rfl
@[simp] theorem State.memWrite_lut (sp : Space) (a : Nat) (b : Byte) : (s.memWrite sp a b).lut = s.lut := rfl
@[simp] theorem State.memWrite_mem (sp : Space) (a : Nat) (b : Byte) : (s.memWrite sp a b).mem = s.mem.writeByte sp a b := rfl
@[simp] theorem State.memWrite_seq (sp : Space) (a : Nat) (b : Byte) : (s.memWrite sp a b).seq = s.seq := rfl
@[simp] theorem State.memWrite_host (sp : Space) (a : Nat) (b : Byte) : (s.memWrite sp a b).host = s.host := rfl
@[simp] theorem State.memWrite_lastRead (sp : Space) (a : Nat) (b : Byte) : (s.memWrite sp a b).lastRead = s.lastRead := rfl
@[simp] theorem State.memWrite_freeCount (sp : Space) (a : Nat) (b : Byte) : (s.memWrite sp a b).freeCount = s.freeCount := rfl

/-! ### forgetSpace -/

@[simp] theorem State.forgetSpace_params (sp : Space) : (s.forgetSpace sp).params = s.params := rfl
@[simp] theorem State.forgetSpace_inLen (sp : Space) : (s.forgetSpace sp).inLen = s.inLen := rfl
@[simp] theorem State.forgetSpace_outLen (sp : Space) : (s.forgetSpace sp).outLen = s.outLen := rfl
@[simp] theorem State.forgetSpace_total (sp : Space) : (s.forgetSpace sp).total = s.total := rfl
@[simp] theorem State.forgetSpace_extLen (sp : Space) : (s.forgetSpace sp).extLen = s.extLen := rfl
@[simp] theorem State.forgetSpace_freq (sp : Space) : (s.forgetSpace sp).freq = s.freq := rfl
@[simp] theorem State.forgetSpace_busy (sp : Space) : (s.forgetSpace sp).busy = s.busy := rfl
@[simp] theorem State.forgetSpace_done (sp : Space) : (s.forgetSpace sp).done = s.done := rfl
@[simp] theorem State.forgetSpace_err (sp : Space) : (s.forgetSpace sp).err = s.err := rfl
@[simp] theorem State.forgetSpace_treeValid (sp : Space) : (s.forgetSpace sp).treeValid = s.treeValid := rfl
@[simp] theorem State.forgetSpace_lutValid (sp : Space) : (s.forgetSpace sp).lutValid = s.lutValid := rfl
@[simp] theorem State.forgetSpace_errCode (sp : Space) : (s.forgetSpace sp).errCode = s.errCode := rfl
@[simp] theorem State.forgetSpace_nleaf (sp : Space) : (s.forgetSpace sp).nleaf = s.nleaf := rfl
@[simp] theorem State.forgetSpace_nnode (sp : Space) : (s.forgetSpace sp).nnode = s.nnode := rfl
@[simp] theorem State.forgetSpace_root (sp : Space) : (s.forgetSpace sp).root = s.root := rfl
@[simp] theorem State.forgetSpace_node (sp : Space) : (s.forgetSpace sp).node = s.node := rfl
@[simp] theorem State.forgetSpace_lut (sp : Space) : (s.forgetSpace sp).lut = s.lut := rfl
@[simp] theorem State.forgetSpace_mem (sp : Space) : (s.forgetSpace sp).mem = s.mem.forget sp := rfl
@[simp] theorem State.forgetSpace_seq (sp : Space) : (s.forgetSpace sp).seq = s.seq := rfl
@[simp] theorem State.forgetSpace_host (sp : Space) : (s.forgetSpace sp).host = s.host := rfl
@[simp] theorem State.forgetSpace_lastRead (sp : Space) : (s.forgetSpace sp).lastRead = s.lastRead := rfl
@[simp] theorem State.forgetSpace_freeCount (sp : Space) : (s.forgetSpace sp).freeCount = s.freeCount := rfl

/-! ### nodeWrite -/

@[simp] theorem State.nodeWrite_params (i : NodeIdx) (r : NodeRec) : (s.nodeWrite i r).params = s.params := rfl
@[simp] theorem State.nodeWrite_inLen (i : NodeIdx) (r : NodeRec) : (s.nodeWrite i r).inLen = s.inLen := rfl
@[simp] theorem State.nodeWrite_outLen (i : NodeIdx) (r : NodeRec) : (s.nodeWrite i r).outLen = s.outLen := rfl
@[simp] theorem State.nodeWrite_total (i : NodeIdx) (r : NodeRec) : (s.nodeWrite i r).total = s.total := rfl
@[simp] theorem State.nodeWrite_extLen (i : NodeIdx) (r : NodeRec) : (s.nodeWrite i r).extLen = s.extLen := rfl
@[simp] theorem State.nodeWrite_freq (i : NodeIdx) (r : NodeRec) : (s.nodeWrite i r).freq = s.freq := rfl
@[simp] theorem State.nodeWrite_busy (i : NodeIdx) (r : NodeRec) : (s.nodeWrite i r).busy = s.busy := rfl
@[simp] theorem State.nodeWrite_done (i : NodeIdx) (r : NodeRec) : (s.nodeWrite i r).done = s.done := rfl
@[simp] theorem State.nodeWrite_err (i : NodeIdx) (r : NodeRec) : (s.nodeWrite i r).err = s.err := rfl
@[simp] theorem State.nodeWrite_treeValid (i : NodeIdx) (r : NodeRec) : (s.nodeWrite i r).treeValid = s.treeValid := rfl
@[simp] theorem State.nodeWrite_lutValid (i : NodeIdx) (r : NodeRec) : (s.nodeWrite i r).lutValid = s.lutValid := rfl
@[simp] theorem State.nodeWrite_errCode (i : NodeIdx) (r : NodeRec) : (s.nodeWrite i r).errCode = s.errCode := rfl
@[simp] theorem State.nodeWrite_nleaf (i : NodeIdx) (r : NodeRec) : (s.nodeWrite i r).nleaf = s.nleaf := rfl
@[simp] theorem State.nodeWrite_nnode (i : NodeIdx) (r : NodeRec) : (s.nodeWrite i r).nnode = s.nnode := rfl
@[simp] theorem State.nodeWrite_root (i : NodeIdx) (r : NodeRec) : (s.nodeWrite i r).root = s.root := rfl
@[simp] theorem State.nodeWrite_node (i : NodeIdx) (r : NodeRec) : (s.nodeWrite i r).node = s.node.write i.toNat r := rfl
@[simp] theorem State.nodeWrite_lut (i : NodeIdx) (r : NodeRec) : (s.nodeWrite i r).lut = s.lut := rfl
@[simp] theorem State.nodeWrite_mem (i : NodeIdx) (r : NodeRec) : (s.nodeWrite i r).mem = s.mem := rfl
@[simp] theorem State.nodeWrite_seq (i : NodeIdx) (r : NodeRec) : (s.nodeWrite i r).seq = s.seq := rfl
@[simp] theorem State.nodeWrite_host (i : NodeIdx) (r : NodeRec) : (s.nodeWrite i r).host = s.host := rfl
@[simp] theorem State.nodeWrite_lastRead (i : NodeIdx) (r : NodeRec) : (s.nodeWrite i r).lastRead = s.lastRead := rfl
@[simp] theorem State.nodeWrite_freeCount (i : NodeIdx) (r : NodeRec) : (s.nodeWrite i r).freeCount = s.freeCount := rfl

/-! ### lutWrite -/

@[simp] theorem State.lutWrite_params (sym : Byte) (e : LutEntry) : (s.lutWrite sym e).params = s.params := rfl
@[simp] theorem State.lutWrite_inLen (sym : Byte) (e : LutEntry) : (s.lutWrite sym e).inLen = s.inLen := rfl
@[simp] theorem State.lutWrite_outLen (sym : Byte) (e : LutEntry) : (s.lutWrite sym e).outLen = s.outLen := rfl
@[simp] theorem State.lutWrite_total (sym : Byte) (e : LutEntry) : (s.lutWrite sym e).total = s.total := rfl
@[simp] theorem State.lutWrite_extLen (sym : Byte) (e : LutEntry) : (s.lutWrite sym e).extLen = s.extLen := rfl
@[simp] theorem State.lutWrite_freq (sym : Byte) (e : LutEntry) : (s.lutWrite sym e).freq = s.freq := rfl
@[simp] theorem State.lutWrite_busy (sym : Byte) (e : LutEntry) : (s.lutWrite sym e).busy = s.busy := rfl
@[simp] theorem State.lutWrite_done (sym : Byte) (e : LutEntry) : (s.lutWrite sym e).done = s.done := rfl
@[simp] theorem State.lutWrite_err (sym : Byte) (e : LutEntry) : (s.lutWrite sym e).err = s.err := rfl
@[simp] theorem State.lutWrite_treeValid (sym : Byte) (e : LutEntry) : (s.lutWrite sym e).treeValid = s.treeValid := rfl
@[simp] theorem State.lutWrite_lutValid (sym : Byte) (e : LutEntry) : (s.lutWrite sym e).lutValid = s.lutValid := rfl
@[simp] theorem State.lutWrite_errCode (sym : Byte) (e : LutEntry) : (s.lutWrite sym e).errCode = s.errCode := rfl
@[simp] theorem State.lutWrite_nleaf (sym : Byte) (e : LutEntry) : (s.lutWrite sym e).nleaf = s.nleaf := rfl
@[simp] theorem State.lutWrite_nnode (sym : Byte) (e : LutEntry) : (s.lutWrite sym e).nnode = s.nnode := rfl
@[simp] theorem State.lutWrite_root (sym : Byte) (e : LutEntry) : (s.lutWrite sym e).root = s.root := rfl
@[simp] theorem State.lutWrite_node (sym : Byte) (e : LutEntry) : (s.lutWrite sym e).node = s.node := rfl
@[simp] theorem State.lutWrite_lut (sym : Byte) (e : LutEntry) : (s.lutWrite sym e).lut = s.lut.write sym.toNat e := rfl
@[simp] theorem State.lutWrite_mem (sym : Byte) (e : LutEntry) : (s.lutWrite sym e).mem = s.mem := rfl
@[simp] theorem State.lutWrite_seq (sym : Byte) (e : LutEntry) : (s.lutWrite sym e).seq = s.seq := rfl
@[simp] theorem State.lutWrite_host (sym : Byte) (e : LutEntry) : (s.lutWrite sym e).host = s.host := rfl
@[simp] theorem State.lutWrite_lastRead (sym : Byte) (e : LutEntry) : (s.lutWrite sym e).lastRead = s.lastRead := rfl
@[simp] theorem State.lutWrite_freeCount (sym : Byte) (e : LutEntry) : (s.lutWrite sym e).freeCount = s.freeCount := rfl

/-! ### clearTotal -/

@[simp] theorem State.clearTotal_params : (s.clearTotal).params = s.params := rfl
@[simp] theorem State.clearTotal_inLen : (s.clearTotal).inLen = s.inLen := rfl
@[simp] theorem State.clearTotal_outLen : (s.clearTotal).outLen = s.outLen := rfl
@[simp] theorem State.clearTotal_total : (s.clearTotal).total = 0 := rfl
@[simp] theorem State.clearTotal_extLen : (s.clearTotal).extLen = s.extLen := rfl
@[simp] theorem State.clearTotal_freq : (s.clearTotal).freq = s.freq := rfl
@[simp] theorem State.clearTotal_busy : (s.clearTotal).busy = s.busy := rfl
@[simp] theorem State.clearTotal_done : (s.clearTotal).done = s.done := rfl
@[simp] theorem State.clearTotal_err : (s.clearTotal).err = s.err := rfl
@[simp] theorem State.clearTotal_treeValid : (s.clearTotal).treeValid = s.treeValid := rfl
@[simp] theorem State.clearTotal_lutValid : (s.clearTotal).lutValid = s.lutValid := rfl
@[simp] theorem State.clearTotal_errCode : (s.clearTotal).errCode = s.errCode := rfl
@[simp] theorem State.clearTotal_nleaf : (s.clearTotal).nleaf = s.nleaf := rfl
@[simp] theorem State.clearTotal_nnode : (s.clearTotal).nnode = s.nnode := rfl
@[simp] theorem State.clearTotal_root : (s.clearTotal).root = s.root := rfl
@[simp] theorem State.clearTotal_node : (s.clearTotal).node = s.node := rfl
@[simp] theorem State.clearTotal_lut : (s.clearTotal).lut = s.lut := rfl
@[simp] theorem State.clearTotal_mem : (s.clearTotal).mem = s.mem := rfl
@[simp] theorem State.clearTotal_seq : (s.clearTotal).seq = s.seq := rfl
@[simp] theorem State.clearTotal_host : (s.clearTotal).host = s.host := rfl
@[simp] theorem State.clearTotal_lastRead : (s.clearTotal).lastRead = s.lastRead := rfl
@[simp] theorem State.clearTotal_freeCount : (s.clearTotal).freeCount = s.freeCount := rfl

/-! ### invalidateTree -/

@[simp] theorem State.invalidateTree_params : (s.invalidateTree).params = s.params := rfl
@[simp] theorem State.invalidateTree_inLen : (s.invalidateTree).inLen = s.inLen := rfl
@[simp] theorem State.invalidateTree_outLen : (s.invalidateTree).outLen = s.outLen := rfl
@[simp] theorem State.invalidateTree_total : (s.invalidateTree).total = s.total := rfl
@[simp] theorem State.invalidateTree_extLen : (s.invalidateTree).extLen = s.extLen := rfl
@[simp] theorem State.invalidateTree_freq : (s.invalidateTree).freq = s.freq := rfl
@[simp] theorem State.invalidateTree_busy : (s.invalidateTree).busy = s.busy := rfl
@[simp] theorem State.invalidateTree_done : (s.invalidateTree).done = s.done := rfl
@[simp] theorem State.invalidateTree_err : (s.invalidateTree).err = s.err := rfl
@[simp] theorem State.invalidateTree_treeValid : (s.invalidateTree).treeValid = false := rfl
@[simp] theorem State.invalidateTree_lutValid : (s.invalidateTree).lutValid = false := rfl
@[simp] theorem State.invalidateTree_errCode : (s.invalidateTree).errCode = s.errCode := rfl
@[simp] theorem State.invalidateTree_nleaf : (s.invalidateTree).nleaf = 0 := rfl
@[simp] theorem State.invalidateTree_nnode : (s.invalidateTree).nnode = 0 := rfl
@[simp] theorem State.invalidateTree_root : (s.invalidateTree).root = 0 := rfl
@[simp] theorem State.invalidateTree_node : (s.invalidateTree).node = s.node.forget := rfl
@[simp] theorem State.invalidateTree_lut : (s.invalidateTree).lut = s.lut.forget := rfl
@[simp] theorem State.invalidateTree_mem : (s.invalidateTree).mem = s.mem := rfl
@[simp] theorem State.invalidateTree_seq : (s.invalidateTree).seq = s.seq := rfl
@[simp] theorem State.invalidateTree_host : (s.invalidateTree).host = s.host := rfl
@[simp] theorem State.invalidateTree_lastRead : (s.invalidateTree).lastRead = s.lastRead := rfl
@[simp] theorem State.invalidateTree_freeCount : (s.invalidateTree).freeCount = s.freeCount := rfl

/-! ### cleanTables -/

@[simp] theorem State.cleanTables_params : (s.cleanTables).params = s.params := rfl
@[simp] theorem State.cleanTables_inLen : (s.cleanTables).inLen = s.inLen := rfl
@[simp] theorem State.cleanTables_outLen : (s.cleanTables).outLen = s.outLen := rfl
@[simp] theorem State.cleanTables_total : (s.cleanTables).total = s.total := rfl
@[simp] theorem State.cleanTables_extLen : (s.cleanTables).extLen = s.extLen := rfl
@[simp] theorem State.cleanTables_freq : (s.cleanTables).freq = Vector.replicate 256 0 := rfl
@[simp] theorem State.cleanTables_busy : (s.cleanTables).busy = s.busy := rfl
@[simp] theorem State.cleanTables_done : (s.cleanTables).done = s.done := rfl
@[simp] theorem State.cleanTables_err : (s.cleanTables).err = s.err := rfl
@[simp] theorem State.cleanTables_treeValid : (s.cleanTables).treeValid = false := rfl
@[simp] theorem State.cleanTables_lutValid : (s.cleanTables).lutValid = false := rfl
@[simp] theorem State.cleanTables_errCode : (s.cleanTables).errCode = s.errCode := rfl
@[simp] theorem State.cleanTables_nleaf : (s.cleanTables).nleaf = 0 := rfl
@[simp] theorem State.cleanTables_nnode : (s.cleanTables).nnode = 0 := rfl
@[simp] theorem State.cleanTables_root : (s.cleanTables).root = 0 := rfl
@[simp] theorem State.cleanTables_node : (s.cleanTables).node = s.node.forget := rfl
@[simp] theorem State.cleanTables_lut : (s.cleanTables).lut = s.lut.forget := rfl
@[simp] theorem State.cleanTables_mem : (s.cleanTables).mem = s.mem := rfl
@[simp] theorem State.cleanTables_seq : (s.cleanTables).seq = s.seq := rfl
@[simp] theorem State.cleanTables_host : (s.cleanTables).host = s.host := rfl
@[simp] theorem State.cleanTables_lastRead : (s.cleanTables).lastRead = s.lastRead := rfl
@[simp] theorem State.cleanTables_freeCount : (s.cleanTables).freeCount = s.freeCount := rfl

/-! ### commandStart -/

@[simp] theorem State.commandStart_params : (s.commandStart).params = s.params := rfl
@[simp] theorem State.commandStart_inLen : (s.commandStart).inLen = s.inLen := rfl
@[simp] theorem State.commandStart_outLen : (s.commandStart).outLen = s.outLen := rfl
@[simp] theorem State.commandStart_total : (s.commandStart).total = s.total := rfl
@[simp] theorem State.commandStart_extLen : (s.commandStart).extLen = s.extLen := rfl
@[simp] theorem State.commandStart_freq : (s.commandStart).freq = s.freq := rfl
@[simp] theorem State.commandStart_busy : (s.commandStart).busy = true := rfl
@[simp] theorem State.commandStart_done : (s.commandStart).done = false := rfl
@[simp] theorem State.commandStart_err : (s.commandStart).err = false := rfl
@[simp] theorem State.commandStart_treeValid : (s.commandStart).treeValid = s.treeValid := rfl
@[simp] theorem State.commandStart_lutValid : (s.commandStart).lutValid = s.lutValid := rfl
@[simp] theorem State.commandStart_errCode : (s.commandStart).errCode = 0 := rfl
@[simp] theorem State.commandStart_nleaf : (s.commandStart).nleaf = s.nleaf := rfl
@[simp] theorem State.commandStart_nnode : (s.commandStart).nnode = s.nnode := rfl
@[simp] theorem State.commandStart_root : (s.commandStart).root = s.root := rfl
@[simp] theorem State.commandStart_node : (s.commandStart).node = s.node := rfl
@[simp] theorem State.commandStart_lut : (s.commandStart).lut = s.lut := rfl
@[simp] theorem State.commandStart_mem : (s.commandStart).mem = s.mem := rfl
@[simp] theorem State.commandStart_seq : (s.commandStart).seq = s.seq := rfl
@[simp] theorem State.commandStart_host : (s.commandStart).host = s.host := rfl
@[simp] theorem State.commandStart_lastRead : (s.commandStart).lastRead = s.lastRead := rfl
@[simp] theorem State.commandStart_freeCount : (s.commandStart).freeCount = s.freeCount := rfl

/-! ### successExit -/

@[simp] theorem State.successExit_params : (s.successExit).params = s.params := rfl
@[simp] theorem State.successExit_inLen : (s.successExit).inLen = s.inLen := rfl
@[simp] theorem State.successExit_outLen : (s.successExit).outLen = s.outLen := rfl
@[simp] theorem State.successExit_total : (s.successExit).total = s.total := rfl
@[simp] theorem State.successExit_extLen : (s.successExit).extLen = s.extLen := rfl
@[simp] theorem State.successExit_freq : (s.successExit).freq = s.freq := rfl
@[simp] theorem State.successExit_busy : (s.successExit).busy = false := rfl
@[simp] theorem State.successExit_done : (s.successExit).done = true := rfl
@[simp] theorem State.successExit_err : (s.successExit).err = s.err := rfl
@[simp] theorem State.successExit_treeValid : (s.successExit).treeValid = s.treeValid := rfl
@[simp] theorem State.successExit_lutValid : (s.successExit).lutValid = s.lutValid := rfl
@[simp] theorem State.successExit_errCode : (s.successExit).errCode = s.errCode := rfl
@[simp] theorem State.successExit_nleaf : (s.successExit).nleaf = s.nleaf := rfl
@[simp] theorem State.successExit_nnode : (s.successExit).nnode = s.nnode := rfl
@[simp] theorem State.successExit_root : (s.successExit).root = s.root := rfl
@[simp] theorem State.successExit_node : (s.successExit).node = s.node := rfl
@[simp] theorem State.successExit_lut : (s.successExit).lut = s.lut := rfl
@[simp] theorem State.successExit_mem : (s.successExit).mem = s.mem := rfl
@[simp] theorem State.successExit_seq : (s.successExit).seq = Seq.idle := rfl
@[simp] theorem State.successExit_host : (s.successExit).host = s.host := rfl
@[simp] theorem State.successExit_lastRead : (s.successExit).lastRead = s.lastRead := rfl
@[simp] theorem State.successExit_freeCount : (s.successExit).freeCount = s.freeCount := rfl

/-! ### errorExit -/

@[simp] theorem State.errorExit_params (e : ErrKind) : (s.errorExit e).params = s.params := rfl
@[simp] theorem State.errorExit_inLen (e : ErrKind) : (s.errorExit e).inLen = s.inLen := rfl
@[simp] theorem State.errorExit_outLen (e : ErrKind) : (s.errorExit e).outLen = 0 := rfl
@[simp] theorem State.errorExit_total (e : ErrKind) : (s.errorExit e).total = s.total := rfl
@[simp] theorem State.errorExit_extLen (e : ErrKind) : (s.errorExit e).extLen = s.extLen := rfl
@[simp] theorem State.errorExit_freq (e : ErrKind) : (s.errorExit e).freq = s.freq := rfl
@[simp] theorem State.errorExit_busy (e : ErrKind) : (s.errorExit e).busy = false := rfl
@[simp] theorem State.errorExit_done (e : ErrKind) : (s.errorExit e).done = true := rfl
@[simp] theorem State.errorExit_err (e : ErrKind) : (s.errorExit e).err = true := rfl
@[simp] theorem State.errorExit_treeValid (e : ErrKind) : (s.errorExit e).treeValid = s.treeValid := rfl
@[simp] theorem State.errorExit_lutValid (e : ErrKind) : (s.errorExit e).lutValid = s.lutValid := rfl
@[simp] theorem State.errorExit_errCode (e : ErrKind) : (s.errorExit e).errCode = errCodeOf e := rfl
@[simp] theorem State.errorExit_nleaf (e : ErrKind) : (s.errorExit e).nleaf = s.nleaf := rfl
@[simp] theorem State.errorExit_nnode (e : ErrKind) : (s.errorExit e).nnode = s.nnode := rfl
@[simp] theorem State.errorExit_root (e : ErrKind) : (s.errorExit e).root = s.root := rfl
@[simp] theorem State.errorExit_node (e : ErrKind) : (s.errorExit e).node = s.node := rfl
@[simp] theorem State.errorExit_lut (e : ErrKind) : (s.errorExit e).lut = s.lut := rfl
@[simp] theorem State.errorExit_mem (e : ErrKind) : (s.errorExit e).mem = s.mem := rfl
@[simp] theorem State.errorExit_seq (e : ErrKind) : (s.errorExit e).seq = Seq.idle := rfl
@[simp] theorem State.errorExit_host (e : ErrKind) : (s.errorExit e).host = s.host := rfl
@[simp] theorem State.errorExit_lastRead (e : ErrKind) : (s.errorExit e).lastRead = s.lastRead := rfl
@[simp] theorem State.errorExit_freeCount (e : ErrKind) : (s.errorExit e).freeCount = s.freeCount := rfl

/-! ### deliver -/

@[simp] theorem State.deliver_params (d : HostDatum) : (s.deliver d).params = s.params := rfl
@[simp] theorem State.deliver_inLen (d : HostDatum) : (s.deliver d).inLen = s.inLen := rfl
@[simp] theorem State.deliver_outLen (d : HostDatum) : (s.deliver d).outLen = s.outLen := rfl
@[simp] theorem State.deliver_total (d : HostDatum) : (s.deliver d).total = s.total := rfl
@[simp] theorem State.deliver_extLen (d : HostDatum) : (s.deliver d).extLen = s.extLen := rfl
@[simp] theorem State.deliver_freq (d : HostDatum) : (s.deliver d).freq = s.freq := rfl
@[simp] theorem State.deliver_busy (d : HostDatum) : (s.deliver d).busy = s.busy := rfl
@[simp] theorem State.deliver_done (d : HostDatum) : (s.deliver d).done = s.done := rfl
@[simp] theorem State.deliver_err (d : HostDatum) : (s.deliver d).err = s.err := rfl
@[simp] theorem State.deliver_treeValid (d : HostDatum) : (s.deliver d).treeValid = s.treeValid := rfl
@[simp] theorem State.deliver_lutValid (d : HostDatum) : (s.deliver d).lutValid = s.lutValid := rfl
@[simp] theorem State.deliver_errCode (d : HostDatum) : (s.deliver d).errCode = s.errCode := rfl
@[simp] theorem State.deliver_nleaf (d : HostDatum) : (s.deliver d).nleaf = s.nleaf := rfl
@[simp] theorem State.deliver_nnode (d : HostDatum) : (s.deliver d).nnode = s.nnode := rfl
@[simp] theorem State.deliver_root (d : HostDatum) : (s.deliver d).root = s.root := rfl
@[simp] theorem State.deliver_node (d : HostDatum) : (s.deliver d).node = s.node := rfl
@[simp] theorem State.deliver_lut (d : HostDatum) : (s.deliver d).lut = s.lut := rfl
@[simp] theorem State.deliver_mem (d : HostDatum) : (s.deliver d).mem = s.mem := rfl
@[simp] theorem State.deliver_seq (d : HostDatum) : (s.deliver d).seq = s.seq := rfl
@[simp] theorem State.deliver_host (d : HostDatum) : (s.deliver d).host = s.host := rfl
@[simp] theorem State.deliver_lastRead (d : HostDatum) : (s.deliver d).lastRead = some d := rfl
@[simp] theorem State.deliver_freeCount (d : HostDatum) : (s.deliver d).freeCount = s.freeCount := rfl

/-! ### clearExtLen -/

@[simp] theorem State.clearExtLen_params : (s.clearExtLen).params = s.params := rfl
@[simp] theorem State.clearExtLen_inLen : (s.clearExtLen).inLen = s.inLen := rfl
@[simp] theorem State.clearExtLen_outLen : (s.clearExtLen).outLen = s.outLen := rfl
@[simp] theorem State.clearExtLen_total : (s.clearExtLen).total = s.total := rfl
@[simp] theorem State.clearExtLen_extLen : (s.clearExtLen).extLen = 0 := rfl
@[simp] theorem State.clearExtLen_freq : (s.clearExtLen).freq = s.freq := rfl
@[simp] theorem State.clearExtLen_busy : (s.clearExtLen).busy = s.busy := rfl
@[simp] theorem State.clearExtLen_done : (s.clearExtLen).done = s.done := rfl
@[simp] theorem State.clearExtLen_err : (s.clearExtLen).err = s.err := rfl
@[simp] theorem State.clearExtLen_treeValid : (s.clearExtLen).treeValid = s.treeValid := rfl
@[simp] theorem State.clearExtLen_lutValid : (s.clearExtLen).lutValid = s.lutValid := rfl
@[simp] theorem State.clearExtLen_errCode : (s.clearExtLen).errCode = s.errCode := rfl
@[simp] theorem State.clearExtLen_nleaf : (s.clearExtLen).nleaf = s.nleaf := rfl
@[simp] theorem State.clearExtLen_nnode : (s.clearExtLen).nnode = s.nnode := rfl
@[simp] theorem State.clearExtLen_root : (s.clearExtLen).root = s.root := rfl
@[simp] theorem State.clearExtLen_node : (s.clearExtLen).node = s.node := rfl
@[simp] theorem State.clearExtLen_lut : (s.clearExtLen).lut = s.lut := rfl
@[simp] theorem State.clearExtLen_mem : (s.clearExtLen).mem = s.mem := rfl
@[simp] theorem State.clearExtLen_seq : (s.clearExtLen).seq = s.seq := rfl
@[simp] theorem State.clearExtLen_host : (s.clearExtLen).host = s.host := rfl
@[simp] theorem State.clearExtLen_lastRead : (s.clearExtLen).lastRead = s.lastRead := rfl
@[simp] theorem State.clearExtLen_freeCount : (s.clearExtLen).freeCount = s.freeCount := rfl

/-! ### forgetNode -/

@[simp] theorem State.forgetNode_params : (s.forgetNode).params = s.params := rfl
@[simp] theorem State.forgetNode_inLen : (s.forgetNode).inLen = s.inLen := rfl
@[simp] theorem State.forgetNode_outLen : (s.forgetNode).outLen = s.outLen := rfl
@[simp] theorem State.forgetNode_total : (s.forgetNode).total = s.total := rfl
@[simp] theorem State.forgetNode_extLen : (s.forgetNode).extLen = s.extLen := rfl
@[simp] theorem State.forgetNode_freq : (s.forgetNode).freq = s.freq := rfl
@[simp] theorem State.forgetNode_busy : (s.forgetNode).busy = s.busy := rfl
@[simp] theorem State.forgetNode_done : (s.forgetNode).done = s.done := rfl
@[simp] theorem State.forgetNode_err : (s.forgetNode).err = s.err := rfl
@[simp] theorem State.forgetNode_treeValid : (s.forgetNode).treeValid = s.treeValid := rfl
@[simp] theorem State.forgetNode_lutValid : (s.forgetNode).lutValid = s.lutValid := rfl
@[simp] theorem State.forgetNode_errCode : (s.forgetNode).errCode = s.errCode := rfl
@[simp] theorem State.forgetNode_nleaf : (s.forgetNode).nleaf = s.nleaf := rfl
@[simp] theorem State.forgetNode_nnode : (s.forgetNode).nnode = s.nnode := rfl
@[simp] theorem State.forgetNode_root : (s.forgetNode).root = s.root := rfl
@[simp] theorem State.forgetNode_node : (s.forgetNode).node = s.node.forget := rfl
@[simp] theorem State.forgetNode_lut : (s.forgetNode).lut = s.lut := rfl
@[simp] theorem State.forgetNode_mem : (s.forgetNode).mem = s.mem := rfl
@[simp] theorem State.forgetNode_seq : (s.forgetNode).seq = s.seq := rfl
@[simp] theorem State.forgetNode_host : (s.forgetNode).host = s.host := rfl
@[simp] theorem State.forgetNode_lastRead : (s.forgetNode).lastRead = s.lastRead := rfl
@[simp] theorem State.forgetNode_freeCount : (s.forgetNode).freeCount = s.freeCount := rfl

end Sys2Proof.Machine
end

