-- ==== Sys2Proof/Laws/Store.lean ====
section
/-! SUPPORT. The laws of the stores and of memory: a read after a write, other entries unchanged, and the canonical form
kept by every operation. -/

namespace Sys2Proof.Machine

variable {α : Type}

@[simp] theorem lookupCell_nil (a : Nat) : lookupCell a ([] : List (Nat × α)) = none := rfl

theorem lookupCell_insertCell_self (a : Nat) (v : α) (l : List (Nat × α)) :
    lookupCell a (insertCell a v l) = some v := by
  induction l with
  | nil => simp [insertCell, lookupCell]
  | cons c rest ih =>
    obtain ⟨k, w⟩ := c
    simp only [insertCell]
    split
    · simp [lookupCell]
    · split
      · simp [lookupCell]
      · rename_i h
        simp [lookupCell, Ne.symm h, ih]

theorem lookupCell_insertCell_other {a b : Nat} (h : b ≠ a) (v : α) (l : List (Nat × α)) :
    lookupCell b (insertCell a v l) = lookupCell b l := by
  induction l with
  | nil => simp [insertCell, lookupCell, Ne.symm h]
  | cons c rest ih =>
    obtain ⟨k, w⟩ := c
    simp only [insertCell]
    split
    · simp [lookupCell, Ne.symm h]
    · split
      · rename_i hk
        simp [lookupCell, Ne.symm h, ← hk]
      · simp [lookupCell, ih]

theorem risingFrom_mono {lo lo' : Nat} (h : lo' ≤ lo) {l : List (Nat × α)} (hl : risingFrom lo l = true) :
    risingFrom lo' l = true := by
  cases l with
  | nil => rfl
  | cons c rest =>
    simp only [risingFrom, Bool.and_eq_true, decide_eq_true_eq] at hl ⊢
    exact ⟨by omega, hl.2⟩

theorem risingFrom_insertCell {lo a : Nat} (ha : lo ≤ a) (v : α) {l : List (Nat × α)}
    (hl : risingFrom lo l = true) : risingFrom lo (insertCell a v l) = true := by
  induction l generalizing lo with
  | nil => simp [insertCell, risingFrom, ha]
  | cons c rest ih =>
    obtain ⟨k, w⟩ := c
    simp only [risingFrom, Bool.and_eq_true, decide_eq_true_eq] at hl
    simp only [insertCell]
    split
    · rename_i hak
      simp only [risingFrom, Bool.and_eq_true, decide_eq_true_eq]
      exact ⟨ha, by omega, hl.2⟩
    · split
      · rename_i hak
        subst hak
        simp only [risingFrom, Bool.and_eq_true, decide_eq_true_eq]
        exact ⟨ha, hl.2⟩
      · simp only [risingFrom, Bool.and_eq_true, decide_eq_true_eq]
        exact ⟨hl.1, ih (by omega) hl.2⟩

/-- Two lists in canonical form that list the same values are the same list. -/
theorem risingFrom_ext {lo : Nat} {l m : List (Nat × α)} (hl : risingFrom lo l = true) (hm : risingFrom lo m = true)
    (h : ∀ a, lookupCell a l = lookupCell a m) : l = m := by
  have none_below : ∀ {n : Nat} {k : List (Nat × α)}, risingFrom n k = true → ∀ a < n, lookupCell a k = none := by
    intro n k hk a ha
    induction k generalizing n with
    | nil => rfl
    | cons c rest ih =>
      simp only [risingFrom, Bool.and_eq_true, decide_eq_true_eq] at hk
      have : c.1 ≠ a := by omega
      simp only [lookupCell, this, if_false]
      exact ih hk.2 (by omega)
  induction l generalizing lo m with
  | nil =>
    cases m with
    | nil => rfl
    | cons c rest => have := h c.1; simp [lookupCell] at this
  | cons c rest ih =>
    cases m with
    | nil => have := h c.1; simp [lookupCell] at this
    | cons d rest' =>
      obtain ⟨k, v⟩ := c
      obtain ⟨k', v'⟩ := d
      simp only [risingFrom, Bool.and_eq_true, decide_eq_true_eq] at hl hm
      have hk : k = k' := by
        rcases Nat.lt_trichotomy k k' with hlt | heq | hgt
        · have h1 := h k
          rw [lookupCell, if_pos rfl, lookupCell, if_neg (by omega), none_below hm.2 k (by omega)] at h1
          cases h1
        · exact heq
        · have h1 := h k'
          rw [lookupCell, if_neg (by omega), none_below hl.2 k' (by omega), lookupCell, if_pos rfl] at h1
          cases h1
      subst hk
      have hv : v = v' := by
        have h1 := h k
        simpa [lookupCell] using h1
      subst hv
      have htail : rest = rest' := by
        refine ih hl.2 hm.2 fun a => ?_
        by_cases hak : k = a
        · subst hak
          rw [none_below hl.2 k (by omega), none_below hm.2 k (by omega)]
        · simpa [lookupCell, hak] using h a
      rw [htail]

/-! ### Stores -/

@[simp] theorem Store.get?_write_self (st : Store α) (a : Nat) (v : α) : (st.write a v).get? a = some v :=
  lookupCell_insertCell_self a v st.cells

theorem Store.get?_write_other (st : Store α) {a b : Nat} (h : b ≠ a) (v : α) :
    (st.write a v).get? b = st.get? b :=
  lookupCell_insertCell_other h v st.cells

@[simp] theorem Store.epoch_write (st : Store α) (a : Nat) (v : α) : (st.write a v).epoch = st.epoch := rfl

@[simp] theorem Store.get?_forget (st : Store α) (a : Nat) : st.forget.get? a = none := rfl

@[simp] theorem Store.get?_unspecified (a : Nat) : (Store.unspecified : Store α).get? a = none := rfl

@[simp] theorem Store.read_write_self (free : Nat → Nat → α) (st : Store α) (a : Nat) (v : α) :
    (st.write a v).read free a = v := by simp [Store.read]

theorem Store.read_write_other (free : Nat → Nat → α) (st : Store α) {a b : Nat} (h : b ≠ a) (v : α) :
    (st.write a v).read free b = st.read free b := by
  simp [Store.read, Store.get?_write_other st h]

theorem Store.read_of_get? (free : Nat → Nat → α) {st : Store α} {a : Nat} {v : α} (h : st.get? a = some v) :
    st.read free a = v := by simp [Store.read, h]

theorem Store.wf_write {st : Store α} (h : st.wf = true) (a : Nat) (v : α) : (st.write a v).wf = true :=
  risingFrom_insertCell (Nat.zero_le a) v h

@[simp] theorem Store.wf_forget (st : Store α) : st.forget.wf = true := rfl

@[simp] theorem Store.wf_unspecified : (Store.unspecified : Store α).wf = true := rfl

theorem Store.get?_fill (st : Store α) (n : Nat) (v : α) (a : Nat) :
    (st.fill n v).get? a = if a < n then some v else none := by
  have key : ∀ (l : List Nat), lookupCell a (l.map fun i => (i, v)) = if a ∈ l then some v else none := by
    intro l
    induction l with
    | nil => simp
    | cons k rest ih =>
      by_cases hk : k = a
      · simp [lookupCell, hk]
      · simp [lookupCell, hk, ih, Ne.symm hk]
  simp only [Store.get?, Store.fill, key, List.mem_range]

theorem Store.wf_fill (st : Store α) (n : Nat) (v : α) : (st.fill n v).wf = true := by
  have key : ∀ (m lo : Nat), risingFrom lo ((List.range' lo m).map fun i => (i, v)) = true := by
    intro m
    induction m with
    | zero => intro lo; rfl
    | succ m ih => intro lo; simp [List.range'_succ, risingFrom, ih]
  simpa [Store.wf, Store.fill, List.range_eq_range'] using key n 0

theorem all_insertCell {p : Nat → Bool} {a : Nat} (ha : p a = true) (v : α) {l : List (Nat × α)}
    (hl : l.all (fun c => p c.1) = true) : (insertCell a v l).all (fun c => p c.1) = true := by
  induction l with
  | nil => simp [insertCell, ha]
  | cons c rest ih =>
    simp only [List.all_cons, Bool.and_eq_true] at hl
    simp only [insertCell]
    split
    · simp [ha, hl.1, hl.2]
    · split
      · simp [ha, hl.2]
      · simp [hl.1, ih hl.2]

theorem Store.below_write {cap a : Nat} {st : Store α} (ha : a < cap) (v : α) (h : st.below cap = true) :
    (st.write a v).below cap = true :=
  all_insertCell (p := fun k => decide (k < cap)) (by simpa using ha) v h

@[simp] theorem Store.below_forget (cap : Nat) (st : Store α) : st.forget.below cap = true := rfl

theorem Store.below_fill (st : Store α) (n : Nat) (v : α) : (st.fill n v).below n = true := by
  simp [Store.below, Store.fill, List.all_eq_true]

/-! ### The three byte spaces -/

@[simp] theorem Memory.space_setSpace_self (m : Memory) (sp : Space) (st : Store Byte) :
    (m.setSpace sp st).space sp = st := by cases sp <;> rfl

theorem Memory.space_setSpace_other (m : Memory) {sp sp' : Space} (h : sp' ≠ sp) (st : Store Byte) :
    (m.setSpace sp st).space sp' = m.space sp' := by
  cases sp <;> cases sp' <;> first | rfl | exact absurd rfl h

@[simp] theorem Memory.readByte_writeByte_self (m : Memory) (sp : Space) (a : Nat) (b : Byte) :
    (m.writeByte sp a b).readByte sp a = b := by
  simp [Memory.readByte, Memory.writeByte]

theorem Memory.readByte_writeByte_other (m : Memory) {sp sp' : Space} {a a' : Nat} (h : ¬(sp' = sp ∧ a' = a))
    (b : Byte) : (m.writeByte sp a b).readByte sp' a' = m.readByte sp' a' := by
  by_cases hs : sp' = sp
  · subst hs
    have ha : a' ≠ a := fun e => h ⟨rfl, e⟩
    simp [Memory.readByte, Memory.writeByte, Store.read_write_other _ _ ha]
  · simp [Memory.readByte, Memory.writeByte, Memory.space_setSpace_other m hs]

theorem Memory.readByte_forget_other (m : Memory) {sp sp' : Space} (h : sp' ≠ sp) (a : Nat) :
    (m.forget sp).readByte sp' a = m.readByte sp' a := by
  simp [Memory.readByte, Memory.forget, Memory.space_setSpace_other m h]

theorem Memory.wf_iff (m : Memory) : m.wf = true ↔ ∀ sp, (m.space sp).wf = true := by
  constructor
  · intro h sp
    simp only [Memory.wf, Bool.and_eq_true] at h
    cases sp
    · exact h.1.1
    · exact h.1.2
    · exact h.2
  · intro h
    simp only [Memory.wf, Bool.and_eq_true]
    exact ⟨⟨h .ibuf, h .obuf⟩, h .extbuf⟩

theorem Memory.wf_setSpace {m : Memory} (h : m.wf = true) (sp : Space) {st : Store Byte} (hst : st.wf = true) :
    (m.setSpace sp st).wf = true := by
  rw [Memory.wf_iff] at h ⊢
  intro sp'
  by_cases hs : sp' = sp
  · subst hs; simpa using hst
  · rw [Memory.space_setSpace_other m hs]; exact h sp'

/-- A byte write keeps the canonical form. -/
theorem Memory.wf_writeByte {m : Memory} (h : m.wf = true) (sp : Space) (a : Nat) (b : Byte) :
    (m.writeByte sp a b).wf = true :=
  Memory.wf_setSpace h sp (Store.wf_write ((Memory.wf_iff m).mp h sp) a b)

/-- A space that becomes unspecified keeps the canonical form. -/
theorem Memory.wf_forget {m : Memory} (h : m.wf = true) (sp : Space) : (m.forget sp).wf = true :=
  Memory.wf_setSpace h sp (Store.wf_forget _)

/-- Memory after reset is in canonical form. -/
theorem reset_memory_wf (p : Params) : (State.resetWith p).mem.wf = true := rfl

end Sys2Proof.Machine
end

