-- ==== Sys2Proof/Laws/Ops.lean ====
section
/-! SUPPORT. What each shared operation can do, said once: sequencing, Put, the exits, a whole command. -/

namespace Sys2Proof.Machine

/-! ### Sequencing -/

@[simp] theorem Run.bind_ok (s : State) (k : State → Run) : (Run.ok s).bind k = k s := rfl
@[simp] theorem Run.bind_raised (e : ErrKind) (s : State) (k : State → Run) :
    (Run.raised e s).bind k = .raised e s := rfl
@[simp] theorem Run.bind_stuck (f : Fault) (k : State → Run) : (Run.stuck f).bind k = .stuck f := rfl
@[simp] theorem Run.map_ok (s : State) (k : State → State) : (Run.ok s).map k = .ok (k s) := rfl
@[simp] theorem Run.map_raised (e : ErrKind) (s : State) (k : State → State) :
    (Run.raised e s).map k = .raised e s := rfl
@[simp] theorem Run.map_stuck (f : Fault) (k : State → State) : (Run.stuck f).map k = .stuck f := rfl

theorem Run.bind_assoc (r : Run) (k l : State → Run) : (r.bind k).bind l = r.bind fun s => (k s).bind l := by
  cases r <;> rfl

/-- A sequence that goes on has gone on in both parts. -/
theorem Run.bind_eq_ok {r : Run} {k : State → Run} {t : State} (h : r.bind k = .ok t) :
    ∃ s, r = .ok s ∧ k s = .ok t := by
  cases r with
  | ok s => exact ⟨s, rfl, h⟩
  | raised e s => cases h
  | stuck f => cases h

/-- A sequence that raises has raised in one of its parts. -/
theorem Run.bind_eq_raised {r : Run} {k : State → Run} {e : ErrKind} {t : State} (h : r.bind k = .raised e t) :
    r = .raised e t ∨ ∃ s, r = .ok s ∧ k s = .raised e t := by
  cases r with
  | ok s => exact .inr ⟨s, rfl, h⟩
  | raised e' s => exact .inl h
  | stuck f => cases h

/-- The state a run has come to, whether it goes on or raises, has the property `P`. -/
def Run.All (P : State → Prop) : Run → Prop
  | .ok s => P s
  | .raised _ s => P s
  | .stuck _ => True

theorem Run.All.bind {P Q : State → Prop} {r : Run} {k : State → Run} (hr : r.All P) (hPQ : ∀ s, P s → Q s)
    (hk : ∀ s, P s → (k s).All Q) : (r.bind k).All Q := by
  cases r with
  | ok s => exact hk s hr
  | raised e s => exact hPQ s hr
  | stuck f => trivial

theorem Run.All.map {P Q : State → Prop} {r : Run} {k : State → State} (hr : r.All P) (hPQ : ∀ s, P s → Q s)
    (hk : ∀ s, P s → Q (k s)) : (r.map k).All Q :=
  Run.All.bind hr hPQ hk

theorem Run.All.mono {P Q : State → Prop} {r : Run} (hr : r.All P) (h : ∀ s, P s → Q s) : r.All Q := by
  cases r with
  | ok s => exact h s hr
  | raised e s => exact h s hr
  | stuck f => trivial

/-! ### Put -/

theorem put_of_room {s : State} (h : s.seq.opos < s.params.obufCap) (b : Byte) :
    s.put b = .ok ((s.memWrite .obuf s.seq.opos b).setOpos (s.seq.opos + 1)) := by
  simp only [State.put, if_neg (Nat.not_le.mpr h)]

theorem put_of_full {s : State} (h : s.params.obufCap ≤ s.seq.opos) (b : Byte) :
    s.put b = .raised .resource s := by
  simp only [State.put, if_pos h]

/-- All that `Put` can do (R172). -/
theorem put_cases (s : State) (b : Byte) :
    (s.params.obufCap ≤ s.seq.opos ∧ s.put b = .raised .resource s) ∨
    (s.seq.opos < s.params.obufCap ∧
      s.put b = .ok ((s.memWrite .obuf s.seq.opos b).setOpos (s.seq.opos + 1))) := by
  by_cases h : s.params.obufCap ≤ s.seq.opos
  · exact .inl ⟨h, put_of_full h b⟩
  · exact .inr ⟨Nat.lt_of_not_le h, put_of_room (Nat.lt_of_not_le h) b⟩

/-- `Put` of a list with room for all of it: the bytes stand at OPOS onwards, every other byte is as before. -/
theorem putAll_of_room (l : List Byte) (s : State) (h : s.seq.opos + l.length ≤ s.params.obufCap) :
    ∃ o : Store Byte,
      s.putAll l = .ok { s with
        mem := { s.mem with obuf := o }, seq := { s.seq with opos := s.seq.opos + l.length } }
      ∧ (∀ (k : Nat) (hk : k < l.length), o.get? (s.seq.opos + k) = some l[k])
      ∧ (∀ a, a < s.seq.opos ∨ s.seq.opos + l.length ≤ a → o.get? a = s.mem.obuf.get? a)
      ∧ o.epoch = s.mem.obuf.epoch := by
  induction l generalizing s with
  | nil => exact ⟨s.mem.obuf, rfl, by simp, by simp, rfl⟩
  | cons b rest ih =>
    simp only [List.length_cons] at h
    have hput := put_of_room (s := s) (by omega) b
    obtain ⟨o, ho, hin, hout, hep⟩ := ih ((s.memWrite .obuf s.seq.opos b).setOpos (s.seq.opos + 1)) (by
      simp only [State.setOpos_seq, State.memWrite_seq, State.setOpos_params, State.memWrite_params]; omega)
    refine ⟨o, ?_, ?_, ?_, ?_⟩
    · rw [State.putAll, hput, Run.bind_ok, ho]
      simp only [State.setOpos, State.memWrite, Memory.writeByte, Memory.setSpace, List.length_cons]
      congr 3
      omega
    · intro k hk
      cases k with
      | zero =>
        have := hout s.seq.opos (.inl (by simp))
        simpa [State.setOpos, State.memWrite, Memory.writeByte, Memory.setSpace, Memory.space] using this
      | succ k =>
        have := hin k (by simpa using hk)
        simpa [State.setOpos, Nat.add_assoc, Nat.add_comm 1 k] using this
    · intro a ha
      simp only [List.length_cons] at ha
      rw [hout a (by simp only [State.setOpos_seq]; omega)]
      simp only [State.setOpos, State.memWrite, Memory.writeByte, Memory.setSpace, Memory.space]
      exact Store.get?_write_other _ (by omega) b
    · rw [hep]; rfl

/-- `Put` of a list without room for all of it is Resource. -/
theorem putAll_of_full (l : List Byte) (s : State) (ho : s.seq.opos ≤ s.params.obufCap)
    (h : s.params.obufCap < s.seq.opos + l.length) :
    ∃ t, s.putAll l = .raised .resource t := by
  induction l generalizing s with
  | nil => simp only [List.length_nil] at h; omega
  | cons b rest ih =>
    simp only [List.length_cons] at h
    rcases put_cases s b with ⟨_, hput⟩ | ⟨hlt, hput⟩
    · exact ⟨s, by rw [State.putAll, hput]; rfl⟩
    · rw [State.putAll, hput, Run.bind_ok]
      refine ih _ ?_ ?_ <;>
        simp only [State.setOpos_seq, State.memWrite_seq, State.setOpos_params, State.memWrite_params] <;> omega

theorem putAll_append (l m : List Byte) (s : State) : s.putAll (l ++ m) = (s.putAll l).bind (State.putAll m) := by
  induction l generalizing s with
  | nil => rfl
  | cons b rest ih =>
    rw [List.cons_append, State.putAll, State.putAll, Run.bind_assoc]
    congr 1
    funext t
    exact ih t

/-! ### The ends of a command -/

/-- A command gives a next state by the success exit or by the error entry (R258, R259). -/
theorem finish_eq_next {c : Instr} {r : Run} {t : State} (h : finish c r = .next t) :
    (∃ s, r = .ok s ∧ t = s.successExit) ∨ (∃ e s, r = .raised e s ∧ t = s.errorEntry c e) := by
  cases r with
  | ok s => exact .inl ⟨s, rfl, by simpa [finish] using h.symm⟩
  | raised e s => exact .inr ⟨e, s, rfl, by simpa [finish] using h.symm⟩
  | stuck f => simp [finish] at h

/-- A component command's error entry (R258): it keeps what the command has done, but for the outputs R74 and R175 make
unspecified. -/
theorem errorEntry_component {c : Instr} (h₁ : c ≠ .compress) (h₂ : c ≠ .decompress) (e : ErrKind) (s : State) :
    s.errorEntry c e = (s.forgetOutputs c).errorExit e := by
  cases c <;> first | rfl | exact absurd rfl h₁ | exact absurd rfl h₂

@[simp] theorem errorEntry_outLen (c : Instr) (e : ErrKind) (s : State) : (s.errorEntry c e).outLen = 0 := rfl
@[simp] theorem errorEntry_err (c : Instr) (e : ErrKind) (s : State) : (s.errorEntry c e).err = true := rfl
@[simp] theorem errorEntry_done (c : Instr) (e : ErrKind) (s : State) : (s.errorEntry c e).done = true := rfl
@[simp] theorem errorEntry_busy (c : Instr) (e : ErrKind) (s : State) : (s.errorEntry c e).busy = false := rfl
@[simp] theorem errorEntry_errCode (c : Instr) (e : ErrKind) (s : State) :
    (s.errorEntry c e).errCode = errCodeOf e := rfl
@[simp] theorem errorEntry_seq (c : Instr) (e : ErrKind) (s : State) : (s.errorEntry c e).seq = Seq.idle := rfl

/-- What no error entry changes. -/
theorem errorEntry_environment (c : Instr) (e : ErrKind) (s : State) :
    (s.errorEntry c e).params = s.params ∧ (s.errorEntry c e).host = s.host
    ∧ (s.errorEntry c e).lastRead = s.lastRead ∧ (s.errorEntry c e).freeCount = s.freeCount
    ∧ (s.errorEntry c e).inLen = s.inLen ∧ (s.errorEntry c e).mem.ibuf = s.mem.ibuf := by
  cases c <;>
    simp [State.errorEntry, State.forgetOutputs, State.dropComposite, Memory.forget, Memory.setSpace]

/-- A DESERIALIZE error leaves no record of NODE specified (R175). -/
theorem errorEntry_deserialize_node (e : ErrKind) (s : State) :
    (s.errorEntry .deserialize e).node = s.node.forget := rfl

/-- A composite command's error leaves clean tables and TOTAL = 0 (R213). -/
theorem errorEntry_composite {c : Instr} (h : c = .compress ∨ c = .decompress) (e : ErrKind) (s : State) :
    (s.errorEntry c e).treeValid = false ∧ (s.errorEntry c e).lutValid = false
    ∧ (s.errorEntry c e).freq = Vector.replicate 256 0 ∧ (s.errorEntry c e).total = 0
    ∧ (s.errorEntry c e).nleaf = 0 ∧ (s.errorEntry c e).nnode = 0 ∧ (s.errorEntry c e).root = 0 := by
  rcases h with rfl | rfl <;> simp [State.errorEntry, State.forgetOutputs, State.dropComposite]

/-- The error entry of a command that writes OBUF leaves every OBUF byte unspecified (R74). -/
theorem errorEntry_obuf {c : Instr} (h : c ∈ [Instr.serialize, .pack, .unpack, .compress, .decompress]) (e : ErrKind)
    (s : State) : (s.errorEntry c e).mem.obuf = s.mem.obuf.forget := by
  cases c <;>
    simp_all [State.errorEntry, State.forgetOutputs, State.dropComposite, Memory.forget, Memory.setSpace, Memory.space]

/-- The error entry of a command that does not write OBUF keeps every OBUF byte (R74). -/
theorem errorEntry_obuf_kept {c : Instr} (h : c ∈ [Instr.nop, .count, .build, .gencodes, .deserialize, .clear])
    (e : ErrKind) (s : State) : (s.errorEntry c e).mem.obuf = s.mem.obuf := by
  cases c <;> simp_all [State.errorEntry, State.forgetOutputs, State.dropComposite]

/-- The error entry of a command but DECOMPRESS keeps every EXTBUF byte and EXT_LEN (R74, R213). -/
theorem errorEntry_extbuf_kept {c : Instr} (h : c ≠ .decompress) (e : ErrKind) (s : State) :
    (s.errorEntry c e).mem.extbuf = s.mem.extbuf ∧ (s.errorEntry c e).extLen = s.extLen := by
  cases c <;>
    simp_all [State.errorEntry, State.forgetOutputs, State.dropComposite, Memory.forget, Memory.setSpace]

/-- A whole command gives a next state by one of its two ends, from the state after its start (R257). -/
theorem command_eq_next {c : Instr} {p : Phase} {body : State → Run} {s t : State}
    (h : command c p body s = .next t) :
    (∃ u, body (s.commandStart.setPhase p) = .ok u ∧ t = u.successExit)
    ∨ (∃ e u, body (s.commandStart.setPhase p) = .raised e u ∧ t = u.errorEntry c e) :=
  finish_eq_next h

theorem command_of_ok {c : Instr} {p : Phase} {body : State → Run} {s u : State}
    (h : body (s.commandStart.setPhase p) = .ok u) : command c p body s = .next u.successExit := by
  simp only [command, h, finish]

theorem command_of_raised {c : Instr} {p : Phase} {body : State → Run} {s u : State} {e : ErrKind}
    (h : body (s.commandStart.setPhase p) = .raised e u) : command c p body s = .next (u.errorEntry c e) := by
  simp only [command, h, finish]

end Sys2Proof.Machine
end

