-- ==== Sys2Proof/Laws/Frame.lean ====
section
/-! SUPPORT. What the loops of the commands can change: each relation names the fields, each lemma says of one loop that
it changes no other. -/

namespace Sys2Proof.Machine

/-! ### The writers of OBUF -/

/-- From `s` to `t` only OBUF and the transient state may differ. -/
def OnlyOutput (s t : State) : Prop := ∃ o q, t = { s with mem := { s.mem with obuf := o }, seq := q }

theorem OnlyOutput.refl (s : State) : OnlyOutput s s := ⟨s.mem.obuf, s.seq, rfl⟩

theorem OnlyOutput.trans {s t u : State} (h : OnlyOutput s t) (k : OnlyOutput t u) : OnlyOutput s u := by
  obtain ⟨o, q, rfl⟩ := h
  obtain ⟨o', q', rfl⟩ := k
  exact ⟨o', q', rfl⟩

theorem OnlyOutput.of_seq {s t : State} (h : OnlyOutput s t) (q : Seq) : OnlyOutput s { t with seq := q } := by
  obtain ⟨o, _, rfl⟩ := h
  exact ⟨o, q, rfl⟩

/-- Sequencing for OnlyOutput. -/
theorem OnlyOutput.bind {s : State} {r : Run} {k : State → Run} (hr : r.All (OnlyOutput s))
    (hk : ∀ t, (k t).All (OnlyOutput t)) : (r.bind k).All (OnlyOutput s) :=
  Run.All.bind hr (fun _ h => h) fun t ht => Run.All.mono (hk t) fun _ hu => ht.trans hu

theorem OnlyOutput.map_seq {s : State} {r : Run} (hr : r.All (OnlyOutput s)) (f : State → Seq) :
    (r.map fun t => { t with seq := f t }).All (OnlyOutput s) :=
  Run.All.map hr (fun _ h => h) fun t ht => ht.of_seq (f t)

theorem put_onlyOutput (b : Byte) (s : State) : (s.put b).All (OnlyOutput s) := by
  rcases put_cases s b with ⟨_, h⟩ | ⟨_, h⟩
  · rw [h]; exact OnlyOutput.refl s
  · rw [h]; exact ⟨_, _, rfl⟩

theorem putAll_onlyOutput (l : List Byte) (s : State) : (s.putAll l).All (OnlyOutput s) := by
  induction l generalizing s with
  | nil => exact OnlyOutput.refl s
  | cons b rest ih => exact OnlyOutput.bind (put_onlyOutput b s) fun t => ih t

theorem emitVisit_onlyOutput (i : NodeIdx) (s : State) : (emitVisit i s).All (OnlyOutput s) := by
  simp only [emitVisit]
  split
  · exact OnlyOutput.bind (put_onlyOutput _ s) fun t => put_onlyOutput _ t
  · exact OnlyOutput.map_seq (put_onlyOutput _ s) _

theorem emitLoop_onlyOutput (k : Nat) (s : State) : (emitLoop k s).All (OnlyOutput s) := by
  induction k generalizing s with
  | zero =>
    simp only [emitLoop]
    split
    · exact OnlyOutput.refl s
    · trivial
  | succ k ih =>
    simp only [emitLoop]
    split
    · exact OnlyOutput.refl s
    · rename_i f rest _
      exact OnlyOutput.bind
        (Run.All.mono (emitVisit_onlyOutput f.idx _) fun _ h => ((OnlyOutput.refl s).of_seq _).trans h) ih

theorem emitTree_onlyOutput (s : State) : (emitTree s).All (OnlyOutput s) :=
  Run.All.mono (emitLoop_onlyOutput _ _) fun _ h => ((OnlyOutput.refl s).of_seq _).trans h

theorem putBit_onlyOutput (b : Bool) (s : State) : (putBit b s).All (OnlyOutput s) := by
  simp only [putBit]
  split
  · exact OnlyOutput.map_seq
      (Run.All.mono (put_onlyOutput _ _) fun _ h => ((OnlyOutput.refl s).of_seq _).trans h) _
  · exact (OnlyOutput.refl s).of_seq _

theorem putBits_onlyOutput (l : BitString) (s : State) : (putBits l s).All (OnlyOutput s) := by
  induction l generalizing s with
  | nil => exact OnlyOutput.refl s
  | cons b rest ih => exact OnlyOutput.bind (putBit_onlyOutput b s) ih

theorem packSymbol_onlyOutput (s : State) : (packSymbol s).All (OnlyOutput s) := by
  simp only [packSymbol]
  split
  · exact OnlyOutput.refl s
  · exact OnlyOutput.map_seq (putBits_onlyOutput _ s) _

theorem packLoop_onlyOutput (k : Nat) (s : State) : (packLoop k s).All (OnlyOutput s) := by
  induction k generalizing s with
  | zero => exact OnlyOutput.refl s
  | succ k ih => exact OnlyOutput.bind (packSymbol_onlyOutput s) ih

theorem packFlush_onlyOutput (s : State) : (packFlush s).All (OnlyOutput s) := by
  simp only [packFlush]
  split
  · exact OnlyOutput.refl s
  · exact put_onlyOutput _ s

theorem packRange_onlyOutput (start stop : Nat) (s : State) : (packRange start stop s).All (OnlyOutput s) :=
  OnlyOutput.bind
    (Run.All.mono (packLoop_onlyOutput _ _) fun _ h => ((OnlyOutput.refl s).of_seq _).trans h) packFlush_onlyOutput

theorem takeBit_onlyOutput (s : State) : OnlyOutput s (takeBit s).2 := by
  simp only [takeBit]
  split <;> exact (OnlyOutput.refl s).of_seq _

theorem emitSymbol_onlyOutput (sym : Byte) (s : State) : (emitSymbol sym s).All (OnlyOutput s) :=
  OnlyOutput.map_seq (put_onlyOutput sym s) _

theorem unpackBit_onlyOutput (bit : Bool) (s : State) : (unpackBit bit s).All (OnlyOutput s) := by
  unfold unpackBit
  by_cases hr : (s.nodeRead s.root).leaf = true
  · rw [if_pos hr]
    exact emitSymbol_onlyOutput _ s
  · rw [if_neg hr]
    dsimp only
    generalize (if bit then (s.nodeRead s.seq.cur).right else (s.nodeRead s.seq.cur).left) = c
    split
    · exact OnlyOutput.map_seq
        (Run.All.mono (emitSymbol_onlyOutput _ _) fun _ h => ((OnlyOutput.refl s).of_seq _).trans h) _
    · exact (OnlyOutput.refl s).of_seq _

theorem unpackLoop_onlyOutput (count k : Nat) (s : State) : (unpackLoop count k s).All (OnlyOutput s) := by
  induction k generalizing s with
  | zero =>
    simp only [unpackLoop]
    split <;> exact OnlyOutput.refl s
  | succ k ih =>
    simp only [unpackLoop]
    split
    · exact OnlyOutput.bind
        (Run.All.mono (unpackBit_onlyOutput _ _) fun _ h => (takeBit_onlyOutput s).trans h) ih
    · exact OnlyOutput.refl s

theorem unpackRange_onlyOutput (start stop count : Nat) (s : State) :
    (unpackRange start stop count s).All (OnlyOutput s) :=
  Run.All.mono (unpackLoop_onlyOutput _ _ _) fun _ h => ((OnlyOutput.refl s).of_seq _).trans h

/-! ### The builders of trees -/

/-- From `s` to `t` only NODE, the tree registers, TREE_VALID and the transient state may differ. -/
def OnlyTree (s t : State) : Prop :=
  ∃ m r l n v q, t = { s with node := m, root := r, nleaf := l, nnode := n, treeValid := v, seq := q }

theorem OnlyTree.refl (s : State) : OnlyTree s s := ⟨_, _, _, _, _, _, rfl⟩

theorem OnlyTree.trans {s t u : State} (h : OnlyTree s t) (k : OnlyTree t u) : OnlyTree s u := by
  obtain ⟨m, r, l, n, v, q, rfl⟩ := h
  obtain ⟨m', r', l', n', v', q', rfl⟩ := k
  exact ⟨m', r', l', n', v', q', rfl⟩

/-- Sequencing for OnlyTree. -/
theorem OnlyTree.bind {s : State} {r : Run} {k : State → Run} (hr : r.All (OnlyTree s))
    (hk : ∀ t, (k t).All (OnlyTree t)) : (r.bind k).All (OnlyTree s) :=
  Run.All.bind hr (fun _ h => h) fun t ht => Run.All.mono (hk t) fun _ hu => ht.trans hu

theorem addNode_onlyTree (s : State) (r : NodeRec) : OnlyTree s (s.addNode r) := ⟨_, _, _, _, _, _, rfl⟩

theorem addLeaf_onlyTree (s : State) (sym : Byte) : OnlyTree s (addLeaf s sym) := by
  simp only [addLeaf]
  split
  · exact OnlyTree.refl s
  · exact addNode_onlyTree s _

theorem addLeaves_onlyTree (l : List Byte) (s : State) : OnlyTree s (addLeaves l s) := by
  induction l generalizing s with
  | nil => exact OnlyTree.refl s
  | cons sym rest ih => exact (addLeaf_onlyTree s sym).trans (ih _)

/-- All that `extractMin` can do (R142): it takes a node out of PQ. -/
theorem extractMin_eq_some {s t : State} {i : NodeIdx} (h : s.extractMin = some (i, t)) :
    s.leastKey s.seq.pq = some i ∧ t = s.setPq (s.seq.pq.erase i) := by
  simp only [State.extractMin, Option.map_eq_some_iff] at h
  obtain ⟨j, hj, hp⟩ := h
  cases hp
  exact ⟨hj, rfl⟩

theorem extractMin_onlyTree {s t : State} {i : NodeIdx} (h : s.extractMin = some (i, t)) : OnlyTree s t := by
  obtain ⟨_, rfl⟩ := extractMin_eq_some h
  exact ⟨_, _, _, _, _, _, rfl⟩

theorem mergeStep_onlyTree (s : State) : OnlyTree s (mergeStep s) := by
  simp only [mergeStep]
  split
  · exact OnlyTree.refl s
  · rename_i a s₁ h₁
    split
    · exact OnlyTree.refl s
    · rename_i b s₂ h₂
      exact ((extractMin_onlyTree h₁).trans (extractMin_onlyTree h₂)).trans (addNode_onlyTree s₂ _)

theorem mergeLoop_onlyTree (k : Nat) (s : State) : OnlyTree s (mergeLoop k s) := by
  induction k generalizing s with
  | zero => exact OnlyTree.refl s
  | succ k ih =>
    simp only [mergeLoop]
    split
    · exact (mergeStep_onlyTree s).trans (ih _)
    · exact OnlyTree.refl s

theorem buildFinish_onlyTree (l : Nat) (s : State) : (buildFinish l s).All (OnlyTree s) := by
  simp only [buildFinish]
  split
  · exact OnlyTree.refl s
  · rename_i r t h
    exact (extractMin_onlyTree h).trans ⟨_, _, _, _, _, _, rfl⟩

theorem buildBody_onlyTree (s : State) : (buildBody s).All (OnlyTree s) := by
  unfold buildBody
  generalize allSymbols = l
  have h : OnlyTree s (addLeaves l { s with seq := { s.seq with n := 0, pq := [] } }) :=
    OnlyTree.trans ⟨_, _, _, _, _, _, rfl⟩ (addLeaves_onlyTree _ _)
  dsimp only
  split
  · exact h
  · exact Run.All.mono (buildFinish_onlyTree _ _) fun _ k => (h.trans (mergeLoop_onlyTree _ _)).trans k

theorem closeNode_onlyTree (j : NodeIdx) (l : List Frame) (s : State) : OnlyTree s (closeNode j l s) := by
  induction l generalizing j s with
  | nil => exact ⟨_, _, _, _, _, _, rfl⟩
  | cons f rest ih =>
    simp only [closeNode]
    split
    · exact ⟨_, _, _, _, _, _, rfl⟩
    · exact OnlyTree.trans ⟨_, _, _, _, _, _, rfl⟩ (ih _ _)

theorem parseLeaf_onlyTree (stop : Nat) (i : NodeIdx) (s : State) : (parseLeaf stop i s).All (OnlyTree s) := by
  simp only [parseLeaf]
  split
  · exact OnlyTree.refl s
  · exact OnlyTree.trans ⟨_, _, _, _, _, _, rfl⟩ (closeNode_onlyTree _ _ _)

theorem parseNode_onlyTree (stop : Nat) (s : State) : (parseNode stop s).All (OnlyTree s) := by
  simp only [parseNode]
  split
  · exact OnlyTree.refl s
  · split
    · exact ⟨_, _, _, _, _, _, rfl⟩
    · split
      · exact ⟨_, _, _, _, _, _, rfl⟩
      · split
        · exact Run.All.mono (parseLeaf_onlyTree _ _ _) fun _ h => OnlyTree.trans ⟨_, _, _, _, _, _, rfl⟩ h
        · exact ⟨_, _, _, _, _, _, rfl⟩

theorem parseLoop_onlyTree (stop k : Nat) (s : State) : (parseLoop stop k s).All (OnlyTree s) := by
  induction k generalizing s with
  | zero => exact OnlyTree.refl s
  | succ k ih =>
    refine OnlyTree.bind (parseNode_onlyTree stop s) fun t => ?_
    split
    · exact OnlyTree.refl t
    · exact ih t

theorem deserializeRange_onlyTree (start stop : Nat) (s : State) :
    (deserializeRange start stop s).All (OnlyTree s) := by
  refine OnlyTree.bind
    (Run.All.mono (parseLoop_onlyTree _ _ _) fun _ h => OnlyTree.trans ⟨_, _, _, _, _, _, rfl⟩ h) fun t => ?_
  split
  · exact OnlyTree.refl t
  · exact ⟨_, _, _, _, _, _, rfl⟩

/-! ### The code table, the counts, the extension -/

/-- From `s` to `t` only LUT, LUT_VALID and the transient state may differ. -/
def OnlyTable (s t : State) : Prop := ∃ l v q, t = { s with lut := l, lutValid := v, seq := q }

theorem OnlyTable.trans {s t u : State} (h : OnlyTable s t) (k : OnlyTable t u) : OnlyTable s u := by
  obtain ⟨l, v, q, rfl⟩ := h
  obtain ⟨l', v', q', rfl⟩ := k
  exact ⟨l', v', q', rfl⟩

theorem walkVisit_onlyTable (f : Frame) (s : State) : OnlyTable s (walkVisit f s) := by
  simp only [walkVisit]
  split <;> exact ⟨_, _, _, rfl⟩

theorem walkLoop_onlyTable (k : Nat) (s : State) : (walkLoop k s).All (OnlyTable s) := by
  induction k generalizing s with
  | zero =>
    simp only [walkLoop]
    split
    · exact ⟨_, _, _, rfl⟩
    · trivial
  | succ k ih =>
    simp only [walkLoop]
    split
    · exact ⟨_, _, _, rfl⟩
    · exact Run.All.mono (ih _) fun _ h =>
        OnlyTable.trans (OnlyTable.trans ⟨_, _, _, rfl⟩ (walkVisit_onlyTable _ _)) h

theorem gencodesBody_onlyTable (s : State) : (gencodesBody s).All (OnlyTable s) := by
  simp only [gencodesBody]
  refine Run.All.map (P := OnlyTable s) ?_ (fun _ h => h) fun t ht => ht.trans ⟨_, _, _, rfl⟩
  split
  · exact ⟨_, _, _, rfl⟩
  · exact Run.All.mono (walkLoop_onlyTable _ _) fun _ h => OnlyTable.trans ⟨_, _, _, rfl⟩ h

/-- The counting loop changes FREQ and the transient state only. -/
theorem countLoop_frame (k : Nat) (s : State) : ∃ f q, countLoop k s = { s with freq := f, seq := q } := by
  induction k generalizing s with
  | zero => exact ⟨_, _, rfl⟩
  | succ k ih =>
    obtain ⟨f, q, h⟩ := ih (countSymbol s)
    exact ⟨f, q, by rw [countLoop, h]; rfl⟩

/-- The extension copy changes EXTBUF only. -/
theorem copyExt_frame (r k : Nat) (s : State) :
    ∃ o, copyExt r k s = { s with mem := { s.mem with extbuf := o } } := by
  induction r generalizing k s with
  | zero => exact ⟨_, rfl⟩
  | succ r ih =>
    obtain ⟨o, h⟩ := ih (k + 1) (s.memWrite .extbuf k (s.memRead .ibuf (11 + k)))
    exact ⟨o, by rw [copyExt, h]; rfl⟩

end Sys2Proof.Machine
end

