-- ==== Sys2Proof/Laws/PerInstr.lean ====
section
/-! SUPPORT. A fact about every command as syntax, one lemma per constructor: its word has the shape of CMDW, bits 31:8
zero and the opcode in bits 7:0 (30_encoding.md R90). -/

namespace Sys2Proof.Laws.WordShape

/-- The word of the command has the shape of R90, and no other command has its opcode. -/
def Statement (i : Instr) : Prop :=
  zeroField (encode i) = 0 ∧ opcodeField (encode i) = opcodeOf i ∧ ∀ j ∈ Instr.all, opcodeOf j = opcodeOf i → j = i

theorem nop : Statement .nop := ⟨by decide, by decide, by decide⟩
theorem count : Statement .count := ⟨by decide, by decide, by decide⟩
theorem build : Statement .build := ⟨by decide, by decide, by decide⟩
theorem gencodes : Statement .gencodes := ⟨by decide, by decide, by decide⟩
theorem serialize : Statement .serialize := ⟨by decide, by decide, by decide⟩
theorem deserialize : Statement .deserialize := ⟨by decide, by decide, by decide⟩
theorem pack : Statement .pack := ⟨by decide, by decide, by decide⟩
theorem unpack : Statement .unpack := ⟨by decide, by decide, by decide⟩
theorem compress : Statement .compress := ⟨by decide, by decide, by decide⟩
theorem decompress : Statement .decompress := ⟨by decide, by decide, by decide⟩
theorem clear : Statement .clear := ⟨by decide, by decide, by decide⟩

end Sys2Proof.Laws.WordShape
end

