-- ==== Sys2Proof/Tests/Slice0.lean ====
section
/-! SUPPORT. Tests on fixed values, each with the place in spec/ its expected value comes from, and one witness for the
hypotheses of every statement of Certificates/Slice0/Obligations.lean that has any. -/

namespace Sys2Proof.Tests

open Sys2Proof Sys2Proof.Machine

/-! ### Helpers -/

/-- The outcome is a next state, and that state passes the check `p`. -/
def nextIs (o : Host.Outcome State Fault Refusal) (p : State → Bool) : Bool :=
  match o with
  | .next t => p t
  | .fault _ => false
  | .refused _ => false

/-- Reset with a byte sequence in IBUF and its length in IN_LEN. -/
def inputState (l : List Byte) : State := loadInput l State.reset

/-- The bytes `l` in EXTBUF and their number in EXT_LEN. -/
def withExt (l : List Byte) (s : State) : State :=
  { s with
    mem := { s.mem with extbuf := { cells := l.zipIdx.map fun c => (c.2, c.1), epoch := 0 } }
    extLen := BitVec.ofNat 32 l.length }

/-- OBUF_CAP set to `n`. -/
def capped (n : Nat) (s : State) : State := { s with params := { s.params with obufCap := n } }

/-- Reset with the given counts in FREQ. -/
def freqState (l : List (Byte × Word)) : State :=
  { State.reset with freq := l.foldl (fun v c => v.set c.1.toNat c.2 c.1.isLt) State.reset.freq }

/-- The NODE records of a tree, in preorder. -/
def records : NodeTree → List (Nat × NodeRec)
  | .leaf i s => [(i.toNat, { leaf := true, sym := s, freq := 0, left := 0, right := 0 })]
  | .node i l r =>
    (i.toNat, { leaf := false, sym := 0, freq := 0, left := l.idx, right := r.idx }) :: (records l ++ records r)

/-- Reset with a tree in NODE, numbered in preorder. -/
def treeState (t : Shape) : State :=
  { State.reset with
    treeValid := true
    node := { cells := records (t.numbered 0), epoch := 0 }
    nleaf := BitVec.ofNat 9 t.numLeaves
    nnode := BitVec.ofNat 9 t.numNodes }

/-- Reset with a tree in NODE and its code table in LUT. -/
def tableState (t : Shape) : State :=
  { treeState t with
    lutValid := true
    lut := { cells := (List.range 256).map fun i => (i, t.lutEntry (BitVec.ofNat 8 i)), epoch := 0 } }

/-- The tree of 41_tree_builder.md R147: C = "00", B = "01", A = "1". -/
def shape3 : Shape := .node (.node (.leaf 0x43) (.leaf 0x42)) (.leaf 0x41)

/-- The input AAAAABBC of the spec's examples. -/
def aaaaabbc : List Byte := [0x41, 0x41, 0x41, 0x41, 0x41, 0x42, 0x42, 0x43]

/-- The file of V54. -/
def file54 : List Byte :=
  [0x48, 0x55, 0x46, 0x54, 0x52, 0x45, 0x45, 0x03, 0x00, 0x00, 0x00, 0x74, 0x78, 0x74, 0x08, 0x00, 0x00, 0x00]
    ++ [0x30, 0x30, 0x31, 0x43, 0x31, 0x42, 0x31, 0x41, 0x08, 0x00, 0x00, 0x00, 0xFA, 0x80]

/-- The input with the table of V16. -/
def packState (l : List Byte) : State := loadInput l (tableState shape3)

/-- A payload with the tree of V26 and TOTAL = `n`. -/
def unpackState (l : List Byte) (n : Word) : State := { loadInput l (treeState shape3) with total := n }

/-- A state with one host access pending. -/
def withAccess (a : HostAccess) (s : State) : State := { s with host := [a] }

/-! ### WellFormed refuses each ill-formed choice of the parameters -/

theorem test_wf_suggested : Params.suggested.wellFormed = true := by decide
theorem test_wf_every_command : Instr.all.all Instr.wellFormed = true := by decide
theorem test_wf_ibufCap_zero : { Params.suggested with ibufCap := 0 }.wellFormed = false := by decide
theorem test_wf_ibufCap_large :
    { Params.suggested with ibufCap := 2147483648, obufBase := 0x90000000 }.wellFormed = false := by decide
theorem test_wf_obufCap_zero : { Params.suggested with obufCap := 0 }.wellFormed = false := by decide
theorem test_wf_obufCap_large : { Params.suggested with obufCap := 2147483648 }.wellFormed = false := by decide
theorem test_wf_extCap_large :
    { Params.suggested with extCap := 2147483648, extbufBase := 0x90000000 }.wellFormed = false := by decide
theorem test_wf_regBase_unaligned : { Params.suggested with regBase := 2 }.wellFormed = false := by decide
theorem test_wf_reg_ibuf_overlap : { Params.suggested with ibufBase := 0x3FFF }.wellFormed = false := by decide
theorem test_wf_reg_obuf_overlap : { Params.suggested with obufBase := 0x3FFF }.wellFormed = false := by decide
theorem test_wf_reg_extbuf_overlap : { Params.suggested with extbufBase := 0x3FFF }.wellFormed = false := by decide
theorem test_wf_ibuf_obuf_overlap : { Params.suggested with obufBase := 0x0100FFFF }.wellFormed = false := by decide
theorem test_wf_ibuf_extbuf_overlap : { Params.suggested with extbufBase := 0x0100FFFF }.wellFormed = false := by decide
theorem test_wf_obuf_extbuf_overlap : { Params.suggested with extbufBase := 0x0200FFFF }.wellFormed = false := by decide
theorem test_wf_empty_extbuf_anywhere :
    { Params.suggested with extCap := 0, extbufBase := 0x100 }.wellFormed = true := by decide
theorem test_wf_flags_equal : { Params.suggested with flagLeaf := 0x30 }.wellFormed = false := by decide

/-! ### Decoding: the words of R90 and R91, bit by bit -/

theorem test_decode_nop : decode 0b00000000000000000000000000000000#32 = .ok .nop := by decide
theorem test_decode_count : decode 0b00000000000000000000000000000001#32 = .ok .count := by decide
theorem test_decode_build : decode 0b00000000000000000000000000000010#32 = .ok .build := by decide
theorem test_decode_gencodes : decode 0b00000000000000000000000000000011#32 = .ok .gencodes := by decide
theorem test_decode_serialize : decode 0b00000000000000000000000000000100#32 = .ok .serialize := by decide
theorem test_decode_deserialize : decode 0b00000000000000000000000000000101#32 = .ok .deserialize := by decide
theorem test_decode_pack : decode 0b00000000000000000000000000000110#32 = .ok .pack := by decide
theorem test_decode_unpack : decode 0b00000000000000000000000000000111#32 = .ok .unpack := by decide
theorem test_decode_compress : decode 0b00000000000000000000000000001000#32 = .ok .compress := by decide
theorem test_decode_decompress : decode 0b00000000000000000000000000001001#32 = .ok .decompress := by decide
theorem test_decode_clear : decode 0b00000000000000000000000000001111#32 = .ok .clear := by decide
theorem test_decode_reserved_0A : decode 0x0000000A = .error .reservedOpcode := by decide
theorem test_decode_reserved_0E : decode 0x0000000E = .error .reservedOpcode := by decide
theorem test_decode_reserved_10 : decode 0x00000010 = .error .reservedOpcode := by decide
theorem test_decode_upper_bits : decode 0x80000001 = .error .upperBitsSet := by decide
theorem test_decode_table_words :
    Instr.all.map (fun i => decodeTableWord 32 (encode i).toNat) = Instr.all.map some := by decide

/-! ### One step of each command, on the vectors of 95_test_vectors.md -/

/-- R240, the example: STATUS 0x406 before, 0x002 after. -/
theorem test_nop_acknowledges :
    nextIs (exec .nop { State.reset with done := true, err := true, errCode := 4 }) (fun t => t.statusWord == 0x002)
      = true := by decide

/-- R241, the example. -/
theorem test_clear_discards :
    nextIs (exec .clear { treeState shape3 with done := true, inLen := 8, total := 8 })
      (fun t => t.statusWord == 0x002 && t.nleaf == 0 && t.inLen == 0 && t.total == 0) = true := by decide

/-- V3: symbols are unsigned. -/
theorem test_count_unsigned :
    nextIs (exec .count (inputState [0x80, 0x7F, 0xFF]))
      (fun t => t.freqOf 0x7F == 1 && t.freqOf 0x80 == 1 && t.freqOf 0xFF == 1 && t.total == 3
        && t.statusWord == 0x002) = true := by decide

/-- V5: IN_LEN above IBUF_CAP. -/
theorem test_count_oversized :
    nextIs (exec .count { State.reset with inLen := 65537 }) (fun t => t.statusWord == 0x506 && t.total == 0)
      = true := by decide

/-- V7: the three-symbol tree, as the words of its window (R29). -/
theorem test_build_three :
    nextIs (exec .build (freqState [(0x41, 5), (0x42, 2), (0x43, 1)]))
      (fun t => t.node.cells.map (fun c => (c.2.freq, linkWord c.2))
          == [(5, 0x05040000), (2, 0x05080000), (1, 0x050C0000), (3, 0x00000202), (8, 0x00000003)]
        && t.root == 4 && t.statusWord == 0x00A) = true := by decide +kernel

/-- V9: equal frequencies everywhere. -/
theorem test_build_ties :
    nextIs (exec .build (freqState [(0, 1), (1, 1), (2, 1), (3, 1)]))
      (fun t => (t.node.cells.drop 4).map (fun c => (c.2.freq, c.2.left, c.2.right))
        == [(2, 0, 1), (2, 2, 3), (4, 4, 5)]) = true := by decide +kernel

/-- V16, with the window words of R33. -/
theorem test_gencodes_three :
    nextIs (exec .gencodes (treeState shape3))
      (fun t => codeBits (t.lutRead 0x41) == [true] && codeBits (t.lutRead 0x42) == [false, true]
        && codeBits (t.lutRead 0x43) == [false, false] && codeWord (t.lutRead 0x42) 0 == 0x40000000
        && (t.lutRead 0x44).len == 0 && t.statusWord == 0x01A) = true := by decide +kernel

/-- V20: the last leaf of a repeated symbol wins. -/
theorem test_gencodes_repeated :
    nextIs (exec .gencodes (treeState (.node (.leaf 0x41) (.leaf 0x41))))
      (fun t => codeBits (t.lutRead 0x41) == [true]) = true := by decide +kernel

/-- V22. -/
theorem test_serialize_three :
    nextIs (exec .serialize (treeState shape3))
      (fun t => t.output == [0x30, 0x30, 0x31, 0x43, 0x31, 0x42, 0x31, 0x41]) = true := by decide

/-- V25: no room in OBUF; the tree stays. -/
theorem test_serialize_full :
    nextIs (exec .serialize (capped 4 (treeState shape3))) (fun t => t.statusWord == 0x50E && t.outLen == 0)
      = true := by decide

/-- V31: symbols equal to the flag values. -/
theorem test_deserialize_flag_symbols :
    nextIs (exec .deserialize (inputState [0x30, 0x31, 0x30, 0x31, 0x31]))
      (fun t => t.node.cells.map (fun c => (c.2.leaf, c.2.sym, c.2.left, c.2.right))
          == [(false, 0, 1, 2), (true, 0x30, 0, 0), (true, 0x31, 0, 0)] && t.statusWord == 0x00A) = true := by decide

/-- V29: a byte left over. -/
theorem test_deserialize_left_over :
    nextIs (exec .deserialize (inputState [0x31, 0x41, 0x31])) (fun t => t.statusWord == 0x306 && t.nnode == 0)
      = true := by decide

/-- V34. -/
theorem test_pack_three :
    nextIs (exec .pack (packState aaaaabbc)) (fun t => t.output == [0xFA, 0x80] && t.statusWord == 0x018 + 2)
      = true := by decide

/-- V40: a byte without a code. -/
theorem test_pack_no_code :
    nextIs (exec .pack (packState [0x41, 0x42, 0x44])) (fun t => t.statusWord == 0x71E && t.outLen == 0)
      = true := by decide

/-- V47: the padding is not looked at. -/
theorem test_unpack_padding_ignored :
    nextIs (exec .unpack (unpackState [0xFA, 0x9F] 8)) (fun t => t.output == aaaaabbc && t.statusWord == 0x00A)
      = true := by decide

/-- V49: the bits end inside a code. -/
theorem test_unpack_truncated :
    nextIs (exec .unpack (unpackState [0xFE] 8)) (fun t => t.statusWord == 0x40E && t.outLen == 0) = true := by decide

/-- V55. -/
theorem test_compress_one_symbol :
    nextIs (exec .compress (inputState [0x41, 0x41, 0x41]))
      (fun t => t.output == [0x48, 0x55, 0x46, 0x54, 0x52, 0x45, 0x45, 0, 0, 0, 0, 2, 0, 0, 0, 0x31, 0x41, 3, 0, 0, 0, 0]
        && t.statusWord == 0x002) = true := by decide +kernel

/-- V62: the empty input. -/
theorem test_compress_empty :
    nextIs (exec .compress { State.reset with extLen := 3, total := 77 })
      (fun t => t.statusWord == 0x106 && t.total == 0 && t.extLen == 3) = true := by decide

/-- V66, on the file of V54. -/
theorem test_decompress_file54 :
    nextIs (exec .decompress (inputState file54))
      (fun t => t.output == aaaaabbc && t.extension == [0x74, 0x78, 0x74] && t.total == 8 && t.statusWord == 0x002)
      = true := by decide

/-- V88: a single leaf, the payload bits 1. -/
theorem test_decompress_single_leaf :
    nextIs
      (exec .decompress
        (inputState
          [0x48, 0x55, 0x46, 0x54, 0x52, 0x45, 0x45, 0, 0, 0, 0, 2, 0, 0, 0, 0x31, 0x41, 3, 0, 0, 0, 0xE0]))
      (fun t => t.output == [0x41, 0x41, 0x41]) = true := by decide

/-- V90: a reserved opcode and a word with upper bits set. -/
theorem test_illegal_words :
    (nextIs (step (withAccess (.writeWord 0 0x0000000A) { tableState shape3 with outLen := 8 }))
        (fun t => t.statusWord == 0x61E && t.outLen == 0)
      && nextIs (step (withAccess (.writeWord 0 0x00000101) State.reset)) (fun t => t.statusWord == 0x606))
      = true := by decide

/-- V94: read-only and unmapped offsets. -/
theorem test_register_access :
    (nextIs (step (withAccess (.writeWord 0x0004 0xFFFFFFFF) State.reset)) (fun t => t.statusWord == 0)
      && nextIs (step (withAccess (.readWord 0x0C00) State.reset)) (fun t => t.lastRead == some (.word 0))
      && nextIs (step (withAccess (.readWord 0x1FF8) State.reset)) (fun t => t.lastRead == some (.word 0))
      && nextIs (step (withAccess (.writeWord 0x000C 5) State.reset)) (fun t => t.outLen == 0)) = true := by decide

/-- R280: the platform's reset clears the registers. -/
theorem test_platform_reset :
    nextIs (step (withAccess .platformReset { treeState shape3 with total := 5, err := true, errCode := 3 }))
      (fun t => t.statusWord == 0 && t.total == 0 && t.nnode == 0 && t.host == []) = true := by decide

/-- V26: record 1 is internal, left 2, right 3; its word 1 is at 0x100C (R29). -/
theorem test_node_window :
    nextIs (step (withAccess (.readWord 0x100C) (treeState shape3)))
      (fun t => t.lastRead == some (.word 0x00000602)) = true := by decide

/-! ### Witnesses: for each statement with hypotheses, a state and operands that meet all of them -/

theorem witness_DecodeOfEncodeIsTheCommand : Instr.wellFormed .decompress = true := by decide

theorem witness_StepRunsTheDecodedCommand :
    (withAccess (.writeWord 0 1) State.reset).busy = false
      ∧ (withAccess (.writeWord 0 1) State.reset).host
        = .writeWord (withAccess (.writeWord 0 1) State.reset).params.regBase 1 :: []
      ∧ decode 1 = .ok .count := by decide

theorem witness_StepRunsThePlacedWord : decodeTableWord 32 0x0F = some .clear := by decide

/-- Both clauses: an upper bit set, a reserved opcode (the last one). -/
theorem witness_IllegalWordChangesOnlyStatusAndOutLen :
    State.reset.busy = false
      ∧ (withAccess (.writeWord 0 0x100) State.reset).host = .writeWord State.reset.params.regBase 0x100 :: []
      ∧ (0x100 : Word).extractLsb' 8 24 ≠ 0
      ∧ (0xFF : Word).extractLsb' 0 8
        ∉ [0x00, 0x01, 0x02, 0x03, 0x04, 0x05, 0x06, 0x07, 0x08, 0x09, (0x0F : BitVec 8)] := by decide

theorem witness_IdleBlockKeepsItsState : State.reset.host = [] := by decide

/-- Both clauses: a word read and a byte read, each with a next state. -/
theorem witness_HostReadsHaveNoSideEffect :
    (nextIs (step (withAccess (.readWord 0x0004) State.reset)) (fun _ => true)
      && nextIs (step (withAccess (.readByte 0x01000000) State.reset)) (fun _ => true)) = true := by decide

/-- A reset pending while a command is said to run. -/
theorem witness_PlatformResetReturnsToReset :
    (withAccess .platformReset { State.reset with busy := true }).host = .platformReset :: [] := by decide

/-- The clauses at the ends of their ranges. -/
theorem witness_HostReadsTheRegisters :
    State.reset.busy = false
      ∧ (withAccess (.readWord (0 + 0x0400)) State.reset).host = .readWord (State.reset.params.regBase + 0x0400) :: []
      ∧ (0x0400 = 0x0400 + 4 * (0x00 : Byte).toNat) ∧ (0x07FC = 0x0400 + 4 * (0xFF : Byte).toNat)
      ∧ (0x0024 % 4 = 0 ∧ 0x0024 ≤ 0x0024) ∧ (0x03FC % 4 = 0 ∧ 0x03FC ≤ 0x03FC)
      ∧ (0x0C00 % 4 = 0 ∧ 0x0C00 ≤ 0x0C00) ∧ (0x0FFC % 4 = 0 ∧ 0x0FFC ≤ 0x0FFC) := by decide

/-- A full NODE, so that record 510 is a tree record. -/
def fullNodeState : State :=
  { State.reset with
    treeValid := true
    nnode := 511
    node := { cells := [(0, { leaf := true, sym := 1, freq := 2, left := 0, right := 0 }),
      (510, { leaf := false, sym := 0, freq := 7, left := 1, right := 2 })], epoch := 0 } }

/-- Both ends of NODE, both clauses. -/
theorem witness_NodeWindowShowsTheRecord :
    fullNodeState.busy = false ∧ fullNodeState.treeValid = true
      ∧ (0 < fullNodeState.nnode.toNat ∧ (510 : NodeIdx).toNat < fullNodeState.nnode.toNat)
      ∧ (510 : NodeIdx).toNat < 511
      ∧ fullNodeState.node.get? (510 : NodeIdx).toNat
        = some { leaf := false, sym := 0, freq := 7, left := 1, right := 2 }
      ∧ fullNodeState.node.get? (0 : NodeIdx).toNat
        = some { leaf := true, sym := 1, freq := 2, left := 0, right := 0 }
      ∧ (withAccess (.readWord 0x1FF0) fullNodeState).host
        = .readWord (fullNodeState.params.regBase + 0x1000 + 8 * (510 : NodeIdx).toNat) :: []
      ∧ (withAccess (.readWord 0x1FF4) fullNodeState).host
        = .readWord (fullNodeState.params.regBase + 0x1004 + 8 * (510 : NodeIdx).toNat) :: [] := by decide

/-- A LUT with the records of the first and the last symbol. -/
def endsLutState : State :=
  { State.reset with
    lutValid := true
    lut := { cells := [(0, lutEntryOf [true]), (255, lutEntryOf [false, true])], epoch := 0 } }

/-- Both ends of LUT, both clauses, the last code word. -/
theorem witness_LutWindowShowsTheCode :
    endsLutState.busy = false ∧ endsLutState.lutValid = true
      ∧ endsLutState.lut.get? (0x00 : Byte).toNat = some (lutEntryOf [true])
      ∧ endsLutState.lut.get? (0xFF : Byte).toNat = some (lutEntryOf [false, true])
      ∧ (withAccess (.readWord 0x0BFC) endsLutState).host
        = .readWord (endsLutState.params.regBase + 0x0800 + 4 * (0xFF : Byte).toNat) :: []
      ∧ (withAccess (.readWord 0x3FFC) endsLutState).host
        = .readWord (endsLutState.params.regBase + 0x2000 + 32 * (0xFF : Byte).toNat + 4 * 7) :: [] := by decide

/-- Each of the three clauses at an end of its range, and the record after the last of a valid tree. -/
theorem witness_WindowsOfInvalidTablesGiveAFreeWord :
    State.reset.busy = false
      ∧ (withAccess (.readWord 0x1FF4) State.reset).host = .readWord (State.reset.params.regBase + 0x1FF4) :: []
      ∧ (0x1FF4 % 4 = 0 ∧ 0x1000 ≤ 0x1FF4 ∧ 0x1FF4 < 0x1FF8 ∧ State.reset.treeValid = false)
      ∧ ((treeState shape3).treeValid = true ∧ (treeState shape3).nnode.toNat ≤ (0x1028 - 0x1000) / 8)
      ∧ (0x0800 % 4 = 0 ∧ 0x0800 ≤ 0x0BFC ∧ 0x0BFC < 0x0C00 ∧ State.reset.lutValid = false)
      ∧ (0x3FFC % 4 = 0 ∧ 0x2000 ≤ 0x3FFC ∧ 0x3FFC < 0x4000) := by decide

/-- The three registers, the read-only STATUS and the last offset. -/
theorem witness_HostWritesOnlyTheThreeRegisters :
    State.reset.busy = false
      ∧ (withAccess (.writeWord 0x3FFC 9) State.reset).host = .writeWord (State.reset.params.regBase + 0x3FFC) 9 :: []
      ∧ (∀ off ∈ [0x0004, 0x0008, 0x0010, 0x0014, 0x3FFC], off % 4 = 0 ∧ off < 0x4000 ∧ off ≠ 0) := by decide

/-- A busy state, and each clause's access. -/
theorem witness_BusyBlockIgnoresWrites :
    { State.reset with busy := true }.busy = true
      ∧ (0x3FFC % 4 = 0 ∧ 0x3FFC < 0x4000)
      ∧ (withAccess (.writeWord 0x3FFC 1) { State.reset with busy := true }).host
        = .writeWord (State.reset.params.regBase + 0x3FFC) 1 :: []
      ∧ placeOf Params.suggested 0x0100FFFF = .buffer .ibuf 0xFFFF
      ∧ (withAccess (.readWord 4) { State.reset with busy := true }).host
        = .readWord (State.reset.params.regBase + 0x0004) :: [] := by decide

/-- The last byte of each space, and both accesses. -/
theorem witness_HostBytesAreStoredAndReadBack :
    State.reset.params.wellFormed = true ∧ State.reset.busy = false
      ∧ (0xFFFF < State.reset.params.ibufCap ∧ 0xFFFF < State.reset.params.obufCap ∧ 255 < State.reset.params.extCap)
      ∧ (withAccess (.writeByte 0x80FF 5) State.reset).host
        = .writeByte (bufBase State.reset.params .extbuf + 255) 5 :: []
      ∧ (withAccess (.readByte 0x0200FFFF) State.reset).host
        = .readByte (bufBase State.reset.params .obuf + 0xFFFF) :: [] := by decide

/-- An address for each clause: a misaligned offset, a buffer byte, a register, the first address after REG. -/
theorem witness_WrongHostAccessesStop :
    (placeOf Params.suggested 0x3FFF = .reg 0x3FFF ∧ 0x3FFF % 4 ≠ 0)
      ∧ placeOf Params.suggested 0x01000000 = .buffer .ibuf 0
      ∧ placeOf Params.suggested 0 = .reg 0 ∧ placeOf Params.suggested 0x4000 = .outside
      ∧ (withAccess (.readWord 0x4000) State.reset).host = .readWord 0x4000 :: [] := by decide

/-- The last place where four bytes fit. -/
theorem witness_IntegersAreLittleEndian :
    (State.reset.setOpos 65532).seq.opos + 4 ≤ (State.reset.setOpos 65532).params.obufCap := by decide

theorem witness_CountCompletes :
    (inputState [0x41]).inLen ≠ 0 ∧ (inputState [0x41]).inLen.toNat ≤ (inputState [0x41]).params.ibufCap := by decide

/-- Two COUNTs that complete, on permuted inputs. -/
theorem witness_CountResultLaw :
    nextIs (exec .count (inputState [1, 2, 1])) (fun t => t.err == false) = true
      ∧ nextIs (exec .count (inputState [1, 1, 2])) (fun t => t.err == false) = true
      ∧ (inputState [1, 1, 2]).input.Perm (inputState [1, 2, 1]).input := by decide

/-- Both clauses, the first at the first length above IBUF_CAP. -/
theorem witness_CountErrors :
    State.reset.params.ibufCap < { State.reset with inLen := 65537 }.inLen.toNat ∧ State.reset.inLen = 0 := by decide

theorem present_of_freqOf {s : State} {sym : Byte} (h : s.freqOf sym ≠ 0) : present s ≠ [] := by
  have hm : sym ∈ present s := by
    refine List.mem_filter.mpr ⟨List.mem_map.mpr ⟨sym.toNat, List.mem_range.mpr sym.isLt, ?_⟩, by simpa using h⟩
    simp
  exact List.ne_nil_of_mem hm

/-- Two counts, so that there is a leaf and an internal node. -/
theorem witness_BuildNumbersLeavesBySymbol : present (freqState [(0x00, 1), (0xFF, 3)]) ≠ [] :=
  present_of_freqOf (sym := 0xFF) (by decide)

theorem witness_BuildMergesTheTwoSmallestKeys :
    present (freqState [(0x00, 1), (0xFF, 3)]) ≠ []
      ∧ nextIs (exec .build (freqState [(0x00, 1), (0xFF, 3)]))
        (fun t => decide (t.nleaf.toNat ≤ (2 : NodeIdx).toNat) && decide ((2 : NodeIdx).toNat < t.nnode.toNat))
        = true :=
  ⟨present_of_freqOf (sym := 0xFF) (by decide), by decide +kernel⟩

theorem witness_BuildMakesATreeOfTheSymbols : present (freqState [(0x00, 0xFFFFFFFF), (0x01, 1)]) ≠ [] :=
  present_of_freqOf (sym := 0x01) (by decide)

theorem witness_BuildFrequenciesDoNotDecrease :
    (freqState [(0, 1), (1, 1), (2, 1)]).freqSum < 2 ^ 32
      ∧ nextIs (exec .build (freqState [(0, 1), (1, 1), (2, 1)]))
        (fun t => t.err == false && decide (t.nleaf.toNat ≤ (3 : NodeIdx).toNat)
          && decide ((4 : NodeIdx).toNat < t.nnode.toNat)) = true := by decide +kernel

theorem witness_BuildOfNothingIsEmptyInput : ∀ sym, State.reset.freqOf sym = 0 := by
  intro sym
  simp [State.freqOf, State.reset, State.resetWith]

theorem treeOf_shape3 : TreeOf (treeState shape3) (shape3.numbered 0) := by decide

/-- A tree with a repeated symbol, and the tree of one leaf. -/
theorem witness_GencodesTabulatesTheTree :
    ((treeState shape3).treeValid = true ∧ TreeOf (treeState shape3) (shape3.numbered 0))
      ∧ ((treeState (.leaf 0x41)).treeValid = true
        ∧ TreeOf (treeState (.leaf 0x41)) (Shape.numbered 0 (.leaf 0x41)))
      ∧ TreeOf (treeState (.node (.leaf 0x41) (.leaf 0x41)))
        (Shape.numbered 0 (.node (.leaf 0x41) (.leaf 0x41))) := by decide

theorem witness_CountedSymbolsGetPrefixFreeCodes :
    (inputState [1, 2]).inLen ≠ 0 ∧ (inputState [1, 2]).inLen.toNat ≤ (inputState [1, 2]).params.ibufCap := by decide

/-- OBUF holds exactly the tree's bytes. -/
theorem witness_SerializeWritesThePreorderBytes :
    (capped 8 (treeState shape3)).treeValid = true ∧ TreeOf (capped 8 (treeState shape3)) (shape3.numbered 0)
      ∧ 3 * (capped 8 (treeState shape3)).nleaf.toNat - 1 ≤ (capped 8 (treeState shape3)).params.obufCap := by decide

/-- One byte less. -/
theorem witness_SerializeBeyondObufIsResource :
    (capped 7 (treeState shape3)).treeValid = true ∧ TreeOf (capped 7 (treeState shape3)) (shape3.numbered 0)
      ∧ (capped 7 (treeState shape3)).params.obufCap < 3 * (capped 7 (treeState shape3)).nleaf.toNat - 1 := by decide

theorem witness_DeserializeBuildsThePreorderTree :
    State.reset.params.flagInternal ≠ State.reset.params.flagLeaf
      ∧ (inputState [0x30, 0x31, 0x41, 0x31, 0x41]).inLen.toNat ≤ State.reset.params.ibufCap
      ∧ (Shape.node (.leaf 0x41) (.leaf 0x41)).numNodes ≤ 511
      ∧ (inputState [0x30, 0x31, 0x41, 0x31, 0x41]).input
        = (Shape.node (.leaf 0x41) (.leaf 0x41)).serial State.reset.params.flagInternal State.reset.params.flagLeaf := by
  decide

/-- The empty input: no tree has an empty encoding. -/
theorem witness_OtherTreeBytesAreCorrupt :
    State.reset.inLen.toNat ≤ State.reset.params.ibufCap
      ∧ ∀ shape : Shape, shape.numNodes ≤ 511 →
        State.reset.input ≠ shape.serial State.reset.params.flagInternal State.reset.params.flagLeaf := by
  refine ⟨by decide, fun shape _ h => ?_⟩
  cases shape <;> cases h

theorem witness_TreeCodecRoundTrip :
    (treeState shape3).params.wellFormed = true ∧ (treeState shape3).treeValid = true
      ∧ TreeOf (treeState shape3) (shape3.numbered 0)
      ∧ 3 * (treeState shape3).nleaf.toNat - 1 ≤ (treeState shape3).params.obufCap
      ∧ 3 * (treeState shape3).nleaf.toNat - 1 ≤ (treeState shape3).params.ibufCap := by decide

/-- OBUF holds exactly the two bytes of V34. -/
theorem witness_PackLaysTheCodesEndToEnd :
    (capped 2 (packState aaaaabbc)).lutValid = true
      ∧ (capped 2 (packState aaaaabbc)).inLen.toNat ≤ (capped 2 (packState aaaaabbc)).params.ibufCap
      ∧ (capped 2 (packState aaaaabbc)).params.obufCap < 2 ^ 32
      ∧ (∀ b ∈ (capped 2 (packState aaaaabbc)).input, ((capped 2 (packState aaaaabbc)).lutRead b).len ≠ 0)
      ∧ ((capped 2 (packState aaaaabbc)).payloadBits.length + 7) / 8
        ≤ (capped 2 (packState aaaaabbc)).params.obufCap := by decide +kernel

/-- The three clauses: a byte without a code, a full byte without room, a partly filled byte without room. -/
theorem witness_PackErrorsInInputOrder :
    ((packState [0x41, 0x44]).lutValid = true
        ∧ (packState [0x41, 0x44]).inLen.toNat ≤ (packState [0x41, 0x44]).params.ibufCap
        ∧ (packState [0x41, 0x44]).input = [0x41] ++ 0x44 :: []
        ∧ (∀ b ∈ [(0x41 : Byte)], ((packState [0x41, 0x44]).lutRead b).len ≠ 0)
        ∧ ((packState [0x41, 0x44]).lutRead 0x44).len = 0
        ∧ ((packState [0x41, 0x44]).bitsFor [0x41]).length / 8 ≤ (packState [0x41, 0x44]).params.obufCap)
      ∧ ((capped 1 (packState aaaaabbc)).input = aaaaabbc ++ []
        ∧ (∀ b ∈ aaaaabbc, ((capped 1 (packState aaaaabbc)).lutRead b).len ≠ 0)
        ∧ (capped 1 (packState aaaaabbc)).params.obufCap
          < (((capped 1 (packState aaaaabbc)).bitsFor aaaaabbc).length + 7) / 8)
      ∧ (capped 0 (packState aaaaabbc)).params.obufCap
        < ((capped 0 (packState aaaaabbc)).bitsFor aaaaabbc).length / 8 := by decide +kernel

/-- OBUF holds exactly the symbols. -/
theorem witness_UnpackDecodesTotalSymbols :
    (capped 8 (unpackState [0xFA, 0x80] 8)).treeValid = true
      ∧ TreeOf (capped 8 (unpackState [0xFA, 0x80] 8)) (shape3.numbered 0)
      ∧ (capped 8 (unpackState [0xFA, 0x80] 8)).inLen.toNat ≤ (capped 8 (unpackState [0xFA, 0x80] 8)).params.ibufCap
      ∧ (capped 8 (unpackState [0xFA, 0x80] 8)).total.toNat ≤ (capped 8 (unpackState [0xFA, 0x80] 8)).params.obufCap
      ∧ (shape3.numbered 0).shape.decode (capped 8 (unpackState [0xFA, 0x80] 8)).total.toNat
        (bitsOf (capped 8 (unpackState [0xFA, 0x80] 8)).input) = some aaaaabbc := by decide

/-- V44 (the bits run out) and V52 (the fifth symbol has no room). -/
theorem witness_UnpackErrorsInDecodeOrder :
    ((unpackState [0xFE] 8).treeValid = true ∧ TreeOf (unpackState [0xFE] 8) (shape3.numbered 0)
        ∧ (unpackState [0xFE] 8).inLen.toNat ≤ (unpackState [0xFE] 8).params.ibufCap
        ∧ (shape3.numbered 0).shape.decode (unpackState [0xFE] 8).total.toNat (bitsOf (unpackState [0xFE] 8).input)
          = none
        ∧ (shape3.numbered 0).shape.decode (4 + 4) (bitsOf (unpackState [0xFE] 8).input) = none)
      ∧ ((capped 4 (unpackState [0xFA, 0x80] 8)).params.obufCap < (capped 4 (unpackState [0xFA, 0x80] 8)).total.toNat
        ∧ (shape3.numbered 0).shape.decode ((capped 4 (unpackState [0xFA, 0x80] 8)).params.obufCap + 1)
          (bitsOf (capped 4 (unpackState [0xFA, 0x80] 8)).input) ≠ none) := by decide

/-- The table state of a tree holds its table (R32). -/
theorem tableOf_packState (l : List Byte) : TableOf (packState l) shape3 := by
  have h : ∀ i < 256, lookupCell i ((List.range 256).map fun i => (i, shape3.lutEntry (BitVec.ofNat 8 i)))
      = some (shape3.lutEntry (BitVec.ofNat 8 i)) := by decide +kernel
  intro sym
  have hs := h sym.toNat sym.isLt
  rw [BitVec.ofNat_toNat, BitVec.setWidth_eq] at hs
  exact hs

theorem witness_UnpackInvertsPack :
    ((packState aaaaabbc).params.wellFormed = true ∧ (packState aaaaabbc).treeValid = true
        ∧ (packState aaaaabbc).lutValid = true ∧ TreeOf (packState aaaaabbc) (shape3.numbered 0)
        ∧ (shape3.numbered 0).shape.symbols.Nodup
        ∧ (∀ b ∈ (packState aaaaabbc).input, b ∈ (shape3.numbered 0).shape.symbols)
        ∧ (packState aaaaabbc).inLen.toNat ≤ (packState aaaaabbc).params.ibufCap
        ∧ (packState aaaaabbc).inLen.toNat ≤ (packState aaaaabbc).params.obufCap
        ∧ ((packState aaaaabbc).payloadBits.length + 7) / 8 ≤ (packState aaaaabbc).params.obufCap
        ∧ ((packState aaaaabbc).payloadBits.length + 7) / 8 ≤ (packState aaaaabbc).params.ibufCap)
      ∧ TableOf (packState aaaaabbc) (shape3.numbered 0).shape :=
  ⟨by decide +kernel, tableOf_packState aaaaabbc⟩

theorem witness_CompressCompletes :
    (inputState [0x41, 0x42]).params.wellFormed = true ∧ (inputState [0x41, 0x42]).inLen ≠ 0
      ∧ (inputState [0x41, 0x42]).inLen.toNat ≤ (inputState [0x41, 0x42]).params.ibufCap
      ∧ (inputState [0x41, 0x42]).extLen.toNat ≤ (inputState [0x41, 0x42]).params.extCap
      ∧ 786 + (inputState [0x41, 0x42]).extLen.toNat + 32 * (inputState [0x41, 0x42]).inLen.toNat
        ≤ (inputState [0x41, 0x42]).params.obufCap := by decide

/-- The next state where there is one, else the state itself. -/
def after (i : Instr) (s : State) : State :=
  match exec i s with
  | .next t => t
  | .fault _ => s
  | .refused _ => s

/-- A run of component commands in which every one succeeds. -/
theorem witness_CompressIsTheComponentsInOrder :
    let s := withExt [0x74] (inputState [0x41, 0x42])
    let t := after .count s
    let u := after .build t
    let v := after .gencodes u
    (s.params.wellFormed = true ∧ s.extLen.toNat ≤ s.params.extCap)
      ∧ nextIs (exec .count s) (fun x => x.err == false) = true
      ∧ nextIs (exec .build t) (fun x => x.err == false) = true
      ∧ nextIs (exec .gencodes u) (fun x => x.err == false) = true
      ∧ nextIs (exec .serialize v) (fun x => x.err == false && x.outLen == 5) = true
      ∧ nextIs (exec .pack v) (fun x => x.err == false && x.outLen == 1) = true
      ∧ 19 + s.extLen.toNat + 5 + 1 ≤ s.params.obufCap := by decide +kernel

/-- The four clauses: the third at the first length above EXT_CAP, the fourth with OBUF one byte short of V55's file. -/
theorem witness_CompressErrors :
    State.reset.params.ibufCap < { State.reset with inLen := 65537 }.inLen.toNat ∧ State.reset.inLen = 0
      ∧ ({ inputState [0x41] with extLen := 257 }.inLen ≠ 0
        ∧ { inputState [0x41] with extLen := 257 }.inLen.toNat ≤ State.reset.params.ibufCap
        ∧ State.reset.params.extCap < { inputState [0x41] with extLen := 257 }.extLen.toNat)
      ∧ (let s := capped 21 (inputState [0x41, 0x41, 0x41])
        let a := after .count s
        let b := after .build a
        let v := after .gencodes b
        (s.inLen ≠ 0 ∧ s.inLen.toNat ≤ s.params.ibufCap ∧ s.extLen.toNat ≤ s.params.extCap)
          ∧ nextIs (exec .count s) (fun x => x.err == false) = true
          ∧ nextIs (exec .build a) (fun x => x.err == false) = true
          ∧ nextIs (exec .gencodes b) (fun x => x.err == false) = true
          ∧ s.params.obufCap < 19 + s.extLen.toNat + (3 * v.nleaf.toNat - 1) + (v.payloadBits.length + 7) / 8) := by
  decide +kernel

/-- The same input beside different tables, results and base addresses. -/
def movedState : State :=
  { loadInput [0x41] (treeState shape3) with
    params := { Params.suggested with regBase := 0x10000000, obufBase := 0x20000000 } }

theorem witness_CompressIsPure :
    movedState.params ≠ (inputState [0x41]).params
      ∧ movedState.params.ibufCap = (inputState [0x41]).params.ibufCap
      ∧ movedState.params.obufCap = (inputState [0x41]).params.obufCap
      ∧ movedState.params.extCap = (inputState [0x41]).params.extCap
      ∧ movedState.params.flagInternal = (inputState [0x41]).params.flagInternal
      ∧ movedState.params.flagLeaf = (inputState [0x41]).params.flagLeaf
      ∧ movedState.inLen = (inputState [0x41]).inLen ∧ movedState.extLen = (inputState [0x41]).extLen
      ∧ movedState.input = (inputState [0x41]).input ∧ movedState.extension = (inputState [0x41]).extension
      ∧ nextIs (exec .compress (inputState [0x41])) (fun t => t.err == false) = true := by decide +kernel

theorem witness_DecompressReadsAWellFormedFile :
    (inputState file54).params.wellFormed = true
      ∧ (inputState file54).inLen.toNat ≤ (inputState file54).params.ibufCap
      ∧ (inputState file54).input = fileOf (inputState file54).params [0x74, 0x78, 0x74] shape3 8 [0xFA, 0x80]
      ∧ [(0x74 : Byte), 0x78, 0x74].length ≤ (inputState file54).params.extCap
      ∧ shape3.numNodes ≤ 511 ∧ (8 : Word).toNat < 2 ^ 31
      ∧ (8 : Word).toNat ≤ (inputState file54).params.obufCap
      ∧ shape3.decode (8 : Word).toNat (bitsOf [0xFA, 0x80]) = some aaaaabbc := by decide +kernel

/-- Rows 2 and 3 of R222, and row 7 (V63's twin on the reading side: an extension longer than EXT_CAP). -/
theorem witness_DecompressReportsTheFirstHeaderError :
    firstFailing (headerChecks (inputState [0x48])) = some .badMagic
      ∧ firstFailing (headerChecks (inputState (0x49 :: file54))) = some .badMagic
      ∧ firstFailing (headerChecks
          { inputState file54 with params := { Params.suggested with extCap := 2 } }) = some .resource := by
  decide +kernel

/-- A file of magic, no extension, tree bytes, and what follows them. -/
def fileWith (tree rest : List Byte) : List Byte :=
  magicBytes ++ [0, 0, 0, 0] ++ le32 (BitVec.ofNat 32 tree.length) ++ tree ++ rest

/-- The hypotheses that all clauses share, for a file without extension. -/
def laterErrorsReady (s : State) (k : Nat) : Bool :=
  s.params.wellFormed && decide (firstFailing (headerChecks s) = none)
    && decide (s32 (s.memRead4 .ibuf 7) = ((0 : Nat) : Int)) && decide (s32 (s.memRead4 .ibuf 11) = (k : Int))

/-- Row 11 (no tree bytes at all), row 12 (no totalChars field), row 14 (no payload), row 15 (OBUF of one byte). -/
theorem witness_DecompressReportsTheLaterErrors :
    (laterErrorsReady (inputState (fileWith [] [])) 0 = true
        ∧ ∀ shape : Shape, shape.numNodes ≤ 511 →
          (inputState (fileWith [] [])).bytes .ibuf 15 0 ≠ shape.serial 0x30 0x31)
      ∧ (laterErrorsReady (inputState (fileWith [0x31, 0x41] [])) 2 = true
        ∧ (inputState (fileWith [0x31, 0x41] [])).bytes .ibuf 15 2 = (Shape.leaf 0x41).serial 0x30 0x31
        ∧ (inputState (fileWith [0x31, 0x41] [])).inLen.toNat < 19 + 2)
      ∧ (laterErrorsReady (inputState (fileWith [0x31, 0x41] [1, 0, 0, 0])) 2 = true
        ∧ 19 + 2 ≤ (inputState (fileWith [0x31, 0x41] [1, 0, 0, 0])).inLen.toNat
        ∧ s32 ((inputState (fileWith [0x31, 0x41] [1, 0, 0, 0])).memRead4 .ibuf 17) = ((1 : Nat) : Int)
        ∧ (Shape.leaf 0x41).decode 1 (bitsOf []) = none)
      ∧ (laterErrorsReady (capped 1 (inputState (fileWith [0x31, 0x41] [2, 0, 0, 0, 0]))) 2 = true
        ∧ s32 ((inputState (fileWith [0x31, 0x41] [2, 0, 0, 0, 0])).memRead4 .ibuf 17) = ((2 : Nat) : Int)
        ∧ (Shape.leaf 0x41).decode (1 + 1) (bitsOf [0x00]) ≠ none) := by
  refine ⟨⟨by decide +kernel, fun shape _ h => ?_⟩, by decide +kernel, by decide +kernel, by decide +kernel⟩
  cases shape <;> cases h

theorem witness_DecompressInvertsCompress :
    (inputState [0x41]).params.wellFormed = true
      ∧ nextIs (exec .compress (inputState [0x41]))
        (fun t => t.err == false && decide (t.outLen.toNat ≤ (inputState [0x41]).params.ibufCap)) = true
      ∧ (inputState [0x41]).inLen.toNat ≤ (inputState [0x41]).params.obufCap := by decide +kernel

/-- The first length above IBUF_CAP, with both tables valid. -/
theorem witness_OversizedInputIsResource :
    { tableState shape3 with inLen := 65537 }.params.ibufCap < { tableState shape3 with inLen := 65537 }.inLen.toNat
      ∧ { tableState shape3 with inLen := 65537 }.lutValid = true
      ∧ { tableState shape3 with inLen := 65537 }.treeValid = true := by decide

theorem witness_MissingTableIsPrecondition : State.reset.treeValid = false ∧ State.reset.lutValid = false := by decide

/-- A command that succeeds and one that fails. -/
theorem witness_CommandsEndByTheErrorMatrix :
    nextIs (exec .nop State.reset) (fun t => t.err == false) = true
      ∧ nextIs (exec .count State.reset) (fun t => t.err == true) = true := by decide

theorem witness_CompositeCommandsLeaveCleanTables :
    nextIs (exec .compress State.reset) (fun t => t.err == true) = true
      ∧ nextIs (exec .decompress (inputState file54)) (fun t => t.err == false) = true := by decide

theorem witness_CommandsKeepTheOtherRegisters :
    nextIs (exec .serialize (treeState shape3)) (fun t => t.err == false) = true
      ∧ nextIs (exec .deserialize (inputState [0x31, 0x41])) (fun t => t.err == false) = true := by decide

theorem witness_CommandsKeepTheOtherBytes :
    (treeState shape3).params.wellFormed = true
      ∧ nextIs (exec .serialize (treeState shape3)) (fun t => t.err == false) = true
      ∧ nextIs (exec .decompress (inputState file54)) (fun t => t.err == false) = true
      ∧ nextIs (exec .count State.reset) (fun t => t.err == true) = true := by decide

theorem witness_ResetMeetsTheInvariant : Params.suggested.wellFormed = true := by decide

/-- The state right after reset meets the invariant. -/
theorem reset_inv : Inv State.reset := by
  refine ⟨by unfold ParamsInv; decide, by unfold MemoryInv; decide, by unfold StoreInv; decide, by unfold IdleInv; decide,
    by unfold StatusInv; decide, by unfold ValidityInv; decide, ?_, by unfold OutputInv; decide, ?_⟩
  · unfold FreqInv
    decide +kernel
  · intro h
    cases h

/-- So does the state with a COUNT pending. -/
theorem count_pending_inv : Inv (withAccess (.writeWord 0 1) State.reset) := by
  refine ⟨by unfold ParamsInv; decide, by unfold MemoryInv; decide, by unfold StoreInv; decide, by unfold IdleInv; decide,
    by unfold StatusInv; decide, by unfold ValidityInv; decide, reset_inv.2.2.2.2.2.2.1, by unfold OutputInv; decide, ?_⟩
  intro h
  cases h

/-- So does a state with a tree, its code table and an input. -/
theorem packState_inv : Inv (packState aaaaabbc) := by
  refine ⟨by unfold ParamsInv; decide, by unfold MemoryInv; decide, by unfold StoreInv; decide +kernel,
    by unfold IdleInv; decide, by unfold StatusInv; decide, ?_, reset_inv.2.2.2.2.2.2.1, by unfold OutputInv; decide, ?_⟩
  · have ht : (packState aaaaabbc).treeValid = true := rfl
    have hl : (packState aaaaabbc).lutValid = true := rfl
    refine ⟨fun _ => ht, fun h => ?_, fun h => ?_⟩
    · rw [ht] at h
      cases h
    · rw [hl] at h
      cases h
  · exact fun _ => ⟨shape3.numbered 0, treeOf_shape3, fun _ => tableOf_packState aaaaabbc⟩

theorem witness_EveryCommandEnds : Inv (packState aaaaabbc) := packState_inv

/-- The invariant holds where a command is pending, and the step answers. -/
theorem witness_StepKeepsTheInvariant :
    Inv (withAccess (.writeWord 0 1) State.reset)
      ∧ nextIs (step (withAccess (.writeWord 0 1) State.reset)) (fun t => t.err == true) = true :=
  ⟨count_pending_inv, by decide⟩

end Sys2Proof.Tests
end

section
/-! SUPPORT. The host port: where an offset of the register region leads (20_memory.md R66), what a word access at it
does (10_state.md R21 to R40), and the statements of 10_state.md about reads, writes and reset that follow. -/

namespace Sys2Proof.Machine

/-! ### The address map -/

/-- The capacity of a buffer (R9). -/
def bufCap (p : Params) : Space → Nat
  | .ibuf => p.ibufCap
  | .obuf => p.obufCap
  | .extbuf => p.extCap

theorem placeOf_regBase_add (p : Params) {off : Nat} (h : off < 0x4000) : placeOf p (p.regBase + off) = .reg off := by
  simp [placeOf, Params.regSize, h]

/-- An address the map gives to a buffer lies within the buffer's capacity (R60, R66). -/
theorem placeOf_buffer_lt {p : Params} {addr a : Nat} {sp : Space} (h : placeOf p addr = .buffer sp a) :
    a < bufCap p sp := by
  simp only [placeOf] at h
  split_ifs at h <;> cases h <;> simp only [bufCap] <;> omega

theorem regAt_freq (sym : Byte) : regAt (0x0400 + 4 * sym.toNat) = .freq sym := by
  have := sym.isLt
  rw [regAt]
  repeat rw [if_neg (by omega)]
  rw [if_pos (by omega)]
  simp

theorem regAt_lutLen (sym : Byte) : regAt (0x0800 + 4 * sym.toNat) = .lutLen sym := by
  have := sym.isLt
  rw [regAt]
  repeat rw [if_neg (by omega)]
  rw [if_pos (by omega)]
  simp

theorem regAt_nodeFreq {i : NodeIdx} (h : i.toNat < 511) : regAt (0x1000 + 8 * i.toNat) = .nodeFreq i := by
  rw [regAt]
  repeat rw [if_neg (by omega)]
  rw [if_pos (by omega), if_pos (by omega)]
  simp

theorem regAt_nodeLinks {i : NodeIdx} (h : i.toNat < 511) : regAt (0x1004 + 8 * i.toNat) = .nodeLinks i := by
  have hi : (0x1004 + 8 * i.toNat - 0x1000) / 8 = i.toNat := by omega
  rw [regAt]
  repeat rw [if_neg (by omega)]
  rw [if_pos (by omega), if_neg (by omega), hi]
  simp

theorem regAt_lutCode (sym : Byte) {k : Nat} (h : k < 8) :
    regAt (0x2000 + 32 * sym.toNat + 4 * k) = .lutCode sym k := by
  have := sym.isLt
  have hs : (0x2000 + 32 * sym.toNat + 4 * k - 0x2000) / 32 = sym.toNat := by omega
  have hk : (0x2000 + 32 * sym.toNat + 4 * k - 0x2000) % 32 / 4 = k := by omega
  rw [regAt]
  repeat rw [if_neg (by omega)]
  rw [if_pos (by omega), hs, hk]
  simp

/-- The unmapped words of the register region (R66). -/
theorem regAt_unmapped {off : Nat} (h : 0x0024 ≤ off ∧ off ≤ 0x03FC ∨ 0x0C00 ≤ off ∧ off ≤ 0x0FFC
    ∨ off = 0x1FF8 ∨ off = 0x1FFC) : regAt off = .unmapped := by
  rw [regAt]
  repeat rw [if_neg (by omega)]

/-- A write at another offset than those of CMD, IN_LEN, TOTAL and EXT_LEN is ignored (R21, R38). -/
theorem writeReg_ignored {off : Nat} (hcmd : off ≠ 0x0000) (hin : off ≠ 0x0008) (htotal : off ≠ 0x0010)
    (hext : off ≠ 0x0014) (v : Word) (s : State) : writeReg (regAt off) v s = .next s := by
  rw [regAt, if_neg hcmd, if_neg hin, if_neg htotal, if_neg hext]
  repeat' refine iteInduction (motive := fun r => writeReg r v s = .next s) (fun _ => ?_) fun _ => ?_
  all_goals rfl

/-! ### One access -/

variable {s : State} {rest : List HostAccess}

theorem step_of_host {a : HostAccess} (h : s.host = a :: rest) : step s = hostAccess a { s with host := rest } := by
  simp only [step, h]

/-- A word read at an aligned offset of the register region (R63, R66). -/
theorem step_readWord {off : Nat} (h : s.host = .readWord (s.params.regBase + off) :: rest) (ha : off % 4 = 0)
    (hl : off < 0x4000) : step s = .next (readReg (regAt off) { s with host := rest }) := by
  simp [step_of_host h, hostAccess, placeOf_regBase_add _ hl, ha]

/-- A word write at an aligned offset of the register region (R40, R63, R66). -/
theorem step_writeWord {off : Nat} {v : Word} (h : s.host = .writeWord (s.params.regBase + off) v :: rest)
    (ha : off % 4 = 0) (hl : off < 0x4000) :
    step s = if s.busy then .next { s with host := rest } else writeReg (regAt off) v { s with host := rest } := by
  simp [step_of_host h, hostAccess, placeOf_regBase_add _ hl, ha]

theorem regWord_with_host (r : RegName) : ({ s with host := rest } : State).regWord r = s.regWord r := by
  cases r <;> rfl

theorem readReg_of_regWord {r : RegName} {v : Word} (hb : s.busy = false) (hv : s.regWord r = some v) :
    readReg r s = s.deliver (.word v) := by
  simp [readReg, hb, hv]

/-- While BUSY = 0 a word read of a register whose value is specified delivers that value and changes nothing else
(R38, R67). -/
theorem step_readWord_of_regWord {off : Nat} {v : Word} (hb : s.busy = false)
    (h : s.host = .readWord (s.params.regBase + off) :: rest) (ha : off % 4 = 0) (hl : off < 0x4000)
    (hv : s.regWord (regAt off) = some v) : step s = .next { s with host := rest, lastRead := some (.word v) } := by
  rw [step_readWord h ha hl, readReg_of_regWord (s := { s with host := rest }) hb ((regWord_with_host _).trans hv)]
  rfl

/-- What a register read may change: the last read and the counter of free words. -/
theorem readReg_frame (r : RegName) (s : State) :
    ∃ d n, readReg r s = { s with lastRead := some d, freeCount := n } := by
  simp only [readReg]
  split
  · exact ⟨_, _, rfl⟩
  · split
    · exact ⟨_, s.freeCount, rfl⟩
    · exact ⟨_, _, rfl⟩

/-- What a buffer read may change: the same. -/
theorem readBuffer_frame (sp : Space) (a : Nat) (s : State) :
    ∃ d n, readBuffer sp a s = { s with lastRead := some d, freeCount := n } := by
  simp only [readBuffer]
  split
  · exact ⟨_, _, rfl⟩
  · exact ⟨_, s.freeCount, rfl⟩

/-- A host read that answers a next state (R67). -/
theorem step_read_frame {t : State} {addr : Nat} (h : s.host = .readWord addr :: rest ∨ s.host = .readByte addr :: rest)
    (ht : step s = .next t) : ∃ d n, t = { s with host := rest, lastRead := some d, freeCount := n } := by
  rcases h with h | h
  · rw [step_of_host h] at ht
    simp only [hostAccess] at ht
    split at ht
    · rename_i off _
      split at ht
      · cases ht; exact readReg_frame (regAt off) { s with host := rest }
      · cases ht
    · cases ht
    · cases ht
  · rw [step_of_host h] at ht
    simp only [hostAccess] at ht
    split at ht
    · cases ht
    · rename_i sp a _
      cases ht; exact readBuffer_frame sp a { s with host := rest }
    · cases ht

/-! ### STATUS -/

/-- Settles O12, field by field of the concatenation. -/
theorem statusFieldsStandAtTheirBits : Obligations.StatusFieldsStandAtTheirBits := by
  intro s
  simp only [State.statusWord, BitVec.getLsbD_append, BitVec.extractLsb'_append_eq_ite]
  simp [bit1]

theorem linkWord_fields (r : NodeRec) :
    (linkWord r).extractLsb' 27 5 = 0 ∧ (linkWord r).getLsbD 26 = r.leaf ∧ (linkWord r).extractLsb' 18 8 = r.sym
    ∧ (linkWord r).extractLsb' 9 9 = r.right ∧ (linkWord r).extractLsb' 0 9 = r.left := by
  simp only [linkWord, BitVec.getLsbD_append, BitVec.extractLsb'_append_eq_ite]
  simp [bit1]

theorem codeWord_getLsbD (e : LutEntry) {k j : Nat} (hk : k < 8) (hj : j < 32) :
    (codeWord e k).getLsbD (31 - j) = e.code.getLsbD (255 - (32 * k + j)) := by
  have h : 224 - 32 * k + (31 - j) = 255 - (32 * k + j) := by omega
  simp only [codeWord, BitVec.getLsbD_extractLsb', h, show 31 - j < 32 by omega, decide_true, Bool.true_and]

/-- The word a read of STATUS gives while BUSY = 1 (R38, R40). -/
theorem busyStatusWord_fields (free : Word) :
    (busyStatusWord free).getLsbD 0 = true ∧ (busyStatusWord free).extractLsb' 5 3 = 0
    ∧ (busyStatusWord free).extractLsb' 12 20 = 0 := by
  simp [busyStatusWord, BitVec.extractLsb'_or, BitVec.extractLsb'_and]

/-! ### The statements -/

/-- Settles O1: each clause reads a field of the reset state. -/
theorem resetLeavesTheStatedValues : Obligations.ResetLeavesTheStatedValues := by
  refine ⟨⟨_, rfl⟩, fun p => ?_⟩
  have hfreq : ∀ sym, (State.resetWith p).freqOf sym = 0 := fun sym => Vector.getElem_replicate _
  have hstatus : (State.resetWith p).statusWord = 0 := by
    simp [State.statusWord, State.resetWith, bit1]
  exact ⟨rfl, rfl, rfl, rfl, hstatus, rfl, rfl, rfl, rfl, ⟨hfreq, rfl, rfl, rfl, rfl, rfl⟩, rfl, fun _ => rfl,
    fun _ => rfl, fun sp => by cases sp <;> exact fun _ => rfl⟩

/-- Settles O6. CMD stands at offset 0 of the register region. -/
theorem stepRunsTheDecodedCommand : Obligations.StepRunsTheDecodedCommand := by
  intro s w rest i hb hhost hdec
  rw [step_writeWord (off := 0) hhost rfl (by decide), hb]
  simp [regAt, writeReg, startCommand, hdec]

/-- Settles O10, by what a register read and a buffer read may change. -/
theorem hostReadsHaveNoSideEffect : Obligations.HostReadsHaveNoSideEffect := by
  intro s t addr rest hhost ht
  obtain ⟨d, n, rfl⟩ := step_read_frame hhost ht
  rfl

/-- Settles O11: each offset is aligned, lies in the region and names the register whose word is `v`. -/
theorem hostReadsTheRegisters : Obligations.HostReadsTheRegisters := by
  intro s off rest v hb hhost hoff
  suffices h : off % 4 = 0 ∧ off < 0x4000 ∧ s.regWord (regAt off) = some v from
    step_readWord_of_regWord hb hhost h.1 h.2.1 h.2.2
  rcases hoff with ⟨rfl, rfl⟩ | ⟨rfl, rfl⟩ | ⟨rfl, rfl⟩ | ⟨rfl, rfl⟩ | ⟨rfl, rfl⟩ | ⟨rfl, rfl⟩ | ⟨rfl, rfl⟩ | ⟨rfl, rfl⟩
    | ⟨rfl, rfl⟩ | ⟨sym, rfl, rfl⟩ | ⟨ha, hlo, hhi, rfl⟩ | ⟨ha, hlo, hhi, rfl⟩ | ⟨hoff, rfl⟩
  iterate 9 exact ⟨rfl, by decide, rfl⟩
  · have := sym.isLt
    exact ⟨by omega, by omega, by rw [regAt_freq]; rfl⟩
  · exact ⟨ha, by omega, by rw [regAt_unmapped (.inl ⟨hlo, hhi⟩)]; rfl⟩
  · exact ⟨ha, by omega, by rw [regAt_unmapped (.inr (.inl ⟨hlo, hhi⟩))]; rfl⟩
  · exact ⟨by omega, by omega, by rw [regAt_unmapped (.inr (.inr hoff))]; rfl⟩

/-- Settles O13: the two window offsets name the words of record `i`, which the window shows. -/
theorem nodeWindowShowsTheRecord : Obligations.NodeWindowShowsTheRecord := by
  intro s i r rest hb htree hi hcap hr
  have hwin : s.windowNode i = some r := by
    simp [State.windowNode, htree, hi, State.nodeRead, Store.read_of_get? _ hr]
  refine ⟨fun hhost => ?_, fun hhost => ⟨linkWord r, ?_, linkWord_fields r⟩⟩
  · rw [Nat.add_assoc] at hhost
    exact step_readWord_of_regWord hb hhost (by omega) (by omega) (by
      rw [regAt_nodeFreq hcap, State.regWord, hwin]; rfl)
  · rw [Nat.add_assoc] at hhost
    exact step_readWord_of_regWord hb hhost (by omega) (by omega) (by
      rw [regAt_nodeLinks hcap, State.regWord, hwin]; rfl)

/-- Settles O14: the window offsets name the words of the record of `sym`, which the window shows. -/
theorem lutWindowShowsTheCode : Obligations.LutWindowShowsTheCode := by
  intro s sym e rest hb hvalid he
  have := sym.isLt
  have hwin : s.windowLut sym = some e := by
    simp [State.windowLut, hvalid, State.lutRead, Store.read_of_get? _ he]
  refine ⟨fun hhost => ?_, fun k hk hhost => ⟨codeWord e k, ?_, fun j hj => codeWord_getLsbD e hk hj⟩⟩
  · rw [Nat.add_assoc] at hhost
    exact step_readWord_of_regWord hb hhost (by omega) (by omega) (by
      rw [regAt_lutLen, State.regWord, hwin]; rfl)
  · rw [Nat.add_assoc, Nat.add_assoc, ← Nat.add_assoc 0x2000] at hhost
    exact step_readWord_of_regWord hb hhost (by omega) (by omega) (by
      rw [regAt_lutCode sym hk, State.regWord, hwin]; rfl)

/-- Settles O16: the three offsets whose registers store, and the rest. -/
theorem hostWritesOnlyTheThreeRegisters : Obligations.HostWritesOnlyTheThreeRegisters := by
  intro s off v rest hb ha hl hcmd hhost
  rw [step_writeWord hhost ha hl, hb]
  by_cases hin : off = 0x0008
  · subst hin; rfl
  by_cases htotal : off = 0x0010
  · subst htotal; rfl
  by_cases hext : off = 0x0014
  · subst hext; rfl
  simp [writeReg_ignored hcmd hin htotal hext, hin, htotal, hext]

/-- Settles O17, by the busy branch of each access. -/
theorem busyBlockIgnoresWrites : Obligations.BusyBlockIgnoresWrites := by
  intro s rest hb
  refine ⟨fun off v ha hl hhost => ?_, fun addr b sp a hhost hplace => ?_, fun hhost => ?_⟩
  · rw [step_writeWord hhost ha hl, hb]
    rfl
  · simp only [step_of_host hhost, hostAccess, hplace, hb, if_true]
  · obtain ⟨hbusy, hlow, hhigh⟩ := busyStatusWord_fields (Config.freeWord s.freeCount)
    refine ⟨_, hbusy, hlow, hhigh, ?_⟩
    rw [step_readWord hhost rfl (by decide), readReg]
    simp [hb, regAt, State.takeFree, State.deliver]

end Sys2Proof.Machine

end

section
/-! SUPPORT. What a command leaves of the registers and tables (30_encoding.md R93): the statement as a relation, kept
by both ends of a command and met by every command's body. -/

namespace Sys2Proof.Machine

variable {s t u : State}

/-! ### Frames of the shared bodies -/

/-- From `s` to `t` only FREQ, TOTAL, the two tables with their registers and flags, and the transient state may
differ. -/
def OnlyTables (s t : State) : Prop :=
  ∃ f c m r l n v k w q, t = { s with
    freq := f, total := c, node := m, root := r, nleaf := l, nnode := n, treeValid := v, lut := k, lutValid := w,
    seq := q }

theorem OnlyTables.refl (s : State) : OnlyTables s s := ⟨_, _, _, _, _, _, _, _, _, _, rfl⟩

theorem OnlyTables.trans (h : OnlyTables s t) (k : OnlyTables t u) : OnlyTables s u := by
  obtain ⟨_, _, _, _, _, _, _, _, _, _, rfl⟩ := h
  obtain ⟨_, _, _, _, _, _, _, _, _, _, rfl⟩ := k
  exact ⟨_, _, _, _, _, _, _, _, _, _, rfl⟩

theorem OnlyTree.onlyTables (h : OnlyTree s t) : OnlyTables s t := by
  obtain ⟨_, _, _, _, _, _, rfl⟩ := h
  exact ⟨_, _, _, _, _, _, _, _, _, _, rfl⟩

theorem OnlyTable.onlyTables (h : OnlyTable s t) : OnlyTables s t := by
  obtain ⟨_, _, _, rfl⟩ := h
  exact ⟨_, _, _, _, _, _, _, _, _, _, rfl⟩

theorem setPhase_onlyTables (p : Phase) (s : State) : OnlyTables s (s.setPhase p) :=
  ⟨_, _, _, _, _, _, _, _, _, _, rfl⟩

theorem cleanTables_onlyTables (s : State) : OnlyTables s s.cleanTables := ⟨_, s.total, _, _, _, _, _, _, _, _, rfl⟩

theorem clearTotal_onlyTables (s : State) : OnlyTables s s.clearTotal := ⟨_, _, _, _, _, _, _, _, _, _, rfl⟩

/-- Sequencing for OnlyTables. -/
theorem OnlyTables.bind {r : Run} {k : State → Run} (hr : r.All (OnlyTables s))
    (hk : ∀ t, (k t).All (OnlyTables t)) : (r.bind k).All (OnlyTables s) :=
  Run.All.bind hr (fun _ h => h) fun t ht => Run.All.mono (hk t) fun _ hu => ht.trans hu

theorem countBody_onlyTables (s : State) : (countBody s).All (OnlyTables s) := by
  simp only [countBody]
  split
  · exact OnlyTables.refl s
  · split
    · exact OnlyTables.refl s
    · obtain ⟨f, q, h⟩ := countLoop_frame s.inLen.toNat (s.setIpos 0)
      rw [h]
      exact ⟨_, _, _, _, _, _, _, _, _, _, rfl⟩

/-- `buildBody` stands as a variable `build` here, since Lean would else try to run it on all symbols. -/
theorem compressTables_onlyTables (s : State) : (compressTables s).All (OnlyTables s) := by
  unfold compressTables
  have hbuild := @buildBody_onlyTree
  generalize buildBody = build at hbuild ⊢
  refine OnlyTables.bind (countBody_onlyTables s) fun t => OnlyTables.bind ?_ fun u => ?_
  · exact Run.All.mono (hbuild _) fun _ h => (setPhase_onlyTables .build t).trans h.onlyTables
  · exact Run.All.mono (gencodesBody_onlyTable _) fun _ h => (setPhase_onlyTables .gen u).trans h.onlyTables

theorem setPhase_onlyOutput (p : Phase) (s : State) : OnlyOutput s (s.setPhase p) := (OnlyOutput.refl s).of_seq _

theorem setOpos_onlyOutput (a : Nat) (s : State) : OnlyOutput s (s.setOpos a) := (OnlyOutput.refl s).of_seq _

/-- What a run changes from a state that itself differs in OBUF and the transient state only. -/
theorem OnlyOutput.after {r : Run} (h : OnlyOutput s t) (hr : r.All (OnlyOutput t)) : r.All (OnlyOutput s) :=
  Run.All.mono hr fun _ k => h.trans k

theorem compressHeader_onlyOutput (s : State) : (compressHeader s).All (OnlyOutput s) := by
  unfold compressHeader
  split
  · exact OnlyOutput.refl s
  · exact OnlyOutput.bind (OnlyOutput.bind (OnlyOutput.bind
      ((setOpos_onlyOutput 0 s).after (putAll_onlyOutput _ _)) fun t => putAll_onlyOutput _ t)
      fun t => putAll_onlyOutput _ t) fun t => putAll_onlyOutput _ t

theorem compressFile_onlyOutput (s : State) : (compressFile s).All (OnlyOutput s) :=
  OnlyOutput.bind ((setPhase_onlyOutput .hdr s).after (compressHeader_onlyOutput _)) fun t =>
    OnlyOutput.bind ((setPhase_onlyOutput .ser t).after (emitTree_onlyOutput _)) fun u =>
      OnlyOutput.bind ((setPhase_onlyOutput .hdr u).after (putAll_onlyOutput _ _)) fun v =>
        (setPhase_onlyOutput .pack v).after (packRange_onlyOutput _ _ _)

/-! ### The relation -/

/-- The registers and tables that no rule lets the command `i` write are in `t` as in `s`, but for OUT_LEN. -/
def RegistersKept (i : Instr) (s t : State) : Prop :=
  SameEnvironment s t
  ∧ (i ≠ .clear → t.inLen = s.inLen)
  ∧ (i ≠ .decompress → i ≠ .clear → t.extLen = s.extLen)
  ∧ (i ∈ [Instr.nop, .build, .gencodes, .serialize, .deserialize, .pack, .unpack] →
    t.total = s.total ∧ t.freq = s.freq)
  ∧ (i ∈ [Instr.nop, .gencodes, .serialize, .pack, .unpack] →
    t.node = s.node ∧ t.nleaf = s.nleaf ∧ t.nnode = s.nnode ∧ t.root = s.root ∧ t.treeValid = s.treeValid)
  ∧ (i ∈ [Instr.nop, .serialize, .pack, .unpack] → t.lut = s.lut ∧ t.lutValid = s.lutValid)

/-- The commands that leave OUT_LEN as it is when they succeed. -/
def OutLenKept (i : Instr) (s t : State) : Prop :=
  i ∈ [Instr.nop, .count, .build, .gencodes, .deserialize] → t.outLen = s.outLen

/-- What the body of a command has to keep, whether it goes on or raises. -/
def BodyKeeps (i : Instr) (s t : State) : Prop := RegistersKept i s t ∧ OutLenKept i s t

theorem RegistersKept.successExit {i : Instr} (h : RegistersKept i s t) : RegistersKept i s t.successExit := h

theorem RegistersKept.errorEntry {i : Instr} (h : RegistersKept i s t) (e : ErrKind) :
    RegistersKept i s (t.errorEntry i e) := by
  unfold RegistersKept SameEnvironment at *
  cases i <;> simp_all [State.errorEntry, State.dropComposite, State.forgetOutputs]

/-- A command whose body keeps the registers keeps them, and OUT_LEN too unless it fails. -/
theorem command_keeps {i : Instr} {p : Phase} {body : State → Run}
    (hbody : (body (s.commandStart.setPhase p)).All (BodyKeeps i s)) (h : command i p body s = .next t) :
    RegistersKept i s t ∧ (t.err = false → OutLenKept i s t) := by
  rcases command_eq_next h with ⟨u, hu, rfl⟩ | ⟨e, u, hu, rfl⟩
  · rw [hu] at hbody
    exact ⟨hbody.1.successExit, fun _ => hbody.2⟩
  · rw [hu] at hbody
    exact ⟨hbody.1.errorEntry e, fun herr => by simp at herr⟩

/-! ### What each part of a command keeps -/

theorem start_bodyKeeps (i : Instr) (p : Phase) (s : State) : BodyKeeps i s (s.commandStart.setPhase p) := by
  simp [BodyKeeps, RegistersKept, OutLenKept, SameEnvironment]

theorem BodyKeeps.onlyOutput {i : Instr} (h : BodyKeeps i s t) (k : OnlyOutput t u) : BodyKeeps i s u := by
  obtain ⟨_, _, rfl⟩ := k
  exact h

theorem BodyKeeps.onlyTree {i : Instr} (hi : i ∈ [Instr.build, .deserialize]) (h : BodyKeeps i s t)
    (k : OnlyTree t u) : BodyKeeps i s u := by
  obtain ⟨_, _, _, _, _, _, rfl⟩ := k
  unfold BodyKeeps RegistersKept OutLenKept SameEnvironment at *
  simp at hi
  rcases hi with rfl | rfl <;> simp_all

theorem BodyKeeps.invalidateTree {i : Instr} (hi : i ∈ [Instr.build, .deserialize]) (h : BodyKeeps i s t) :
    BodyKeeps i s t.invalidateTree := by
  unfold BodyKeeps RegistersKept OutLenKept SameEnvironment at *
  simp at hi
  rcases hi with rfl | rfl <;> simp_all

theorem BodyKeeps.onlyTable (h : BodyKeeps .gencodes s t) (k : OnlyTable t u) : BodyKeeps .gencodes s u := by
  obtain ⟨_, _, _, rfl⟩ := k
  unfold BodyKeeps RegistersKept OutLenKept SameEnvironment at *
  simp_all

theorem BodyKeeps.onlyTables {i : Instr} (hi : i ∈ [Instr.count, .compress, .decompress, .clear])
    (h : BodyKeeps i s t) (k : OnlyTables t u) : BodyKeeps i s u := by
  obtain ⟨_, _, _, _, _, _, _, _, _, _, rfl⟩ := k
  unfold BodyKeeps RegistersKept OutLenKept SameEnvironment at *
  simp at hi
  rcases hi with rfl | rfl | rfl | rfl <;> simp_all

theorem BodyKeeps.setOutLen {i : Instr} (hi : i ∈ [Instr.serialize, .pack, .unpack, .compress])
    (h : BodyKeeps i s t) : BodyKeeps i s t.setOutLen := by
  refine ⟨h.1, fun hk => ?_⟩
  simp at hi hk
  rcases hi with rfl | rfl | rfl | rfl <;> simp at hk

/-- A run whose changes are OBUF and the transient state. -/
theorem BodyKeeps.afterOutput {i : Instr} {r : Run} (h : BodyKeeps i s t) (hr : r.All (OnlyOutput t)) :
    r.All (BodyKeeps i s) :=
  Run.All.mono hr fun _ k => h.onlyOutput k

/-- A run whose changes are OBUF and the transient state, and then OUT_LEN. -/
theorem BodyKeeps.afterOutputFile {i : Instr} {r : Run} (hi : i ∈ [Instr.serialize, .pack, .unpack, .compress])
    (h : BodyKeeps i s t) (hr : r.All (OnlyOutput t)) : (r.map State.setOutLen).All (BodyKeeps i s) :=
  Run.All.map (h.afterOutput hr) (fun _ k => k) fun _ k => k.setOutLen hi

theorem copyExt_bodyKeeps {i : Instr} (h : BodyKeeps i s t) (r k : Nat) : BodyKeeps i s (copyExt r k t) := by
  obtain ⟨o, ho⟩ := copyExt_frame r k t
  rw [ho]
  exact h

theorem decompressPayload_keeps (e p : Nat) (h : BodyKeeps .decompress s t) :
    (decompressPayload e p t).All (BodyKeeps .decompress s) := by
  simp only [decompressPayload]
  split
  · exact h
  · split
    · exact h
    · refine Run.All.map (h.afterOutput (((setPhase_onlyOutput .unpack t).trans (setOpos_onlyOutput 0 _)).after
        (unpackRange_onlyOutput _ _ _ _))) (fun _ k => k) fun u hu => ?_
      obtain ⟨⟨henv, hin, -⟩, -⟩ := hu
      exact ⟨⟨henv, hin, by simp, by simp, by simp, by simp⟩, by simp [OutLenKept]⟩

theorem decompressTree_keeps (e : Nat) (h : BodyKeeps .decompress s t) :
    (decompressTree e t).All (BodyKeeps .decompress s) := by
  simp only [decompressTree]
  split_ifs
  · exact h
  · exact h
  · exact h
  · refine Run.All.bind (Run.All.mono (deserializeRange_onlyTree _ _ _) fun u hu => ?_) (fun _ k => k) fun u hu => ?_
    · exact h.onlyTables (by simp) ((setPhase_onlyTables .des t).trans hu.onlyTables)
    · exact decompressPayload_keeps e _ (hu.onlyOutput (setPhase_onlyOutput .hdr u))

theorem decompressBody_keeps (h : BodyKeeps .decompress s t) :
    (decompressBody t).All (BodyKeeps .decompress s) := by
  simp only [decompressBody]
  split_ifs
  case neg => exact decompressTree_keeps _ (copyExt_bodyKeeps h _ _)
  all_goals exact h

/-! ### Every command -/

theorem exec_keeps (i : Instr) {s t : State} (h : exec i s = .next t) :
    RegistersKept i s t ∧ (t.err = false → OutLenKept i s t) := by
  have start := start_bodyKeeps i
  cases i with
  | nop => exact command_keeps (body := .ok) (start _ s) h
  | count =>
    simp only [exec, execCount] at h
    refine command_keeps ?_ h
    exact Run.All.mono (countBody_onlyTables _) fun u hu => (start .count s).onlyTables (by simp)
      (((cleanTables_onlyTables _).trans (clearTotal_onlyTables _)).trans hu)
  | build =>
    simp only [exec, execBuild] at h
    have hbuild := @buildBody_onlyTree
    generalize buildBody = build at hbuild h
    refine command_keeps ?_ h
    exact Run.All.mono (hbuild _) fun u hu => ((start .build s).invalidateTree (by simp)).onlyTree (by simp) hu
  | gencodes =>
    simp only [exec, execGencodes] at h
    refine command_keeps ?_ h
    split
    · exact Run.All.mono (gencodesBody_onlyTable _) fun u hu => (start .gen s).onlyTable hu
    · exact start .gen s
  | serialize =>
    simp only [exec, execSerialize] at h
    refine command_keeps ?_ h
    split
    · exact (start .ser s).afterOutputFile (by simp) ((setOpos_onlyOutput 0 _).after (emitTree_onlyOutput _))
    · exact start .ser s
  | deserialize =>
    simp only [exec, execDeserialize] at h
    refine command_keeps ?_ h
    have hs := (start .des s).invalidateTree (by simp)
    split
    · exact hs
    · exact Run.All.mono (deserializeRange_onlyTree _ _ _) fun u hu => hs.onlyTree (by simp) hu
  | pack =>
    simp only [exec, execPack] at h
    refine command_keeps ?_ h
    split_ifs
    · exact start .pack s
    · exact start .pack s
    · exact (start .pack s).afterOutputFile (by simp) ((setOpos_onlyOutput 0 _).after (packRange_onlyOutput _ _ _))
  | unpack =>
    simp only [exec, execUnpack] at h
    refine command_keeps ?_ h
    split_ifs
    · exact start .unpack s
    · exact start .unpack s
    · exact (start .unpack s).afterOutputFile (by simp)
        ((setOpos_onlyOutput 0 _).after (unpackRange_onlyOutput _ _ _ _))
  | compress =>
    simp only [exec, execCompress] at h
    refine command_keeps (Run.All.map (P := BodyKeeps .compress s) ?_ (fun _ k => k) fun u hu => ?_) h
    · refine Run.All.bind (Run.All.mono (compressTables_onlyTables _) fun u hu => ?_) (fun _ k => k) fun u hu =>
        hu.afterOutput (compressFile_onlyOutput u)
      exact (start .count s).onlyTables (by simp)
        (((cleanTables_onlyTables _).trans (clearTotal_onlyTables _)).trans hu)
    · exact (hu.setOutLen (by simp)).onlyTables (by simp) (cleanTables_onlyTables _)
  | decompress =>
    simp only [exec, execDecompress] at h
    refine command_keeps (Run.All.map (P := BodyKeeps .decompress s) (decompressBody_keeps ?_) (fun _ k => k)
      fun u hu => hu.onlyTables (by simp) (cleanTables_onlyTables _)) h
    exact (start .hdr s).onlyTables (by simp) ((cleanTables_onlyTables _).trans (clearTotal_onlyTables _))
  | clear =>
    simp only [exec, execClear] at h
    refine command_keeps ?_ h
    obtain ⟨⟨henv, -⟩, -⟩ := start .idle s
    exact ⟨⟨henv, by simp, by simp, by simp, by simp, by simp⟩, by simp [OutLenKept]⟩

/-- Settles O55, by the relation that the body and both ends of every command keep. -/
theorem commandsKeepTheOtherRegisters : Obligations.CommandsKeepTheOtherRegisters := by
  intro i s t h
  obtain ⟨⟨henv, hin, hext, hfreq, htree, htable⟩, hout⟩ := exec_keeps i h
  exact ⟨henv, hin, hext, hfreq, htree, htable, fun hi herr => hout herr hi⟩

end Sys2Proof.Machine

end

section
/-! SUPPORT. The invariant in two parts, what the data of a state meet and what STATUS and the sequencer meet, and what
every command has to leave so that its end restores it (60_exceptions.md R257 to R259). -/

namespace Sys2Proof.Machine

variable {s t u : State}

/-! ### Trees in NODE -/

theorem stored_leaf_iff {i : NodeIdx} {sym : Byte} :
    (NodeTree.leaf i sym).stored s = true
      ↔ ∃ f, s.node.get? i.toNat = some { leaf := true, sym := sym, freq := f, left := 0, right := 0 } := by
  simp only [NodeTree.stored]
  cases h : s.node.get? i.toNat with
  | none => simp
  | some r => obtain ⟨_, _, f, _, _⟩ := r; simp [and_assoc]

theorem stored_node_iff {i : NodeIdx} {l r : NodeTree} :
    (NodeTree.node i l r).stored s = true
      ↔ (∃ f, s.node.get? i.toNat
          = some { leaf := false, sym := 0, freq := f, left := l.idx, right := r.idx })
        ∧ l.stored s = true ∧ r.stored s = true := by
  simp only [NodeTree.stored]
  cases h : s.node.get? i.toNat with
  | none => simp
  | some q => obtain ⟨_, _, f, _, _⟩ := q; simp [and_assoc]

/-- Whether a tree is stored depends on the records of its nodes only. -/
theorem stored_congr {a : NodeTree} (h : ∀ i ∈ a.indices, t.node.get? i = s.node.get? i) :
    a.stored t = a.stored s := by
  induction a with
  | leaf i sym => simp only [NodeTree.stored, h i.toNat (by simp [NodeTree.indices])]
  | node i l r ihl ihr =>
    simp only [NodeTree.stored, h i.toNat (by simp [NodeTree.indices]),
      ihl fun j hj => h j (by simp [NodeTree.indices, hj]), ihr fun j hj => h j (by simp [NodeTree.indices, hj])]

theorem stored_of_node_eq {a : NodeTree} (ha : a.stored s = true) (h : t.node = s.node) : a.stored t = true :=
  (stored_congr fun _ _ => by rw [h]).trans ha

/-! ### The parts of the invariant -/

/-- The invariant on NODE and LUT with their registers and flags (R25, R26, R28, R30 to R32). -/
def TablesInv (s : State) : Prop := StoreInv s ∧ ValidityInv s ∧ TreeInv s

/-- The invariant on everything but STATUS, OUT_LEN and the sequencer: what an error entry needs. -/
structure DataInv (s : State) : Prop where
  params : ParamsInv s
  memory : MemoryInv s
  tables : TablesInv s
  freq : FreqInv s

theorem inv_iff : Inv s ↔ DataInv s ∧ IdleInv s ∧ StatusInv s ∧ OutputInv s := by
  constructor
  · rintro ⟨hparams, hmem, hstore, hidle, hstatus, hvalid, hfreq, hout, htree⟩
    exact ⟨⟨hparams, hmem, ⟨hstore, hvalid, htree⟩, hfreq⟩, hidle, hstatus, hout⟩
  · rintro ⟨⟨hparams, hmem, ⟨hstore, hvalid, htree⟩, hfreq⟩, hidle, hstatus, hout⟩
    exact ⟨hparams, hmem, hstore, hidle, hstatus, hvalid, hfreq, hout, htree⟩

/-- NODE, LUT and their registers and flags are in `t` as in `s`. -/
def SameTables (s t : State) : Prop :=
  t.node = s.node ∧ t.lut = s.lut ∧ t.treeValid = s.treeValid ∧ t.lutValid = s.lutValid ∧ t.nleaf = s.nleaf
    ∧ t.nnode = s.nnode ∧ t.root = s.root

theorem TablesInv.congr (hs : TablesInv s) (h : SameTables s t := by exact ⟨rfl, rfl, rfl, rfl, rfl, rfl, rfl⟩) :
    TablesInv t := by
  obtain ⟨hnode, hlut, htv, hlv, hnleaf, hnnode, hroot⟩ := h
  obtain ⟨hstore, hvalid, htree⟩ := hs
  refine ⟨?_, ?_, fun ht => ?_⟩
  · simpa only [StoreInv, hnode, hlut] using hstore
  · simpa only [ValidityInv, hnode, hlut, htv, hlv, hnleaf, hnnode, hroot] using hvalid
  · obtain ⟨a, ⟨hst, hidx, hperm, hleaves⟩, htable⟩ := htree (htv ▸ ht)
    refine ⟨a, ⟨stored_of_node_eq hst hnode, hidx.trans hroot.symm, hnnode ▸ hperm, hnleaf ▸ hleaves⟩, ?_⟩
    intro hl
    simpa only [TableOf, hlut] using htable (hlv ▸ hl)

/-- Without a tree and a code table nothing else is asked of the tables (R26). -/
theorem tablesInv_of_invalid (htree : s.treeValid = false := by rfl) (hlut : s.lutValid = false := by rfl)
    (hnleaf : s.nleaf = 0 := by rfl) (hnnode : s.nnode = 0 := by rfl) (hroot : s.root = 0 := by rfl)
    (hnode : s.node.cells = [] := by rfl) (hcells : s.lut.cells = [] := by rfl) : TablesInv s := by
  refine ⟨?_, ⟨by simp [hlut], fun _ => ⟨hnleaf, hnnode, hroot, hnode⟩, fun _ => hcells⟩, by simp [TreeInv, htree]⟩
  simp [StoreInv, Store.wf, Store.below, hnode, hcells, risingFrom]

theorem tablesInv_invalidateTree (s : State) : TablesInv s.invalidateTree :=
  tablesInv_of_invalid

theorem tablesInv_cleanTables (s : State) : TablesInv s.cleanTables :=
  tablesInv_of_invalid

/-! ### Memory -/

/-- A byte space is in canonical form and lists no byte at or above its capacity. -/
def SpaceInv (s : State) (sp : Space) : Prop :=
  (s.mem.space sp).wf = true ∧ (s.mem.space sp).below (bufCap s.params sp) = true

theorem memoryInv_iff : MemoryInv s ↔ ∀ sp, SpaceInv s sp := by
  simp only [MemoryInv, Memory.wf_iff, SpaceInv]
  constructor
  · rintro ⟨hwf, hi, ho, he⟩ sp
    exact ⟨hwf sp, by cases sp <;> assumption⟩
  · intro h
    exact ⟨fun sp => (h sp).1, (h .ibuf).2, (h .obuf).2, (h .extbuf).2⟩

/-- A byte written within its space keeps the invariant on memory (R65). -/
theorem MemoryInv.memWrite (h : MemoryInv s) {sp : Space} {a : Nat} (ha : a < bufCap s.params sp) (b : Byte) :
    MemoryInv (s.memWrite sp a b) := by
  rw [memoryInv_iff] at h ⊢
  intro sp'
  simp only [SpaceInv, State.memWrite_mem, Memory.writeByte, State.memWrite_params]
  by_cases hsp : sp' = sp
  · subst hsp
    rw [Memory.space_setSpace_self]
    exact ⟨Store.wf_write (h sp').1 a b, Store.below_write ha b (h sp').2⟩
  · rw [Memory.space_setSpace_other _ hsp]
    exact h sp'

/-- A space that becomes unspecified is no obstacle: the others alone have to meet the invariant. -/
theorem memoryInv_forgetSpace {sp : Space} (h : ∀ sp', sp' ≠ sp → SpaceInv s sp') : MemoryInv (s.forgetSpace sp) := by
  rw [memoryInv_iff]
  intro sp'
  simp only [SpaceInv, State.forgetSpace_mem, Memory.forget, State.forgetSpace_params]
  by_cases hsp : sp' = sp
  · subst hsp
    rw [Memory.space_setSpace_self]
    exact ⟨Store.wf_forget _, Store.below_forget _ _⟩
  · rw [Memory.space_setSpace_other _ hsp]
    exact h sp' hsp

theorem MemoryInv.forgetSpace (h : MemoryInv s) (sp : Space) : MemoryInv (s.forgetSpace sp) :=
  memoryInv_forgetSpace fun sp' _ => memoryInv_iff.mp h sp'

/-! ### FREQ -/

theorem freqSum_zero (h : ∀ sym, s.freqOf sym = 0) : s.freqSum = 0 := by
  simp [State.freqSum, h]

theorem freqInv_cleanTables (s : State) : FreqInv s.cleanTables := by
  have h : s.cleanTables.freqSum = 0 := freqSum_zero fun sym => Vector.getElem_replicate _
  simp [FreqInv, h]

theorem dataInv_cleanTables (hparams : ParamsInv s) (hmem : MemoryInv s) : DataInv s.cleanTables :=
  ⟨hparams, hmem, tablesInv_cleanTables s, freqInv_cleanTables s⟩

theorem DataInv.invalidateTree (h : DataInv s) : DataInv s.invalidateTree :=
  ⟨h.params, h.memory, tablesInv_invalidateTree s, h.freq⟩

/-- The invariant is met after reset (R39). -/
theorem dataInv_resetWith {p : Params} (h : p.wellFormed = true) : DataInv (State.resetWith p) := by
  refine ⟨h, ⟨rfl, rfl, rfl, rfl⟩, tablesInv_of_invalid, ?_⟩
  have hfreq : (State.resetWith p).freqSum = 0 := freqSum_zero fun sym => Vector.getElem_replicate _
  simp [FreqInv, hfreq]

/-- Settles O58: after reset every store is empty and every register 0. -/
theorem resetMeetsTheInvariant : Obligations.ResetMeetsTheInvariant := by
  intro p hp
  exact inv_iff.mpr ⟨dataInv_resetWith hp, ⟨rfl, rfl⟩, by simp [StatusInv, State.resetWith],
    by simp [OutputInv, State.resetWith]⟩

/-! ### The two ends of a command -/

/-- What a command's pseudocode has to leave for the success exit. -/
structure Completed (s : State) : Prop where
  data : DataInv s
  output : OutputInv s
  err : s.err = false
  errCode : s.errCode = 0

/-- What the pseudocode of the command `c` has to come to, so that the invariant holds after the command. -/
def Run.Restores (c : Instr) : Run → Prop
  | .ok s => Completed s
  | .raised _ s => DataInv ((s.dropComposite c).forgetOutputs c)
  | .stuck _ => True

/-- The data of a state meet the invariant where another state, whose data meet it, has the same. -/
theorem DataInv.congr (hs : DataInv s) (hparams : t.params = s.params := by rfl) (hmem : t.mem = s.mem := by rfl)
    (htables : SameTables s t := by exact ⟨rfl, rfl, rfl, rfl, rfl, rfl, rfl⟩)
    (hfreq : t.freq = s.freq := by rfl) : DataInv t := by
  refine ⟨?_, ?_, hs.tables.congr htables, ?_⟩
  · simpa only [ParamsInv, hparams] using hs.params
  · simpa only [MemoryInv, hparams, hmem] using hs.memory
  · simpa only [FreqInv, State.freqSum, State.freqOf, hparams, hfreq] using hs.freq

theorem Completed.inv_successExit (h : Completed s) : Inv s.successExit := by
  refine inv_iff.mpr ⟨h.data.congr, ⟨rfl, rfl⟩, ?_, h.output⟩
  simp [StatusInv, h.err, h.errCode]

theorem errCodeOf_range (e : ErrKind) : 1 ≤ (errCodeOf e).toNat ∧ (errCodeOf e).toNat ≤ 7 := by
  cases e <;> decide

theorem DataInv.inv_errorExit (h : DataInv s) (e : ErrKind) : Inv (s.errorExit e) := by
  refine inv_iff.mpr ⟨h.congr, ⟨rfl, rfl⟩, ?_, Nat.zero_le _⟩
  simpa [StatusInv] using errCodeOf_range e

/-- A command whose pseudocode restores the invariant keeps it. -/
theorem command_inv {c : Instr} {p : Phase} {body : State → Run}
    (h : (body (s.commandStart.setPhase p)).Restores c) (ht : command c p body s = .next t) : Inv t := by
  rcases command_eq_next ht with ⟨u, hu, rfl⟩ | ⟨e, u, hu, rfl⟩
  · rw [hu] at h
    exact h.inv_successExit
  · rw [hu] at h
    exact h.inv_errorExit e

theorem completed_start (hs : Inv s) (p : Phase) : Completed (s.commandStart.setPhase p) := by
  obtain ⟨hdata, -, -, hout⟩ := inv_iff.mp hs
  exact ⟨hdata.congr, hout, rfl, rfl⟩

end Sys2Proof.Machine

end

section
/-! SUPPORT. The writers of OBUF once more, for every relation that `Put` and the moves of the other cursors keep: what
holds of these two holds of SERIALIZE's, PACK's, UNPACK's and COMPRESS's loops. The invariant on OBUF is such a
relation. -/

namespace Sys2Proof.Machine

theorem Run.All.of_ok {P : State → Prop} {r : Run} {s : State} (h : r.All P) (hr : r = .ok s) : P s := by
  rw [hr] at h
  exact h

/-- A relation between states that holds over `Put` with room and over every change of the transient state that leaves
OPOS. -/
structure PutClosed (R : State → State → Prop) : Prop where
  refl : ∀ s, R s s
  trans : ∀ {s t u}, R s t → R t u → R s u
  move : ∀ s q, q.opos = s.seq.opos → R s { s with seq := q }
  putByte : ∀ s b, s.seq.opos < s.params.obufCap → R s ((s.memWrite .obuf s.seq.opos b).setOpos (s.seq.opos + 1))

namespace PutClosed

variable {R : State → State → Prop} (hR : PutClosed R)
include hR

theorem bind {s : State} {r : Run} {k : State → Run} (hr : r.All (R s)) (hk : ∀ t, (k t).All (R t)) :
    (r.bind k).All (R s) :=
  Run.All.bind hr (fun _ h => h) fun t ht => Run.All.mono (hk t) fun _ hu => hR.trans ht hu

theorem map {s : State} {r : Run} {k : State → State} (hr : r.All (R s)) (hk : ∀ t, R t (k t)) :
    (r.map k).All (R s) :=
  hR.bind hr hk

/-- A run from a state that the relation has reached. -/
theorem after {s t : State} {r : Run} (hr : r.All (R t)) (ht : R s t) : r.All (R s) :=
  Run.All.mono hr fun _ h => hR.trans ht h

theorem setPhase (p : Phase) (s : State) : R s (s.setPhase p) := hR.move s _ rfl

theorem put (b : Byte) (s : State) : (s.put b).All (R s) := by
  rcases put_cases s b with ⟨_, h⟩ | ⟨hlt, h⟩
  · rw [h]; exact hR.refl s
  · rw [h]; exact hR.putByte s b hlt

theorem putAll (l : List Byte) (s : State) : (s.putAll l).All (R s) := by
  induction l generalizing s with
  | nil => exact hR.refl s
  | cons b rest ih => exact hR.bind (hR.put b s) ih

theorem emitVisit (i : NodeIdx) (s : State) : (emitVisit i s).All (R s) := by
  simp only [Machine.emitVisit]
  split
  · exact hR.bind (hR.put _ s) (hR.put _)
  · exact hR.map (hR.put _ s) fun t => hR.move t _ rfl

theorem emitLoop (k : Nat) (s : State) : (emitLoop k s).All (R s) := by
  induction k generalizing s with
  | zero =>
    simp only [Machine.emitLoop]
    split
    · exact hR.refl s
    · trivial
  | succ k ih =>
    simp only [Machine.emitLoop]
    split
    · exact hR.refl s
    · exact hR.bind (hR.after (hR.emitVisit _ _) (hR.move _ _ rfl)) ih

theorem emitTree (s : State) : (emitTree s).All (R s) := hR.after (hR.emitLoop _ _) (hR.move _ _ rfl)

theorem putBit (b : Bool) (s : State) : (putBit b s).All (R s) := by
  simp only [Machine.putBit]
  split
  · exact hR.map (hR.after (hR.put _ _) (hR.move _ _ rfl)) fun t => hR.move t _ rfl
  · exact hR.move s _ rfl

theorem putBits (l : BitString) (s : State) : (putBits l s).All (R s) := by
  induction l generalizing s with
  | nil => exact hR.refl s
  | cons b rest ih => exact hR.bind (hR.putBit b s) ih

theorem packSymbol (s : State) : (packSymbol s).All (R s) := by
  simp only [Machine.packSymbol]
  split
  · exact hR.refl s
  · exact hR.map (hR.putBits _ s) fun t => hR.move t _ rfl

theorem packLoop (k : Nat) (s : State) : (packLoop k s).All (R s) := by
  induction k generalizing s with
  | zero => exact hR.refl s
  | succ k ih => exact hR.bind (hR.packSymbol s) ih

theorem packFlush (s : State) : (packFlush s).All (R s) := by
  simp only [Machine.packFlush]
  split
  · exact hR.refl s
  · exact hR.put _ s

theorem packRange (start stop : Nat) (s : State) : (packRange start stop s).All (R s) :=
  hR.bind (hR.after (hR.packLoop _ _) (hR.move _ _ rfl)) hR.packFlush

theorem emitSymbol (sym : Byte) (s : State) : (emitSymbol sym s).All (R s) :=
  hR.map (hR.put sym s) fun t => hR.move t _ rfl

theorem takeBit (s : State) : R s (takeBit s).2 := by
  simp only [Machine.takeBit]
  split <;> exact hR.move s _ rfl

theorem unpackBit (bit : Bool) (s : State) : (unpackBit bit s).All (R s) := by
  unfold Machine.unpackBit
  by_cases hroot : (s.nodeRead s.root).leaf = true
  · rw [if_pos hroot]
    exact hR.emitSymbol _ s
  · rw [if_neg hroot]
    dsimp only
    generalize (if bit then (s.nodeRead s.seq.cur).right else (s.nodeRead s.seq.cur).left) = c
    split
    · exact hR.map (hR.after (hR.emitSymbol _ _) (hR.move _ _ rfl)) fun t => hR.move t _ rfl
    · exact hR.move s _ rfl

theorem unpackLoop (count k : Nat) (s : State) : (unpackLoop count k s).All (R s) := by
  induction k generalizing s with
  | zero =>
    simp only [Machine.unpackLoop]
    split <;> exact hR.refl s
  | succ k ih =>
    simp only [Machine.unpackLoop]
    split
    · exact hR.bind (hR.after (hR.unpackBit _ _) (hR.takeBit s)) ih
    · exact hR.refl s

theorem unpackRange (start stop count : Nat) (s : State) : (unpackRange start stop count s).All (R s) :=
  hR.after (hR.unpackLoop _ _ _) (hR.move _ _ rfl)

/-- The file COMPRESS writes, from the state with OPOS = 0 on (R211). -/
theorem compressFile {s t : State} (h : compressFile s = .ok t) : R (s.setOpos 0) t := by
  obtain ⟨u, hheader, h⟩ := Run.bind_eq_ok h
  obtain ⟨v, htree, h⟩ := Run.bind_eq_ok h
  obtain ⟨w, htotal, hpack⟩ := Run.bind_eq_ok h
  have hu : R (s.setOpos 0) u := by
    simp only [compressHeader] at hheader
    split at hheader
    · cases hheader
    · have hstart : R (s.setOpos 0) ((s.setPhase .hdr).setOpos 0) := hR.setPhase .hdr (s.setOpos 0)
      refine hR.trans hstart (Run.All.of_ok ?_ hheader)
      exact hR.bind (hR.bind (hR.bind (hR.putAll _ _) (hR.putAll _)) fun t => hR.putAll _ t) fun t => hR.putAll _ t
  have hv : R u v := hR.trans (hR.setPhase .ser u) ((hR.emitTree _).of_ok htree)
  have hw : R v w := hR.trans (hR.setPhase .hdr v) ((hR.putAll _ _).of_ok htotal)
  have ht : R w t := hR.trans (hR.setPhase .pack w) ((hR.packRange _ _ _).of_ok hpack)
  exact hR.trans (hR.trans (hR.trans hu hv) hw) ht

end PutClosed

/-! ### The invariant on OBUF while it is written -/

/-- OBUF meets the invariant, and OPOS has not passed its end (R37). -/
def ObufInv (s : State) : Prop := SpaceInv s .obuf ∧ s.seq.opos ≤ s.params.obufCap

theorem putClosed_obufInv : PutClosed fun s t => ObufInv s → ObufInv t where
  refl _ h := h
  trans h k hs := k (h hs)
  move _ _ hq h := ⟨h.1, hq ▸ h.2⟩
  putByte _ b hlt h := ⟨⟨Store.wf_write h.1.1 _ b, Store.below_write hlt b h.1.2⟩, hlt⟩

theorem obufInv_setOpos_zero {s : State} (h : MemoryInv s) : ObufInv (s.setOpos 0) :=
  ⟨memoryInv_iff.mp h .obuf, Nat.zero_le _⟩

theorem OnlyOutput.spaceInv {s t : State} (h : OnlyOutput s t) {sp : Space} (hsp : sp ≠ .obuf) (hs : SpaceInv s sp) :
    SpaceInv t sp := by
  obtain ⟨o, q, rfl⟩ := h
  cases sp
  · exact hs
  · exact absurd rfl hsp
  · exact hs

/-- OUT_LEN taken from an OPOS within OBUF (R37). -/
theorem outputInv_setOutLen {s : State} (hobuf : ObufInv s) : OutputInv s.setOutLen := by
  simp only [OutputInv, State.setOutLen_outLen, State.setOutLen_params, BitVec.toNat_ofNat]
  exact (Nat.mod_le _ _).trans hobuf.2

theorem OnlyOutput.memoryInv {s t : State} (h : OnlyOutput s t) (hs : MemoryInv s) (hobuf : ObufInv t) :
    MemoryInv t := by
  rw [memoryInv_iff] at hs ⊢
  intro sp
  by_cases hsp : sp = .obuf
  · exact hsp ▸ hobuf.1
  · exact h.spaceInv hsp (hs sp)

theorem OnlyOutput.memoryInv_forget {s t : State} (h : OnlyOutput s t) (hs : MemoryInv s) :
    MemoryInv (t.forgetSpace .obuf) :=
  memoryInv_forgetSpace fun sp hsp => h.spaceInv hsp (memoryInv_iff.mp hs sp)

theorem DataInv.onlyOutput {s t : State} (hs : DataInv s) (h : OnlyOutput s t) (hobuf : ObufInv t) : DataInv t := by
  have hmem := h.memoryInv hs.memory hobuf
  obtain ⟨o, q, rfl⟩ := h
  exact ⟨hs.params, hmem, hs.tables.congr, hs.freq⟩

theorem DataInv.onlyOutput_forget {s t : State} (hs : DataInv s) (h : OnlyOutput s t) :
    DataInv (t.forgetSpace .obuf) := by
  have hmem := h.memoryInv_forget hs.memory
  obtain ⟨o, q, rfl⟩ := h
  exact ⟨hs.params, hmem, hs.tables.congr, hs.freq⟩

/-- A command that writes OBUF from offset 0 on and then OUT_LEN restores the invariant. -/
theorem restores_of_output {c : Instr} (hc : c ∈ [Instr.serialize, .pack, .unpack]) {s : State} (hs : Completed s)
    {r : Run} (hframe : r.All (OnlyOutput s)) (hobuf : r.All fun t => ObufInv (s.setOpos 0) → ObufInv t) :
    (r.map State.setOutLen).Restores c := by
  have h0 := obufInv_setOpos_zero hs.data.memory
  cases r with
  | ok t =>
    have ht := hobuf h0
    refine ⟨(hs.data.onlyOutput hframe ht).congr,
      outputInv_setOutLen ht, ?_, ?_⟩
    · obtain ⟨o, q, rfl⟩ := hframe
      exact hs.err
    · obtain ⟨o, q, rfl⟩ := hframe
      exact hs.errCode
  | raised e t =>
    simp at hc
    rcases hc with rfl | rfl | rfl <;> exact hs.data.onlyOutput_forget hframe
  | stuck f => trivial

/-- A command that writes OBUF and raises at once restores the invariant. -/
theorem restores_raised {c : Instr} (hc : c ∈ [Instr.serialize, .pack, .unpack]) {s : State} (hs : Completed s)
    (e : ErrKind) : (Run.raised e s).Restores c := by
  simp at hc
  rcases hc with rfl | rfl | rfl <;> exact hs.data.onlyOutput_forget (OnlyOutput.refl s)

theorem serialize_inv {s t : State} (hs : Inv s) (h : execSerialize s = .next t) : Inv t := by
  refine command_inv ?_ h
  have hstart := completed_start hs .ser
  split
  · exact restores_of_output (by simp) hstart ((setOpos_onlyOutput 0 _).after (emitTree_onlyOutput _))
      (putClosed_obufInv.emitTree _)
  · exact restores_raised (by simp) hstart _

theorem pack_inv {s t : State} (hs : Inv s) (h : execPack s = .next t) : Inv t := by
  refine command_inv ?_ h
  have hstart := completed_start hs .pack
  split_ifs
  · exact restores_raised (by simp) hstart _
  · exact restores_raised (by simp) hstart _
  · exact restores_of_output (by simp) hstart ((setOpos_onlyOutput 0 _).after (packRange_onlyOutput _ _ _))
      (putClosed_obufInv.packRange _ _ _)

theorem unpack_inv {s t : State} (hs : Inv s) (h : execUnpack s = .next t) : Inv t := by
  refine command_inv ?_ h
  have hstart := completed_start hs .unpack
  split_ifs
  · exact restores_raised (by simp) hstart _
  · exact restores_raised (by simp) hstart _
  · exact restores_of_output (by simp) hstart ((setOpos_onlyOutput 0 _).after (unpackRange_onlyOutput _ _ _ _))
      (putClosed_obufInv.unpackRange _ _ _ _)

theorem nop_inv {s t : State} (hs : Inv s) (h : execNop s = .next t) : Inv t :=
  command_inv (body := .ok) (completed_start hs .idle) h

theorem clear_inv {s t : State} (hs : Inv s) (h : execClear s = .next t) : Inv t := by
  refine command_inv ?_ h
  obtain ⟨hdata, -, -⟩ := completed_start hs .idle
  exact ⟨(dataInv_cleanTables hdata.params hdata.memory).congr,
    Nat.zero_le _, rfl, rfl⟩

end Sys2Proof.Machine

end

section
/-! SUPPORT. COUNT keeps the bound on FREQ (40_frequency_counter.md R130), and BUILD leaves a tree of NODE
(41_tree_builder.md R140 to R146): the nodes in PQ are at every moment the roots of trees whose nodes are all the
records numbered so far. -/

namespace Sys2Proof.Machine

variable {s t u : State}

/-! ### COUNT -/

/-- Raising the count of one symbol by at most 1 raises a sum of counts by at most the number of its occurrences. -/
theorem sum_map_le_add_count {f g : Byte → Nat} {b : Byte} (hb : g b ≤ f b + 1) (hne : ∀ sym, sym ≠ b → g sym = f sym)
    (l : List Byte) : (l.map g).sum ≤ (l.map f).sum + l.count b := by
  induction l with
  | nil => simp
  | cons sym rest ih =>
    simp only [List.map_cons, List.sum_cons, List.count_cons, beq_iff_eq]
    by_cases h : sym = b
    · subst h
      simp only [if_true]
      omega
    · rw [hne sym h, if_neg h]
      omega

theorem count_allSymbols_le_one (sym : Byte) : allSymbols.count sym ≤ 1 := by
  have h : allSymbols.Nodup :=
    List.nodup_range.map_on fun i hi j hj hij => by
      have := congrArg BitVec.toNat hij
      simp only [List.mem_range, BitVec.toNat_ofNat] at hi hj this
      omega
  rw [List.nodup_iff_count_le_one] at h
  exact @h sym

theorem freqOf_countSymbol_self (s : State) :
    (countSymbol s).freqOf (s.memRead .ibuf s.seq.ipos) = s.freqOf (s.memRead .ibuf s.seq.ipos) + 1 := by
  simp [State.freqOf, countSymbol]

theorem freqOf_countSymbol_other (s : State) {sym : Byte} (h : sym ≠ s.memRead .ibuf s.seq.ipos) :
    (countSymbol s).freqOf sym = s.freqOf sym := by
  have hne : (s.memRead .ibuf s.seq.ipos).toNat ≠ sym.toNat := fun e => h (BitVec.eq_of_toNat_eq e.symm)
  simp [State.freqOf, countSymbol, Vector.getElem_set_ne _ _ hne]

/-- Each byte counted raises the sum of the counts by at most 1 (R130). -/
theorem freqSum_countSymbol_le (s : State) : (countSymbol s).freqSum ≤ s.freqSum + 1 := by
  have hcount := count_allSymbols_le_one (s.memRead .ibuf s.seq.ipos)
  have hself : ((countSymbol s).freqOf (s.memRead .ibuf s.seq.ipos)).toNat
      ≤ (s.freqOf (s.memRead .ibuf s.seq.ipos)).toNat + 1 := by
    rw [freqOf_countSymbol_self, BitVec.toNat_add]
    exact Nat.mod_le _ _
  unfold State.freqSum
  generalize allSymbols = l at hcount ⊢
  exact (sum_map_le_add_count (f := fun sym => (s.freqOf sym).toNat) hself
    (fun sym h => by rw [freqOf_countSymbol_other s h]) l).trans (Nat.add_le_add_left hcount _)

theorem freqSum_countLoop_le (k : Nat) (s : State) : (countLoop k s).freqSum ≤ s.freqSum + k := by
  induction k generalizing s with
  | zero => simp [countLoop]
  | succ k ih =>
    have h := freqSum_countSymbol_le s
    have := ih (countSymbol s)
    rw [countLoop]
    omega

/-- All that the counting part of COUNT can do from clean counts (R130): it raises at once, or the counts it leaves are
those of the IN_LEN bytes of IBUF. -/
theorem countBody_cases (hzero : s.freqSum = 0) :
    (∃ e, countBody s = .raised e s) ∨
    ∃ f q, countBody s = .ok { s with freq := f, total := s.inLen, seq := q } ∧ FreqInv { s with freq := f } := by
  by_cases hlen : s.params.ibufCap < s.inLen.toNat
  · exact .inl ⟨.resource, by rw [countBody, if_pos hlen]⟩
  by_cases hempty : s.inLen = 0
  · exact .inl ⟨.emptyInput, by rw [countBody, if_neg hlen, if_pos hempty]⟩
  obtain ⟨f, q, hloop⟩ := countLoop_frame s.inLen.toNat (s.setIpos 0)
  refine .inr ⟨f, q, by rw [countBody, if_neg hlen, if_neg hempty, hloop]; rfl, ?_⟩
  have hsum := freqSum_countLoop_le s.inLen.toNat (s.setIpos 0)
  rw [hloop, show (s.setIpos 0).freqSum = 0 from hzero, Nat.zero_add] at hsum
  exact hsum.trans (Nat.le_of_not_lt hlen)

theorem count_inv (hs : Inv s) (h : execCount s = .next t) : Inv t := by
  refine command_inv ?_ h
  have hstart := completed_start hs .count
  generalize s.commandStart.setPhase .count = a at hstart ⊢
  have hclean : DataInv a.cleanTables.clearTotal :=
    (dataInv_cleanTables hstart.data.params hstart.data.memory).congr
  rcases countBody_cases (s := a.cleanTables.clearTotal) (freqSum_zero fun sym => Vector.getElem_replicate _) with
    ⟨e, hc⟩ | ⟨f, q, hc, hfreq⟩
  · rw [hc]
    exact hclean
  · rw [hc]
    exact ⟨⟨hclean.params, hclean.memory, hclean.tables.congr, hfreq⟩,
      hstart.output, hstart.err, hstart.errCode⟩

/-! ### A forest in NODE -/

theorem numNodes_pos (a : Shape) : 0 < a.numNodes := by
  cases a <;> simp [Shape.numNodes]

@[simp] theorem addNode_n (s : State) (r : NodeRec) : (s.addNode r).seq.n = s.seq.n + 1 := rfl

/-- The trees `F` with `l` leaves in all are stored in NODE, their roots are the nodes in PQ, and their nodes are the
records numbered so far (R140). -/
structure Forest (s : State) (F : List NodeTree) (l : Nat) : Prop where
  wf : s.node.wf = true
  below : s.node.below nodeCap = true
  roots : (F.map NodeTree.idx).Perm s.seq.pq
  stored : ∀ a ∈ F, a.stored s = true
  nodes : (F.flatMap NodeTree.indices).Perm (List.range s.seq.n)
  leaves : (F.map fun a => a.shape.numLeaves).sum = l
  count : s.seq.n + F.length = 2 * l

theorem Forest.perm {F G : List NodeTree} {l : Nat} (h : Forest s F l) (p : F.Perm G) : Forest s G l where
  wf := h.wf
  below := h.below
  roots := (p.map _).symm.trans h.roots
  stored a ha := h.stored a (p.mem_iff.mpr ha)
  nodes := (p.flatMap_right _).symm.trans h.nodes
  leaves := ((p.map _).sum_eq).symm.trans h.leaves
  count := p.length_eq ▸ h.count

theorem Forest.index_lt {F : List NodeTree} {l : Nat} (h : Forest s F l) {a : NodeTree} (ha : a ∈ F) {i : Nat}
    (hi : i ∈ a.indices) : i < s.seq.n :=
  List.mem_range.mp (h.nodes.mem_iff.mp (List.mem_flatMap.mpr ⟨a, ha, hi⟩))

theorem toNat_nodeNumber {n : Nat} (h : n < nodeCap) : (BitVec.ofNat 9 n).toNat = n := by
  simp only [nodeCap] at h
  rw [BitVec.toNat_ofNat]
  omega

theorem perm_range_succ {l : List Nat} {n : Nat} (h : l.Perm (List.range n)) : (n :: l).Perm (List.range (n + 1)) := by
  rw [List.range_succ]
  exact (h.cons n).trans (List.perm_append_singleton n _).symm

/-- Numbering a node leaves the trees of the records before it (R140). -/
theorem Forest.stored_addNode {F : List NodeTree} {l : Nat} (h : Forest s F l) (hn : s.seq.n < nodeCap) (r : NodeRec)
    {a : NodeTree} (ha : a ∈ F) : a.stored (s.addNode r) = true := by
  rw [stored_congr fun i hi => ?_, h.stored a ha]
  have hlt := h.index_lt ha hi
  exact Store.get?_write_other _ (by rw [toNat_nodeNumber hn]; omega) r

/-- A record numbered anew: NODE stays in canonical form, and the record stands at its number (R28, R140). -/
theorem Forest.node_addNode {F : List NodeTree} {l : Nat} (h : Forest s F l) (hn : s.seq.n < nodeCap) (r : NodeRec) :
    (s.addNode r).node.wf = true ∧ (s.addNode r).node.below nodeCap = true
    ∧ (s.addNode r).node.get? (BitVec.ofNat 9 s.seq.n).toNat = some r := by
  have hidx : (BitVec.ofNat 9 s.seq.n).toNat < nodeCap := (toNat_nodeNumber hn).symm ▸ hn
  exact ⟨Store.wf_write h.wf _ r, Store.below_write hidx r h.below, Store.get?_write_self _ _ r⟩

/-! ### The leaves -/

/-- A Leaf of its own joins the forest (R141). -/
theorem Forest.addLeafNode {F : List NodeTree} {l : Nat} (h : Forest s F l) (hn : s.seq.n < nodeCap) (sym : Byte)
    (f : Word) :
    Forest (s.addNode { leaf := true, sym := sym, freq := f, left := 0, right := 0 })
      (.leaf (BitVec.ofNat 9 s.seq.n) sym :: F) (l + 1) := by
  obtain ⟨hwf, hbelow, hget⟩ := h.node_addNode hn { leaf := true, sym := sym, freq := f, left := 0, right := 0 }
  refine ⟨hwf, hbelow, h.roots.cons _, fun a ha => ?_, ?_, ?_, ?_⟩
  · rcases List.mem_cons.mp ha with rfl | ha
    · exact stored_leaf_iff.mpr ⟨f, hget⟩
    · exact h.stored_addNode hn _ ha
  · simp only [List.flatMap_cons, NodeTree.indices, toNat_nodeNumber hn]
    exact perm_range_succ h.nodes
  · have := h.leaves
    simp only [List.map_cons, List.sum_cons, NodeTree.shape, Shape.numLeaves]
    omega
  · have := h.count
    simp only [addNode_n, List.length_cons]
    omega

theorem addLeaves_forest (syms : List Byte) {F : List NodeTree} {l : Nat} (h : Forest s F l) (hl : s.seq.n = l)
    (hsyms : l + syms.length ≤ 256) :
    ∃ F' l', Forest (addLeaves syms s) F' l' ∧ (addLeaves syms s).seq.n = l' ∧ l' ≤ 256 := by
  induction syms generalizing s F l with
  | nil => exact ⟨F, l, h, hl, hsyms⟩
  | cons sym rest ih =>
    simp only [List.length_cons] at hsyms
    simp only [addLeaves, addLeaf]
    split
    · exact ih h hl (by omega)
    · exact ih (h.addLeafNode (by simp only [nodeCap]; omega) sym _) (by simp [hl]) (by omega)

/-- Where no node is numbered no leaf was added. -/
theorem addLeaves_eq_self (syms : List Byte) (h : (addLeaves syms s).seq.n = 0) : addLeaves syms s = s := by
  induction syms generalizing s with
  | nil => rfl
  | cons sym rest ih =>
    simp only [addLeaves] at h ⊢
    have hrest := ih h
    rw [hrest] at h ⊢
    by_cases hf : s.freqOf sym = 0
    · rw [addLeaf, if_pos hf]
    · rw [addLeaf, if_neg hf, addNode_n] at h
      cases h

/-! ### The merges -/

theorem leastKey_eq_none {l : List NodeIdx} : s.leastKey l = none ↔ l = [] := by
  cases l with
  | nil => simp [State.leastKey]
  | cons i rest =>
    simp only [State.leastKey]
    split
    · simp
    · split <;> simp

theorem leastKey_mem {l : List NodeIdx} {i : NodeIdx} (h : s.leastKey l = some i) : i ∈ l := by
  induction l generalizing i with
  | nil => simp [State.leastKey] at h
  | cons j rest ih =>
    simp only [State.leastKey] at h
    split at h
    · simp_all
    · rename_i k hk
      split at h
      · simp_all
      · exact List.mem_cons_of_mem _ (ih (hk.trans h))

/-- With a node in PQ `extractMin` takes one of them out (R142). -/
theorem extractMin_of_ne_nil (h : s.seq.pq ≠ []) :
    ∃ i ∈ s.seq.pq, s.extractMin = some (i, s.setPq (s.seq.pq.erase i)) := by
  cases hk : s.leastKey s.seq.pq with
  | none => exact absurd (leastKey_eq_none.mp hk) h
  | some i => exact ⟨i, leastKey_mem hk, by simp [State.extractMin, hk]⟩

/-- The tree of a root that is taken out of the roots. -/
theorem exists_root {F : List NodeTree} {pq : List NodeIdx} (h : (F.map NodeTree.idx).Perm pq) {i : NodeIdx}
    (hi : i ∈ pq) : ∃ a G, a.idx = i ∧ F.Perm (a :: G) ∧ (G.map NodeTree.idx).Perm (pq.erase i) := by
  obtain ⟨a, ha, rfl⟩ := List.mem_map.mp (h.mem_iff.mpr hi)
  refine ⟨a, F.erase a, rfl, List.perm_cons_erase ha, ?_⟩
  exact (List.cons_perm_iff_perm_erase.mp (((List.perm_cons_erase ha).map _).symm.trans h)).2

/-- One merge joins two trees of the forest under a new root (R143). -/
theorem mergeStep_forest {F : List NodeTree} {l : Nat} (h : Forest s F l) (hl : l ≤ 256) (hF : 2 ≤ F.length) :
    ∃ G, Forest (mergeStep s) G l ∧ G.length + 1 = F.length := by
  have hlen : s.seq.pq.length = F.length := by simpa using h.roots.length_eq.symm
  have hne : s.seq.pq ≠ [] := by
    intro e
    simp [e] at hlen
    omega
  obtain ⟨i, hi, h₁⟩ := extractMin_of_ne_nil hne
  have hne' : (s.setPq (s.seq.pq.erase i)).seq.pq ≠ [] := by
    intro e
    have := congrArg List.length e
    simp [List.length_erase_of_mem hi] at this
    omega
  obtain ⟨j, hj, h₂⟩ := extractMin_of_ne_nil hne'
  obtain ⟨a, G, rfl, hFG, hG⟩ := exists_root h.roots hi
  obtain ⟨b, K, rfl, hGK, hK⟩ := exists_root hG hj
  have hp : F.Perm (a :: b :: K) := hFG.trans (hGK.cons a)
  have hcount := h.count
  have hlenK := hp.length_eq
  have hn : s.seq.n < nodeCap := by simp [nodeCap] at *; omega
  simp only [List.length_cons] at hlenK
  replace h := h.perm hp
  simp only [mergeStep, h₁, h₂]
  generalize NodeRec.freq _ + NodeRec.freq _ = f
  obtain ⟨hwf, hbelow, hget⟩ :=
    h.node_addNode hn { leaf := false, sym := 0, freq := f, left := a.idx, right := b.idx }
  refine ⟨.node (BitVec.ofNat 9 s.seq.n) a b :: K, ⟨hwf, hbelow, hK.cons _, fun c hc => ?_, ?_, ?_, ?_⟩, ?_⟩
  · have hold {c} (hc : c ∈ a :: b :: K) := h.stored_addNode hn
      { leaf := false, sym := 0, freq := f, left := a.idx, right := b.idx } hc
    refine stored_of_node_eq (s := s.addNode
      { leaf := false, sym := 0, freq := f, left := a.idx, right := b.idx }) ?_ rfl
    rcases List.mem_cons.mp hc with rfl | hc
    · exact stored_node_iff.mpr ⟨⟨f, hget⟩, hold (by simp), hold (by simp)⟩
    · exact hold (by simp [hc])
  · have hnodes := perm_range_succ h.nodes
    simpa [NodeTree.indices, toNat_nodeNumber hn] using hnodes
  · have hleaves := h.leaves
    simpa [NodeTree.shape, Shape.numLeaves, Nat.add_assoc] using hleaves
  · simp
    omega
  · simp
    omega

theorem mergeLoop_forest (k : Nat) {F : List NodeTree} {l : Nat} (h : Forest s F l) (hl : l ≤ 256)
    (hk : F.length ≤ k + 1) : ∃ G, Forest (mergeLoop k s) G l ∧ G.length ≤ 1 := by
  induction k generalizing s F with
  | zero => exact ⟨F, h, by omega⟩
  | succ k ih =>
    have hlen : s.seq.pq.length = F.length := by simpa using h.roots.length_eq.symm
    simp only [mergeLoop]
    split
    · obtain ⟨G, hG, hGlen⟩ := mergeStep_forest h hl (by omega)
      exact ih hG (by omega)
    · exact ⟨F, h, by omega⟩

/-! ### The whole of BUILD -/

/-- The one tree left in PQ is the tree of NODE after the end of BUILD (R140). -/
theorem buildFinish_of_forest {a : NodeTree} {l : Nat} (h : Forest s [a] l) (hl : l ≤ 256) :
    ∃ u, buildFinish l s = .ok u ∧ OnlyTree s u ∧ u.node = s.node ∧ u.treeValid = true ∧ TreeOf u a := by
  have hpq : s.seq.pq = [a.idx] := List.perm_singleton.mp h.roots.symm
  have hcount := h.count
  have hleaves := h.leaves
  simp at hcount hleaves
  obtain ⟨i, hi, hmin⟩ := extractMin_of_ne_nil (s := s) (by simp [hpq])
  have hia : i = a.idx := by simpa [hpq] using hi
  simp only [buildFinish, hmin]
  refine ⟨_, rfl, ⟨_, _, _, _, _, _, rfl⟩, rfl, rfl, ?_, hia.symm, ?_, ?_⟩
  · exact stored_of_node_eq (h.stored a (by simp)) rfl
  · have hn : (BitVec.ofNat 9 s.seq.n).toNat = s.seq.n := by rw [BitVec.toNat_ofNat]; omega
    simpa [hn] using h.nodes
  · rw [BitVec.toNat_ofNat]
    omega

/-- All that the tree-building part of BUILD can do (R140, R145, R146): without a symbol present it is EmptyInput and
NODE is as before; else NODE holds a tree. -/
theorem buildBody_cases (hwf : s.node.wf = true) (hbelow : s.node.below nodeCap = true) :
    (∃ q, buildBody s = .raised .emptyInput { s with seq := q }) ∨
    ∃ u a, buildBody s = .ok u ∧ OnlyTree s u ∧ u.node.wf = true ∧ u.node.below nodeCap = true ∧ u.treeValid = true
      ∧ TreeOf u a := by
  have h0 : Forest { s with seq := { s.seq with n := 0, pq := [] } } [] 0 :=
    ⟨hwf, hbelow, .nil, by simp, .nil, rfl, rfl⟩
  have hsyms : 0 + allSymbols.length ≤ 256 := by simp [allSymbols]
  unfold buildBody
  generalize allSymbols = syms at hsyms ⊢
  obtain ⟨F, l, hF, hn, hl⟩ := addLeaves_forest syms h0 rfl hsyms
  have hframe : OnlyTree s (addLeaves syms { s with seq := { s.seq with n := 0, pq := [] } }) :=
    OnlyTree.trans ⟨_, _, _, _, _, _, rfl⟩ (addLeaves_onlyTree _ _)
  dsimp only
  by_cases hzero : l = 0
  · rw [hzero] at hn
    rw [if_pos hn, addLeaves_eq_self syms hn]
    exact .inl ⟨_, rfl⟩
  · have hcount := hF.count
    rw [if_neg (hn ▸ hzero)]
    generalize addLeaves syms _ = v at *
    subst hn
    have hloop := mergeLoop_onlyTree v.seq.n v
    obtain ⟨G, hG, hlen⟩ := mergeLoop_forest v.seq.n hF hl (by omega)
    have hsum := hG.leaves
    match G, hlen with
    | [], _ => simp at hsum; omega
    | [a], _ =>
      obtain ⟨u, hu, hfin, hnode, hvalid, htree⟩ := buildFinish_of_forest hG hl
      exact .inr ⟨u, a, hu, (hframe.trans hloop).trans hfin, hnode ▸ hG.wf, hnode ▸ hG.below, hvalid, htree⟩

theorem Completed.invalidateTree (hs : Completed s) : Completed s.invalidateTree :=
  ⟨hs.data.invalidateTree, hs.output, hs.err, hs.errCode⟩

/-- A tree built where no code table is valid (R26, R30). -/
theorem Completed.newTree (hs : Completed s) (h : OnlyTree s t) (hl : s.lutValid = false) (hwf : t.node.wf = true)
    (hbelow : t.node.below nodeCap = true) (hv : t.treeValid = true) {a : NodeTree} (ha : TreeOf t a) :
    Completed t := by
  obtain ⟨⟨-, -, hlwf, hlbelow⟩, ⟨-, -, hlcells⟩, -⟩ := hs.data.tables
  obtain ⟨m, r, l, n, v, q, rfl⟩ := h
  refine ⟨⟨hs.data.params, hs.data.memory, ⟨⟨hwf, hbelow, hlwf, hlbelow⟩, ⟨fun _ => hv, fun hf => ?_, hlcells⟩,
    fun _ => ?_⟩, hs.data.freq⟩, hs.output, hs.err, hs.errCode⟩
  · rw [hv] at hf
    cases hf
  · exact ⟨a, ha, fun hf => by rw [show s.lutValid = true from hf] at hl; cases hl⟩

theorem build_inv (hs : Inv s) (h : execBuild s = .next t) : Inv t := by
  have hstart := (completed_start hs .build).invalidateTree
  have hcases := @buildBody_cases (s.commandStart.setPhase .build).invalidateTree rfl rfl
  unfold execBuild at h
  generalize buildBody = build at hcases h
  refine command_inv ?_ h
  rcases hcases with ⟨q, hq⟩ | ⟨u, a, hu, hframe, hwf, hbelow, hvalid, htree⟩
  · rw [hq]
    exact hstart.data.congr
  · rw [hu]
    exact hstart.newTree hframe rfl hwf hbelow hvalid htree

end Sys2Proof.Machine

end

section
/-! SUPPORT. DESERIALIZE leaves a tree of NODE (43_tree_codec.md R175 to R180): between the calls of `Parse` the open
internal nodes on STK, with their finished left subtrees, are numbered in preorder. -/

namespace Sys2Proof.Machine

variable {s t u : State}

/-! ### Preorder numbers -/

theorem numbered_idx (a : Shape) (n : Nat) : (a.numbered n).idx = BitVec.ofNat 9 n := by
  cases a <;> rfl

theorem numbered_shape (a : Shape) (n : Nat) : (a.numbered n).shape = a := by
  induction a generalizing n with
  | leaf sym => rfl
  | node l r ihl ihr => simp [Shape.numbered, NodeTree.shape, ihl, ihr]

/-- Numbers in preorder are consecutive (R179). -/
theorem numbered_indices (a : Shape) {n : Nat} (h : n + a.numNodes ≤ nodeCap) :
    (a.numbered n).indices = List.range' n a.numNodes := by
  induction a generalizing n with
  | leaf sym =>
    simp only [Shape.numNodes] at h
    simp [Shape.numbered, NodeTree.indices, toNat_nodeNumber (show n < nodeCap by omega), Shape.numNodes]
  | node l r ihl ihr =>
    simp only [Shape.numNodes] at h
    simp only [Shape.numbered, NodeTree.indices, toNat_nodeNumber (show n < nodeCap by omega), Shape.numNodes]
    rw [ihl (by omega), ihr (by omega), List.range'_append_1, List.range'_succ]

theorem numLeaves_le_numNodes (a : Shape) : a.numLeaves ≤ a.numNodes := by
  induction a with
  | leaf sym => exact Nat.le_refl _
  | node l r ihl ihr => simp only [Shape.numLeaves, Shape.numNodes]; omega

/-- A tree numbered from `n` on is unaffected by records below `n`. -/
theorem stored_numbered_congr {a : Shape} {n : Nat} (h : n + a.numNodes ≤ nodeCap)
    (ha : (a.numbered n).stored s = true) (hn : ∀ i, n ≤ i → t.node.get? i = s.node.get? i) :
    (a.numbered n).stored t = true := by
  refine (stored_congr fun i hi => hn i ?_).trans ha
  rw [numbered_indices a h, List.mem_range'_1] at hi
  exact hi.1

/-! ### What the parse changes -/

/-- From `s` to `t` only NODE and the transient state may differ. -/
def OnlyNode (s t : State) : Prop := ∃ m q, t = { s with node := m, seq := q }

theorem OnlyNode.refl (s : State) : OnlyNode s s := ⟨_, _, rfl⟩

theorem OnlyNode.trans (h : OnlyNode s t) (k : OnlyNode t u) : OnlyNode s u := by
  obtain ⟨_, _, rfl⟩ := h
  obtain ⟨_, _, rfl⟩ := k
  exact ⟨_, _, rfl⟩

theorem OnlyNode.onlyTree (h : OnlyNode s t) : OnlyTree s t := by
  obtain ⟨_, _, rfl⟩ := h
  exact ⟨_, _, _, _, _, _, rfl⟩

theorem closeNode_onlyNode (j : NodeIdx) (l : List Frame) (s : State) : OnlyNode s (closeNode j l s) := by
  induction l generalizing j s with
  | nil => exact ⟨_, _, rfl⟩
  | cons f rest ih =>
    simp only [closeNode]
    split
    · exact ⟨_, _, rfl⟩
    · exact OnlyNode.trans ⟨_, _, rfl⟩ (ih _ _)

theorem parseLeaf_onlyNode (stop : Nat) (i : NodeIdx) (s : State) : (parseLeaf stop i s).All (OnlyNode s) := by
  simp only [parseLeaf]
  split
  · exact OnlyNode.refl s
  · exact OnlyNode.trans ⟨_, _, rfl⟩ (closeNode_onlyNode _ _ _)

theorem parseNode_onlyNode (stop : Nat) (s : State) : (parseNode stop s).All (OnlyNode s) := by
  simp only [parseNode]
  split_ifs
  · exact OnlyNode.refl s
  · exact ⟨_, _, rfl⟩
  · exact ⟨_, _, rfl⟩
  · exact Run.All.mono (parseLeaf_onlyNode _ _ _) fun _ h => OnlyNode.trans ⟨_, _, rfl⟩ h
  · exact ⟨_, _, rfl⟩

theorem parseLoop_onlyNode (stop k : Nat) (s : State) : (parseLoop stop k s).All (OnlyNode s) := by
  induction k generalizing s with
  | zero => exact OnlyNode.refl s
  | succ k ih =>
    refine Run.All.bind (parseNode_onlyNode stop s) (fun _ h => h) fun t ht => ?_
    split
    · exact ht
    · exact Run.All.mono (ih t) fun _ h => ht.trans h

theorem parseNode_ne_stuck (stop : Nat) (s : State) (f : Fault) : parseNode stop s ≠ .stuck f := by
  simp only [parseNode, parseLeaf]
  split_ifs <;> simp

theorem parseLoop_ne_stuck (stop k : Nat) (s : State) (f : Fault) : parseLoop stop k s ≠ .stuck f := by
  induction k generalizing s with
  | zero => simp [parseLoop]
  | succ k ih =>
    rw [parseLoop]
    cases hr : parseNode stop s with
    | ok t =>
      rw [Run.bind_ok]
      split
      · simp
      · exact ih t
    | raised e t => simp
    | stuck g => exact absurd hr (parseNode_ne_stuck stop s g)

/-! ### The invariant of the parse -/

/-- The frames of STK, top first, are the open internal nodes of a tree in preorder, each with its left subtree if that
is finished; `n` is the next number and `k` the number of leaves so far (R175, R179). -/
inductive OpenNodes (s : State) : List Frame → Nat → Nat → Prop
  | root : OpenNodes s [] 0 0
  | entered {fs : List Frame} {n k : Nat} (p : BitString) (h : OpenNodes s fs n k) (hn : n < nodeCap) :
    OpenNodes s ({ idx := BitVec.ofNat 9 n, path := p, left := none } :: fs) (n + 1) k
  | leftDone {fs : List Frame} {n k : Nat} (p : BitString) (l : Shape) (h : OpenNodes s fs n k)
    (hn : n + 1 + l.numNodes ≤ nodeCap) (hl : (l.numbered (n + 1)).stored s = true) :
    OpenNodes s ({ idx := BitVec.ofNat 9 n, path := p, left := some (BitVec.ofNat 9 (n + 1)) } :: fs)
      (n + 1 + l.numNodes) (k + l.numLeaves)

/-- Records from the next number on are no matter to the open nodes. -/
theorem OpenNodes.congr {fs : List Frame} {n k : Nat} (h : OpenNodes s fs n k)
    (hn : ∀ i < n, t.node.get? i = s.node.get? i) : OpenNodes t fs n k := by
  induction h with
  | root => exact .root
  | entered p _ hlt ih => exact .entered p (ih fun i hi => hn i (by omega)) hlt
  | @leftDone fs n k p l _ hle hl ih =>
    refine .leftDone p l (ih fun i hi => hn i (by omega)) hle ?_
    refine (stored_congr fun i hi => hn i ?_).trans hl
    rw [numbered_indices l hle, List.mem_range'_1] at hi
    exact hi.2

/-- NODE in canonical form, with no record outside it (R28). -/
def NodeInv (s : State) : Prop := s.node.wf = true ∧ s.node.below nodeCap = true

theorem NodeInv.nodeWrite (h : NodeInv s) {n : Nat} (hn : n < nodeCap) (r : NodeRec) :
    NodeInv (s.nodeWrite (BitVec.ofNat 9 n) r) :=
  ⟨Store.wf_write h.1 _ r, Store.below_write ((toNat_nodeNumber hn).symm ▸ hn) r h.2⟩

/-- The state of the parse when the next number is `n` and there are `k` leaves: STK is empty and the whole tree stands
in NODE, or it is not and its frames are the open nodes. -/
def Parsed (s : State) (n k : Nat) : Prop :=
  NodeInv s ∧ n ≤ nodeCap ∧
    (s.seq.stk ≠ [] ∧ OpenNodes s s.seq.stk n k
    ∨ s.seq.stk = [] ∧ ∃ a : Shape, (a.numbered 0).stored s = true ∧ a.numNodes = n ∧ a.numLeaves = k)

/-- A finished subtree goes back to the open nodes (R175). -/
theorem closeNode_parsed {fs : List Frame} {n k : Nat} (h : OpenNodes s fs n k) {a : Shape}
    (ha : (a.numbered n).stored s = true) (hn : n + a.numNodes ≤ nodeCap) (hs : NodeInv s) :
    Parsed (closeNode (BitVec.ofNat 9 n) fs s) (n + a.numNodes) (k + a.numLeaves) := by
  induction fs generalizing s n k a with
  | nil =>
    cases h
    exact ⟨hs, hn, .inr ⟨rfl, a, stored_of_node_eq ha rfl, by omega, by omega⟩⟩
  | cons f fs ih =>
    cases h with
    | @entered _ n _ p h hlt =>
      refine ⟨hs, hn, .inl ⟨by simp [closeNode], ?_⟩⟩
      exact .leftDone p a (h.congr fun _ _ => rfl) hn (stored_of_node_eq ha rfl)
    | @leftDone _ n k p l h hle hl =>
      have hnodes : n + 1 + l.numNodes + a.numNodes = n + (Shape.node l a).numNodes := by
        simp only [Shape.numNodes]; omega
      have hleaves : k + l.numLeaves + a.numLeaves = k + (Shape.node l a).numLeaves := Nat.add_assoc _ _ _
      have hlt : n < nodeCap := by omega
      simp only [closeNode]
      rw [hnodes] at hn ⊢
      rw [hleaves]
      generalize hr : NodeRec.mk false 0 0 (BitVec.ofNat 9 (n + 1)) (BitVec.ofNat 9 (n + 1 + l.numNodes)) = r
      have hother : ∀ i, i ≠ n → (s.nodeWrite (BitVec.ofNat 9 n) r).node.get? i = s.node.get? i := fun i hi =>
        Store.get?_write_other _ (by rwa [toNat_nodeNumber hlt]) r
      refine ih (h.congr fun i hi => hother i (by omega)) ?_ hn (hs.nodeWrite hlt r)
      refine stored_node_iff.mpr ⟨⟨0, ?_⟩, stored_numbered_congr hle hl fun i hi => hother i (by omega),
        stored_numbered_congr (by omega) ha fun i hi => hother i (by omega)⟩
      rw [numbered_idx, numbered_idx, hr]
      exact Store.get?_write_self _ _ r

theorem closeNode_counters (j : NodeIdx) (fs : List Frame) (s : State) :
    (closeNode j fs s).seq.n = s.seq.n ∧ (closeNode j fs s).seq.leaves = s.seq.leaves := by
  induction fs generalizing j s with
  | nil => exact ⟨rfl, rfl⟩
  | cons f fs ih =>
    simp only [closeNode]
    split
    · exact ⟨rfl, rfl⟩
    · exact ih _ _

/-- A leaf parsed is a finished subtree of one node (R175). -/
theorem parseLeaf_parsed {stop n : Nat} (hs : NodeInv s) (h : OpenNodes s s.seq.stk n s.seq.leaves) (hn : n < nodeCap)
    (hnext : s.seq.n = n + 1) (ht : parseLeaf stop (BitVec.ofNat 9 n) s = .ok t) :
    Parsed t t.seq.n t.seq.leaves := by
  simp only [parseLeaf] at ht
  split_ifs at ht with hstop
  generalize hr : NodeRec.mk true (s.memRead .ibuf s.seq.ipos) 0 0 0 = r at ht
  generalize hv : ({ s.advance.nodeWrite (BitVec.ofNat 9 n) r with seq := _ } : State) = v at ht
  obtain rfl := Run.ok.inj ht
  have hnode : NodeInv v := by subst hv; exact hs.nodeWrite hn r
  have hget : ∀ i, v.node.get? i = (s.nodeWrite (BitVec.ofNat 9 n) r).node.get? i := by subst hv; exact fun _ => rfl
  have hvn : v.seq.n = n + 1 := by subst hv; exact hnext
  have hvl : v.seq.leaves = s.seq.leaves + 1 := by subst hv; rfl
  have hstk : (s.advance.nodeWrite (BitVec.ofNat 9 n) r).seq.stk = s.seq.stk := rfl
  obtain ⟨hcn, hcl⟩ := closeNode_counters (BitVec.ofNat 9 n) s.seq.stk v
  rw [hstk, hcn, hcl, hvn, hvl]
  refine closeNode_parsed (a := .leaf (s.memRead .ibuf s.seq.ipos)) (h.congr fun i hi => ?_) ?_ hn hnode
  · rw [hget]
    exact Store.get?_write_other _ (by rw [toNat_nodeNumber hn]; omega) r
  · refine stored_leaf_iff.mpr ⟨0, ?_⟩
    rw [hget, hr]
    exact Store.get?_write_self _ _ r

/-- One call of `Parse` keeps the state of the parse (R175). -/
theorem parseNode_parsed {stop : Nat} (hs : NodeInv s) (h : OpenNodes s s.seq.stk s.seq.n s.seq.leaves)
    (ht : parseNode stop s = .ok t) : Parsed t t.seq.n t.seq.leaves := by
  simp only [parseNode] at ht
  split_ifs at ht with hstop hflag hcap hleaf
  · refine parseLeaf_parsed ?_ ?_ ?_ ?_ ht
    · exact hs
    · exact h.congr fun _ _ => rfl
    · exact Nat.lt_of_not_le hcap
    · rfl
  · obtain rfl := Run.ok.inj ht
    refine ⟨hs, Nat.lt_of_not_le hcap, .inl ⟨by simp, ?_⟩⟩
    exact .entered [] (h.congr fun _ _ => rfl) (Nat.lt_of_not_le hcap)

theorem parseLoop_parsed {stop : Nat} (k : Nat) (hs : NodeInv s) (h : OpenNodes s s.seq.stk s.seq.n s.seq.leaves)
    (ht : parseLoop stop k s = .ok t) :
    NodeInv t ∧ t.seq.n ≤ nodeCap ∧ ∃ a : Shape, (a.numbered 0).stored t = true ∧ a.numNodes = t.seq.n
      ∧ a.numLeaves = t.seq.leaves := by
  induction k generalizing s with
  | zero => simp [parseLoop] at ht
  | succ k ih =>
    obtain ⟨v, hv, ht⟩ := Run.bind_eq_ok ht
    obtain ⟨hnode, hn, hrest⟩ := parseNode_parsed hs h hv
    split at ht
    · rename_i hstk
      cases ht
      rcases hrest with ⟨hne, -⟩ | ⟨-, ha⟩
      · exact absurd hstk hne
      · exact ⟨hnode, hn, ha⟩
    · rename_i hstk
      rcases hrest with ⟨-, hopen⟩ | ⟨he, -⟩
      · exact ih hnode hopen ht
      · exact absurd he hstk

/-- A preorder-numbered tree in NODE, with the registers that go with it, is a tree of NODE (R30, R179). -/
theorem treeOf_numbered {a : Shape} (ha : (a.numbered 0).stored s = true) (hcap : a.numNodes ≤ nodeCap)
    (hroot : s.root = 0) (hnnode : s.nnode = BitVec.ofNat 9 a.numNodes)
    (hnleaf : s.nleaf = BitVec.ofNat 9 a.numLeaves) : TreeOf s (a.numbered 0) := by
  have hle := numLeaves_le_numNodes a
  simp only [nodeCap] at hcap
  refine ⟨ha, (numbered_idx a 0).trans hroot.symm, ?_, ?_⟩
  · rw [numbered_indices a (by simpa [nodeCap] using hcap), hnnode, BitVec.toNat_ofNat, Nat.mod_eq_of_lt (by omega),
      List.range_eq_range']
  · rw [numbered_shape, hnleaf, BitVec.toNat_ofNat, Nat.mod_eq_of_lt (by omega)]

/-- All that DESERIALIZE's body can do (R175, R176): it raises, with nothing but NODE and the transient state changed,
or NODE holds a tree in preorder. -/
theorem deserializeRange_cases (start stop : Nat) (hs : NodeInv s) :
    (∃ e t, deserializeRange start stop s = .raised e t ∧ OnlyNode s t) ∨
    ∃ (u : State) (a : Shape), deserializeRange start stop s = .ok u ∧ OnlyTree s u ∧ NodeInv u ∧ u.treeValid = true
      ∧ TreeOf u (a.numbered 0) := by
  unfold deserializeRange
  generalize hv : ({ s with seq := { s.seq with n := 0, leaves := 0, ipos := start, stk := [] } } : State) = v
  have hsv : OnlyNode s v := ⟨s.node, v.seq, by subst hv; rfl⟩
  have hnode : NodeInv v := by subst hv; exact hs
  have hopen : OpenNodes v v.seq.stk v.seq.n v.seq.leaves := by subst hv; exact .root
  have hframe := parseLoop_onlyNode stop (stop - start) v
  cases hr : parseLoop stop (stop - start) v with
  | stuck f => exact absurd hr (parseLoop_ne_stuck _ _ _ _)
  | raised e t =>
    rw [hr] at hframe
    exact .inl ⟨e, t, rfl, hsv.trans hframe⟩
  | ok t =>
    rw [hr] at hframe
    rw [Run.bind_ok]
    by_cases hpos : t.seq.ipos = stop
    · obtain ⟨ht, hn, a, ha, hnodes, hleaves⟩ := parseLoop_parsed _ hnode hopen hr
      rw [if_neg (not_not_intro hpos)]
      refine .inr ⟨_, a, rfl, (hsv.trans hframe).onlyTree.trans ⟨_, _, _, _, _, _, rfl⟩, ht, rfl,
        treeOf_numbered (stored_of_node_eq ha rfl) (hnodes ▸ hn) rfl (by rw [hnodes]) (by rw [hleaves])⟩
    · rw [if_pos hpos]
      exact .inl ⟨_, t, rfl, hsv.trans hframe⟩

theorem deserialize_inv (hs : Inv s) (h : execDeserialize s = .next t) : Inv t := by
  refine command_inv ?_ h
  have hstart := (completed_start hs .des).invalidateTree
  generalize s.commandStart.setPhase .des = v at hstart ⊢
  split
  · exact ⟨hstart.data.params, hstart.data.memory, tablesInv_of_invalid, hstart.data.freq⟩
  · rcases deserializeRange_cases 0 v.inLen.toNat (s := v.invalidateTree) ⟨rfl, rfl⟩ with
      ⟨e, u, hu, hframe⟩ | ⟨u, a, hu, hframe, hnode, hvalid, htree⟩
    · rw [hu]
      obtain ⟨m, q, rfl⟩ := hframe
      exact ⟨hstart.data.params, hstart.data.memory, tablesInv_of_invalid, hstart.data.freq⟩
    · rw [hu]
      exact hstart.newTree hframe rfl hnode.1 hnode.2 hvalid htree

end Sys2Proof.Machine

end

section
/-! SUPPORT. GENCODES leaves the code table of the tree in NODE (42_code_table.md R160 to R164): the walk writes the
paths of the leaves in preorder, and a symbol's record is that of its last leaf. -/

namespace Sys2Proof.Machine

variable {s t u : State}

/-! ### Records written to LUT -/

/-- The records of a list of codes, written in order (R160). -/
def lutWrites (l : List (Byte × BitString)) (st : Store LutEntry) : Store LutEntry :=
  l.foldl (fun st c => st.write c.1.toNat (lutEntryOf c.2)) st

theorem lutWrites_append (l m : List (Byte × BitString)) (st : Store LutEntry) :
    lutWrites (l ++ m) st = lutWrites m (lutWrites l st) := List.foldl_append

/-- The last code of a symbol in the list is the one LUT holds (R164). -/
theorem get?_lutWrites (l : List (Byte × BitString)) (st : Store LutEntry) (sym : Byte) :
    (lutWrites l st).get? sym.toNat
      = match l.reverse.find? fun c => c.1 == sym with
        | some c => some (lutEntryOf c.2)
        | none => st.get? sym.toNat := by
  induction l using List.reverseRecOn with
  | nil => rfl
  | append_singleton l c ih =>
    rw [lutWrites_append, List.reverse_append]
    by_cases h : c.1 = sym
    · subst h
      simp [lutWrites]
    · have hne : sym.toNat ≠ c.1.toNat := fun e => h (BitVec.eq_of_toNat_eq e.symm)
      have hget : (lutWrites [c] (lutWrites l st)).get? sym.toNat = (lutWrites l st).get? sym.toNat :=
        Store.get?_write_other _ hne _
      simp [hget, ih, h]

theorem lutWrites_inv (l : List (Byte × BitString)) {st : Store LutEntry} (hwf : st.wf = true)
    (hbelow : st.below 256 = true) : (lutWrites l st).wf = true ∧ (lutWrites l st).below 256 = true := by
  induction l generalizing st with
  | nil => exact ⟨hwf, hbelow⟩
  | cons c rest ih => exact ih (Store.wf_write hwf _ _) (Store.below_write c.1.isLt _ hbelow)

/-! ### The walk -/

theorem nodeRead_of_get? {i : NodeIdx} {r : NodeRec} (h : s.node.get? i.toNat = some r) : s.nodeRead i = r :=
  Store.read_of_get? _ h

/-- The frame of a subtree still to visit, with the path to it (R160). -/
def walkFrame (c : NodeTree × BitString) : Frame := { idx := c.1.idx, path := c.2, left := none }

/-- The number of nodes still to visit. -/
def walkSize (todo : List (NodeTree × BitString)) : Nat := (todo.map fun c => c.1.shape.numNodes).sum

/-- The codes still to write: the paths of the leaves of the subtrees on STK (R161). -/
def walkCodes (todo : List (NodeTree × BitString)) : List (Byte × BitString) :=
  todo.flatMap fun c => c.1.shape.paths c.2

theorem walkVisit_leaf {i : NodeIdx} {sym : Byte} (h : (NodeTree.leaf i sym).stored s = true) (p : BitString) :
    walkVisit (walkFrame (.leaf i sym, p)) s
      = { s with lut := s.lut.write sym.toNat (lutEntryOf p), seq := { s.seq with path := p } } := by
  obtain ⟨f, hf⟩ := stored_leaf_iff.mp h
  have hr := nodeRead_of_get? (s := { s with seq := { s.seq with path := p } }) hf
  simp only [walkVisit, walkFrame, NodeTree.idx, hr]
  rfl

theorem walkVisit_node {i : NodeIdx} {l r : NodeTree} (h : (NodeTree.node i l r).stored s = true) (p : BitString) :
    walkVisit (walkFrame (.node i l r, p)) s
      = { s with seq := { s.seq with
          path := p
          stk := walkFrame (l, p ++ [false]) :: walkFrame (r, p ++ [true]) :: s.seq.stk } } := by
  obtain ⟨⟨f, hf⟩, -⟩ := stored_node_iff.mp h
  have hr := nodeRead_of_get? (s := { s with seq := { s.seq with path := p } }) hf
  simp only [walkVisit, walkFrame, NodeTree.idx, hr]
  rfl

/-- The walk of the stored subtrees on STK ends, within as many visits as they have nodes, and writes their codes. -/
theorem walkLoop_of_stored (k : Nat) {todo : List (NodeTree × BitString)} (hstk : s.seq.stk = todo.map walkFrame)
    (hstored : ∀ c ∈ todo, c.1.stored s = true) (hk : walkSize todo ≤ k) :
    ∃ q, walkLoop k s = .ok { s with lut := lutWrites (walkCodes todo) s.lut, seq := q } := by
  induction k generalizing s todo with
  | zero =>
    cases todo with
    | nil => exact ⟨s.seq, by simp [walkLoop, hstk, walkCodes, lutWrites]⟩
    | cons c rest =>
      have := numNodes_pos c.1.shape
      simp [walkSize] at hk
      omega
  | succ k ih =>
    cases todo with
    | nil => exact ⟨s.seq, by simp [walkLoop, hstk, walkCodes, lutWrites]⟩
    | cons c rest =>
      obtain ⟨a, p⟩ := c
      have ha : a.stored (s.setStk (rest.map walkFrame)) = true :=
        stored_of_node_eq (hstored (a, p) (by simp)) rfl
      have hrest : ∀ c ∈ rest, c.1.stored s = true := fun c hc => hstored c (by simp [hc])
      simp only [walkLoop, hstk, List.map_cons]
      cases a with
      | leaf i sym =>
        rw [walkVisit_leaf ha]
        obtain ⟨q, hq⟩ := ih (todo := rest) (s := { s.setStk (rest.map walkFrame) with
            lut := s.lut.write sym.toNat (lutEntryOf p)
            seq := { (s.setStk (rest.map walkFrame)).seq with path := p } }) rfl
          (fun c hc => stored_of_node_eq (hrest c hc) rfl) (by
            simp [walkSize, NodeTree.shape, Shape.numNodes] at hk ⊢
            omega)
        exact ⟨q, hq⟩
      | node i l r =>
        rw [walkVisit_node ha]
        obtain ⟨-, hl, hr⟩ := stored_node_iff.mp ha
        obtain ⟨q, hq⟩ := ih (todo := (l, p ++ [false]) :: (r, p ++ [true]) :: rest)
          (s := { s.setStk (rest.map walkFrame) with
            seq := { (s.setStk (rest.map walkFrame)).seq with
              path := p
              stk := walkFrame (l, p ++ [false]) :: walkFrame (r, p ++ [true]) :: rest.map walkFrame } }) rfl
          (by
            simp only [List.forall_mem_cons]
            exact ⟨stored_of_node_eq hl rfl, stored_of_node_eq hr rfl, fun c hc => stored_of_node_eq (hrest c hc) rfl⟩)
          (by
            simp [walkSize, NodeTree.shape, Shape.numNodes] at hk ⊢
            omega)
        have hcodes : walkCodes ((l, p ++ [false]) :: (r, p ++ [true]) :: rest)
            = walkCodes ((NodeTree.node i l r, p) :: rest) := by
          simp [walkCodes, NodeTree.shape, Shape.paths]
        rw [hcodes] at hq
        exact ⟨q, hq⟩

/-! ### GENCODES -/

theorem length_indices (a : NodeTree) : a.indices.length = a.shape.numNodes := by
  induction a with
  | leaf i sym => rfl
  | node i l r ihl ihr => simp [NodeTree.indices, NodeTree.shape, Shape.numNodes, ihl, ihr]

/-- A tree in NODE has at most NODE_CAP nodes (R30). -/
theorem numNodes_le_nodeCap {a : NodeTree} (h : TreeOf s a) : a.shape.numNodes ≤ nodeCap := by
  obtain ⟨-, -, hperm, -⟩ := h
  have hlen := hperm.length_eq
  rw [length_indices, List.length_range] at hlen
  have := s.nnode.isLt
  simp only [nodeCap]
  omega

/-- The record of a symbol in the table is that of its last code (R164), or the empty record (R160). -/
theorem get?_codes (a : Shape) (st : Store LutEntry) (sym : Byte) :
    (lutWrites a.codes (st.fill 256 { len := 0, code := 0 })).get? sym.toNat = some (a.lutEntry sym) := by
  rw [get?_lutWrites, Shape.lutEntry, Shape.codeOf]
  cases a.codes.reverse.find? fun c => c.1 == sym with
  | none => simp [Store.get?_fill, sym.isLt]
  | some c => rfl

/-- GENCODES' body with a tree in NODE ends, and LUT is the tree's code table (R160 to R164). -/
theorem gencodesBody_of_tree {a : NodeTree} (h : TreeOf s a) :
    ∃ l q, gencodesBody s = .ok { s with lut := l, lutValid := true, seq := q } ∧ l.wf = true ∧ l.below 256 = true
      ∧ ∀ sym : Byte, l.get? sym.toNat = some (a.shape.lutEntry sym) := by
  have hsize := numNodes_le_nodeCap h
  obtain ⟨hstored, hroot, -, -⟩ := h
  obtain ⟨hwf, hbelow⟩ := lutWrites_inv a.shape.codes (Store.wf_fill s.lut 256 { len := 0, code := 0 })
    (Store.below_fill s.lut 256 _)
  refine ⟨lutWrites a.shape.codes (s.lut.fill 256 { len := 0, code := 0 }), ?_⟩
  refine (exists_congr fun q => and_iff_left ⟨hwf, hbelow, get?_codes a.shape s.lut⟩).mpr ?_
  generalize hv : ({ s with lutValid := false, lut := s.lut.fill 256 { len := 0, code := 0 } } : State) = v
  have hst : a.stored v = true := by subst hv; exact stored_of_node_eq hstored rfl
  simp only [gencodesBody, hv]
  cases a with
  | leaf i sym =>
    obtain ⟨f, hf⟩ := stored_leaf_iff.mp hst
    simp only [(congrArg v.nodeRead hroot.symm).trans (nodeRead_of_get? hf)]
    subst hv
    exact ⟨s.seq, rfl⟩
  | node i l r =>
    obtain ⟨⟨f, hf⟩, -⟩ := stored_node_iff.mp hst
    simp only [(congrArg v.nodeRead hroot.symm).trans (nodeRead_of_get? hf)]
    obtain ⟨q, hq⟩ := walkLoop_of_stored nodeCap (s := v.setStk [{ idx := s.root, path := [], left := none }])
      (todo := [(.node i l r, [])]) (by rw [← hroot]; rfl) (fun c hc => by
        rw [List.mem_singleton.mp hc]
        exact stored_of_node_eq hst rfl) (by simpa [walkSize] using hsize)
    have hcodes : walkCodes [(.node i l r, [])] = (NodeTree.node i l r).shape.codes := List.append_nil _
    rw [hcodes] at hq
    subst hv
    exact ⟨q, congrArg (fun run : Run => run.map fun t => { t with lutValid := true }) hq⟩

theorem gencodes_inv (hs : Inv s) (h : execGencodes s = .next t) : Inv t := by
  refine command_inv ?_ h
  have hstart := completed_start hs .gen
  generalize s.commandStart.setPhase .gen = v at hstart ⊢
  split
  · rename_i hvalid
    obtain ⟨hstore, ⟨-, -, -⟩, htree⟩ := hstart.data.tables
    obtain ⟨a, ha, -⟩ := htree hvalid
    obtain ⟨l, q, hl, hwf, hbelow, htable⟩ := gencodesBody_of_tree ha
    rw [hl]
    refine ⟨⟨hstart.data.params, hstart.data.memory, ⟨⟨hstore.1, hstore.2.1, hwf, hbelow⟩,
      ⟨fun _ => hvalid, fun hf => ?_, by simp⟩, fun _ => ⟨a, ⟨stored_of_node_eq ha.1 rfl, ha.2⟩, fun _ => htable⟩⟩,
      hstart.data.freq⟩, hstart.output, hstart.err, hstart.errCode⟩
    rw [show v.treeValid = false from hf] at hvalid
    cases hvalid
  · exact hstart.data

end Sys2Proof.Machine

end

section
/-! SUPPORT. The composite commands and the host's accesses keep the invariant, and so every step does. -/

namespace Sys2Proof.Machine

variable {s t u : State}

/-! ### The composite commands -/

/-- What a composite command, whose tables are discarded in every outcome (R213), has to keep while it runs. -/
structure Running (s : State) : Prop where
  params : ParamsInv s
  memory : MemoryInv s
  err : s.err = false
  errCode : s.errCode = 0

theorem Completed.running (h : Completed s) : Running s := ⟨h.data.params, h.data.memory, h.err, h.errCode⟩

theorem Running.onlyTables (h : Running s) (k : OnlyTables s t) : Running t := by
  obtain ⟨_, _, _, _, _, _, _, _, _, _, rfl⟩ := k
  exact ⟨h.params, h.memory, h.err, h.errCode⟩

theorem Running.onlyOutput (h : Running s) (k : OnlyOutput s t) (hobuf : ObufInv t) : Running t := by
  have hmem := k.memoryInv h.memory hobuf
  obtain ⟨_, _, rfl⟩ := k
  exact ⟨h.params, hmem, h.err, h.errCode⟩

/-- Clean tables make the data of a running composite command whole again (R213). -/
theorem Running.completed_cleanTables (h : Running s) (hout : OutputInv s) : Completed s.cleanTables :=
  ⟨dataInv_cleanTables h.params h.memory, hout, h.err, h.errCode⟩

theorem dataInv_clearTotal (h : DataInv s) : DataInv s.clearTotal :=
  h.congr

/-- COMPRESS from its clean tables on: whatever its tables come to, the file is written within OBUF. -/
theorem restores_compressed {r : Run} (hs : Running s) (hr : r.All (OnlyTables s)) :
    ((r.bind compressFile).map fun t => t.setOutLen.cleanTables).Restores .compress := by
  cases r with
  | stuck f => trivial
  | raised e t =>
    have ht := hs.onlyTables hr
    exact (dataInv_clearTotal (dataInv_cleanTables ht.params ht.memory)).onlyOutput_forget (OnlyOutput.refl _)
  | ok t =>
    have ht := hs.onlyTables hr
    have hframe := compressFile_onlyOutput t
    rw [Run.bind_ok]
    cases hfile : compressFile t with
    | stuck f => trivial
    | raised e u =>
      rw [hfile] at hframe
      have hmem := hframe.memoryInv_forget ht.memory
      obtain ⟨o, q, rfl⟩ := hframe
      exact ⟨ht.params, hmem, tablesInv_of_invalid, freqInv_cleanTables t⟩
    | ok u =>
      have hobuf := putClosed_obufInv.compressFile hfile (obufInv_setOpos_zero ht.memory)
      have hu := ht.onlyOutput (hframe.of_ok hfile) hobuf
      exact Running.completed_cleanTables ⟨hu.params, hu.memory, hu.err, hu.errCode⟩ (outputInv_setOutLen hobuf)

theorem compress_inv (hs : Inv s) (h : execCompress s = .next t) : Inv t := by
  have hstart := (completed_start hs .count).running
  have htables := @compressTables_onlyTables
  unfold execCompress at h
  generalize compressTables = tables at htables h
  refine command_inv ?_ h
  exact restores_compressed (hstart.onlyTables ((cleanTables_onlyTables _).trans (clearTotal_onlyTables _))) (htables _)

/-- What DECOMPRESS's body has to come to: on an error IBUF alone matters, since OBUF and EXTBUF become unspecified and
the tables are discarded (R74, R213). -/
def Run.Decompressed : Run → Prop
  | .ok s => Running s ∧ OutputInv s
  | .raised _ s => ParamsInv s ∧ SpaceInv s .ibuf
  | .stuck _ => True

theorem Running.raised (h : Running s) (e : ErrKind) : (Run.raised e s).Decompressed :=
  ⟨h.params, memoryInv_iff.mp h.memory .ibuf⟩

/-- The extension copied stays within EXTBUF (R220). -/
theorem Running.afterCopyExt (h : Running s) {r k : Nat} (hr : k + r ≤ s.params.extCap) : Running (copyExt r k s) := by
  induction r generalizing k s with
  | zero => exact h
  | succ r ih =>
    have hwrite : Running (s.memWrite .extbuf k (s.memRead .ibuf (11 + k))) :=
      ⟨h.params, h.memory.memWrite (show k < s.params.extCap by omega) _, h.err, h.errCode⟩
    rw [copyExt]
    exact ih hwrite (by simp only [State.memWrite_params]; omega)

theorem decompressPayload_decompressed (e p : Nat) (h : Running s) : (decompressPayload e p s).Decompressed := by
  simp only [decompressPayload]
  split_ifs
  · exact h.raised _
  · exact h.raised _
  · generalize hv : (s.setPhase .unpack).setOpos 0 = v
    have hv' : OnlyOutput s v := by subst hv; exact (setPhase_onlyOutput _ _).trans (setOpos_onlyOutput _ _)
    have h0 : ObufInv v := by subst hv; exact obufInv_setOpos_zero (s := s.setPhase .unpack) h.memory
    generalize (s32 (s.memRead4 .ibuf p)).toNat = count
    have hframe := hv'.after (unpackRange_onlyOutput (p + 4) s.inLen.toNat count v)
    have hobuf := putClosed_obufInv.unpackRange (p + 4) s.inLen.toNat count v
    cases hr : unpackRange (p + 4) s.inLen.toNat count v with
    | stuck f => trivial
    | raised e u =>
      rw [hr] at hframe
      refine ⟨?_, hframe.spaceInv (by simp) (memoryInv_iff.mp h.memory .ibuf)⟩
      obtain ⟨_, _, rfl⟩ := hframe
      exact h.params
    | ok u =>
      have hu := h.onlyOutput (hframe.of_ok hr) (hobuf.of_ok hr h0)
      exact ⟨⟨hu.params, hu.memory, hu.err, hu.errCode⟩, outputInv_setOutLen (hobuf.of_ok hr h0)⟩

theorem decompressTree_decompressed (e : Nat) (h : Running s) : (decompressTree e s).Decompressed := by
  simp only [decompressTree]
  split_ifs
  · exact h.raised _
  · exact h.raised _
  · exact h.raised _
  · generalize 15 + e + (s32 (s.memRead4 .ibuf (11 + e))).toNat = stop
    have hframe := deserializeRange_onlyTree (15 + e) stop (s.setPhase .des)
    cases hr : deserializeRange (15 + e) stop (s.setPhase .des) with
    | stuck f => trivial
    | raised e u =>
      rw [hr] at hframe
      exact (h.onlyTables ((setPhase_onlyTables .des s).trans hframe.onlyTables)).raised _
    | ok u =>
      have hu := h.onlyTables ((setPhase_onlyTables .des s).trans (hframe.of_ok hr).onlyTables)
      exact decompressPayload_decompressed e stop (hu.onlyTables (setPhase_onlyTables .hdr u))

theorem decompressBody_decompressed (h : Running s) : (decompressBody s).Decompressed := by
  simp only [decompressBody]
  split_ifs
  case neg => exact decompressTree_decompressed _ (h.afterCopyExt (by omega))
  all_goals exact h.raised _

theorem decompress_inv (hs : Inv s) (h : execDecompress s = .next t) : Inv t := by
  refine command_inv ?_ h
  have hstart := (completed_start hs .hdr).running
  have hbody := decompressBody_decompressed
    (hstart.onlyTables ((cleanTables_onlyTables _).trans (clearTotal_onlyTables _)))
  cases hr : decompressBody (s.commandStart.setPhase .hdr).cleanTables.clearTotal with
  | stuck f => trivial
  | raised e u =>
    rw [hr] at hbody
    obtain ⟨hparams, hibuf⟩ := hbody
    refine ⟨hparams, memoryInv_forgetSpace fun sp hsp => ?_,
      tablesInv_of_invalid, freqInv_cleanTables u⟩
    cases sp with
    | ibuf => exact hibuf
    | obuf => exact ⟨Store.wf_forget _, Store.below_forget _ _⟩
    | extbuf => exact absurd rfl hsp
  | ok u =>
    rw [hr] at hbody
    exact hbody.1.completed_cleanTables hbody.2

/-! ### Every command -/

/-- Every command keeps the invariant. -/
theorem exec_inv (i : Instr) (hs : Inv s) (h : exec i s = .next t) : Inv t := by
  cases i with
  | nop => exact nop_inv hs h
  | count => exact count_inv hs h
  | build => exact build_inv hs h
  | gencodes => exact gencodes_inv hs h
  | serialize => exact serialize_inv hs h
  | deserialize => exact deserialize_inv hs h
  | pack => exact pack_inv hs h
  | unpack => exact unpack_inv hs h
  | compress => exact compress_inv hs h
  | decompress => exact decompress_inv hs h
  | clear => exact clear_inv hs h

/-! ### Every host access -/

/-- No part of the invariant speaks of IN_LEN, TOTAL, EXT_LEN or the host's side. -/
theorem Inv.withRegisters (hs : Inv s) (i c e : Word) (rest : List HostAccess) (d : Option HostDatum) (n : Nat) :
    Inv { s with inLen := i, total := c, extLen := e, host := rest, lastRead := d, freeCount := n } := by
  obtain ⟨hdata, hidle, hstatus, hout⟩ := inv_iff.mp hs
  exact inv_iff.mpr ⟨hdata.congr, hidle, hstatus, hout⟩

/-- The platform's reset meets the invariant in any state with admitted parameters (R280). -/
theorem platformReset_inv (h : ParamsInv s) : Inv (platformReset s) := by
  have hfreq : (platformReset s).freqSum = 0 := freqSum_zero fun sym => Vector.getElem_replicate _
  refine inv_iff.mpr ⟨⟨h, ⟨rfl, rfl, rfl, rfl⟩, tablesInv_of_invalid, ?_⟩, ⟨rfl, rfl⟩,
    ⟨fun _ => rfl, fun herr => by cases herr⟩, Nat.zero_le _⟩
  simp [FreqInv, hfreq]

theorem startCommand_inv {w : Word} (hs : Inv s) (h : startCommand w s = .next t) : Inv t := by
  simp only [startCommand] at h
  split at h
  · exact exec_inv _ hs h
  · cases h
    exact DataInv.inv_errorExit ((completed_start hs s.seq.pc).data.congr) _

theorem writeReg_inv {r : RegName} {v : Word} (hs : Inv s) (h : writeReg r v s = .next t) : Inv t := by
  cases r
  case cmd => exact startCommand_inv hs h
  case inLen | total | extLen =>
    cases h
    exact hs.withRegisters _ _ _ s.host s.lastRead s.freeCount
  all_goals
    cases h
    exact hs

theorem memWrite_inv {sp : Space} {a : Nat} (hs : Inv s) (ha : a < bufCap s.params sp) (b : Byte) :
    Inv (s.memWrite sp a b) := by
  obtain ⟨hdata, hidle, hstatus, hout⟩ := inv_iff.mp hs
  exact inv_iff.mpr ⟨⟨hdata.params, hdata.memory.memWrite ha b,
    hdata.tables.congr, hdata.freq⟩, hidle, hstatus, hout⟩

theorem hostAccess_inv {a : HostAccess} (hs : Inv s) (h : hostAccess a s = .next t) : Inv t := by
  cases a with
  | platformReset =>
    cases h
    exact platformReset_inv hs.1
  | readWord addr =>
    simp only [hostAccess] at h
    split at h
    · rename_i off _
      split_ifs at h
      cases h
      obtain ⟨d, n, hread⟩ := readReg_frame (regAt off) s
      exact hread ▸ hs.withRegisters s.inLen s.total s.extLen s.host (some d) n
    · cases h
    · cases h
  | writeWord addr v =>
    simp only [hostAccess] at h
    split at h
    · split_ifs at h
      · cases h
        exact hs
      · exact writeReg_inv hs h
    · cases h
    · cases h
  | readByte addr =>
    simp only [hostAccess] at h
    split at h
    · cases h
    · rename_i sp o _
      cases h
      obtain ⟨d, n, hread⟩ := readBuffer_frame sp o s
      exact hread ▸ hs.withRegisters s.inLen s.total s.extLen s.host (some d) n
    · cases h
  | writeByte addr b =>
    simp only [hostAccess] at h
    split at h
    · cases h
    · rename_i sp o hplace
      cases h
      split
      · exact hs
      · exact memWrite_inv hs (placeOf_buffer_lt hplace) b
    · cases h

/-- Settles O59: an idle step keeps the state, every other step is a host access. -/
theorem stepKeepsTheInvariant : Obligations.StepKeepsTheInvariant := by
  intro s t hs h
  cases hhost : s.host with
  | nil =>
    simp only [step, hhost] at h
    cases h
    exact hs
  | cons a rest =>
    rw [step_of_host hhost] at h
    exact hostAccess_inv (hs.withRegisters s.inLen s.total s.extLen rest s.lastRead s.freeCount) h

end Sys2Proof.Machine

end

section
/-! SUPPORT. Host accesses and bytes (20_memory.md sections 2 and 5): the accesses that stop, the address of a buffer's
byte, and the bytes that `Put32` stores. -/

namespace Sys2Proof.Machine

variable {s : State}

/-! ### The address of a buffer's byte -/

/-- Of two regions that are apart, an address in the second is not in the first (R66). -/
theorem not_mem_of_apart {b₁ n₁ b₂ n₂ addr : Nat} (h : Params.apart b₁ n₁ b₂ n₂ = true)
    (hlo : b₂ ≤ addr) (hhi : addr < b₂ + n₂) : ¬(b₁ ≤ addr ∧ addr < b₁ + n₁) := by
  simp only [Params.apart, Bool.or_eq_true, decide_eq_true_eq] at h
  omega

/-- With admitted parameters the address map gives each address of a buffer to that buffer (R66). -/
theorem placeOf_bufBase_add {p : Params} (hp : p.wellFormed = true) {sp : Space} {a : Nat} (ha : a < bufCap p sp) :
    placeOf p (bufBase p sp + a) = .buffer sp a := by
  simp only [Params.wellFormed, Bool.and_eq_true] at hp
  obtain ⟨⟨⟨⟨⟨⟨⟨-, hri⟩, hro⟩, hre⟩, hio⟩, hie⟩, hoe⟩, -⟩ := hp
  have hlo : bufBase p sp ≤ bufBase p sp + a := Nat.le_add_right _ a
  have hhi : bufBase p sp + a < bufBase p sp + bufCap p sp := Nat.add_lt_add_left ha _
  have hoff : bufBase p sp + a - bufBase p sp = a := Nat.add_sub_cancel_left _ a
  cases sp with
  | ibuf =>
    rw [placeOf, if_neg (not_mem_of_apart hri hlo hhi), if_pos ⟨hlo, hhi⟩]
    exact congrArg _ hoff
  | obuf =>
    rw [placeOf, if_neg (not_mem_of_apart hro hlo hhi), if_neg (not_mem_of_apart hio hlo hhi),
      if_pos ⟨hlo, hhi⟩]
    exact congrArg _ hoff
  | extbuf =>
    rw [placeOf, if_neg (not_mem_of_apart hre hlo hhi), if_neg (not_mem_of_apart hie hlo hhi),
      if_neg (not_mem_of_apart hoe hlo hhi), if_pos ⟨hlo, hhi⟩]
    exact congrArg _ hoff

/-- Settles O19, by the place of the address. -/
theorem wrongHostAccessesStop : Obligations.WrongHostAccessesStop := by
  intro s addr rest
  refine ⟨fun off hplace ha => ⟨fun hhost => ?_, fun v hhost => ?_⟩,
    fun sp a hplace => ⟨fun hhost => ?_, fun v hhost => ?_⟩,
    fun off hplace => ⟨fun hhost => ?_, fun b hhost => ?_⟩,
    fun hplace => ⟨fun hhost => ?_, fun v hhost => ?_, fun hhost => ?_, fun b hhost => ?_⟩⟩
  iterate 2 simp only [step_of_host hhost, hostAccess, hplace, if_neg ha]
  all_goals simp only [step_of_host hhost, hostAccess, hplace]

/-- Settles O18: the address is the byte's own, so the access is that byte's write or read. -/
theorem hostBytesAreStoredAndReadBack : Obligations.HostBytesAreStoredAndReadBack := by
  intro s sp a rest hp hb ha
  have hplace : placeOf s.params (bufBase s.params sp + a) = .buffer sp a :=
    placeOf_bufBase_add hp (by cases sp <;> exact ha)
  refine ⟨fun b hhost => ?_, fun hhost => ?_⟩
  · refine ⟨({ s with host := rest } : State).memWrite sp a b, ?_, ?_, fun sp' a' hne => ?_, rfl⟩
    · simp [step_of_host hhost, hostAccess, hplace, hb]
    · exact Memory.readByte_writeByte_self s.mem sp a b
    · exact Memory.readByte_writeByte_other s.mem hne b
  · simp only [step_of_host hhost, hostAccess, hplace, readBuffer, hb]
    rfl

/-! ### Four-byte integers -/

/-- The bytes of a four-byte read (R61). -/
theorem memRead4_bytes (s : State) (sp : Space) (a : Nat) :
    (s.memRead4 sp a).extractLsb' 0 8 = s.memRead sp a ∧ (s.memRead4 sp a).extractLsb' 8 8 = s.memRead sp (a + 1)
    ∧ (s.memRead4 sp a).extractLsb' 16 8 = s.memRead sp (a + 2)
    ∧ (s.memRead4 sp a).extractLsb' 24 8 = s.memRead sp (a + 3) := by
  simp only [State.memRead4, BitVec.extractLsb'_append_eq_ite]
  simp

/-- A four-byte read gives the word whose bytes stand there, least significant first (R61). -/
theorem memRead4_of_bytes {sp : Space} {a : Nat} {v : Word} (h0 : s.memRead sp a = v.extractLsb' 0 8)
    (h1 : s.memRead sp (a + 1) = v.extractLsb' 8 8) (h2 : s.memRead sp (a + 2) = v.extractLsb' 16 8)
    (h3 : s.memRead sp (a + 3) = v.extractLsb' 24 8) : s.memRead4 sp a = v := by
  rw [State.memRead4, h0, h1, h2, h3]
  iterate 3 rw [BitVec.extractLsb'_append_extractLsb'_eq_extractLsb' (by rfl)]
  exact BitVec.extractLsb'_eq_self

/-- `Put` of a list with room for all of it: each byte reads back, and OPOS stands after the last. -/
theorem putAll_reads_back (l : List Byte) (h : s.seq.opos + l.length ≤ s.params.obufCap) :
    ∃ t, s.putAll l = .ok t ∧ (∀ (k : Nat) (hk : k < l.length), t.memRead .obuf (s.seq.opos + k) = l[k])
      ∧ t.seq.opos = s.seq.opos + l.length := by
  obtain ⟨o, ho, hin, -⟩ := putAll_of_room l s h
  exact ⟨_, ho, fun k hk => Store.read_of_get? _ (hin k hk), rfl⟩

/-- Settles O20: the bytes `Put32` stores read back, and so the word they make up. -/
theorem integersAreLittleEndian : Obligations.IntegersAreLittleEndian := by
  refine ⟨memRead4_bytes, fun s v h => ?_⟩
  obtain ⟨t, ht, hread, hopos⟩ := putAll_reads_back (le32 v) h
  have h0 : t.memRead .obuf s.seq.opos = v.extractLsb' 0 8 := hread 0 (by simp [le32])
  have h1 : t.memRead .obuf (s.seq.opos + 1) = v.extractLsb' 8 8 := hread 1 (by simp [le32])
  have h2 : t.memRead .obuf (s.seq.opos + 2) = v.extractLsb' 16 8 := hread 2 (by simp [le32])
  have h3 : t.memRead .obuf (s.seq.opos + 3) = v.extractLsb' 24 8 := hread 3 (by simp [le32])
  exact ⟨t, ht, h0, h1, h2, h3, memRead4_of_bytes h0 h1 h2 h3, hopos⟩

end Sys2Proof.Machine

end

section
/-! SUPPORT. The bytes a command leaves unchanged (20_memory.md section 8, R74): how far the bodies of the commands write,
and what both ends of a command keep of it. -/

namespace Sys2Proof.Machine

variable {s t u : State}

/-! ### How far OBUF is written -/

/-- From `s` to `t` OPOS has not gone back, `Put` has not taken it past OBUF, and the bytes of OBUF from the new OPOS on
are as before. -/
structure ObufTailKept (s t : State) : Prop where
  params : t.params = s.params
  opos_le : s.seq.opos ≤ t.seq.opos
  within : s.seq.opos ≤ s.params.obufCap → t.seq.opos ≤ t.params.obufCap
  kept : ∀ a, t.seq.opos ≤ a → t.memRead .obuf a = s.memRead .obuf a

/-- `Put` writes at OPOS, below the new OPOS. -/
theorem putClosed_obufTailKept : PutClosed ObufTailKept where
  refl _ := ⟨rfl, le_rfl, id, fun _ _ => rfl⟩
  trans h k := ⟨k.params.trans h.params, h.opos_le.trans k.opos_le, fun hs => k.within (h.within hs),
    fun a ha => (k.kept a ha).trans (h.kept a (k.opos_le.trans ha))⟩
  move _ _ hq := ⟨rfl, hq.ge, fun hs => hq.trans_le hs, fun _ _ => rfl⟩
  putByte s b hlt := ⟨rfl, Nat.le_succ _, fun _ => hlt, fun _ ha =>
    s.mem.readByte_writeByte_other (fun ⟨_, heq⟩ => absurd (heq ▸ ha) (Nat.not_succ_le_self _)) b⟩

/-- An admitted capacity of OBUF fits OUT_LEN (R10). -/
theorem obufCap_lt_of_wellFormed {p : Params} (hp : p.wellFormed = true) : p.obufCap < 2 ^ 32 := by
  have hmax : p.obufCap ≤ Params.maxCap := by simp_all [Params.wellFormed]
  exact hmax.trans_lt (by decide)

/-- The bytes of OBUF from OUT_LEN on are in `t` as in `s`. -/
def KeptFromOutLen (s t : State) : Prop := ∀ a, t.outLen.toNat ≤ a → t.memRead .obuf a = s.memRead .obuf a

/-- The bytes of EXTBUF from EXT_LEN on are in `t` as in `s`. -/
def KeptFromExtLen (s t : State) : Prop := ∀ a, t.extLen.toNat ≤ a → t.memRead .extbuf a = s.memRead .extbuf a

/-- An output written from offset 0 on ends at OUT_LEN: with admitted parameters OUT_LEN holds OPOS without wrap (R10,
R37). -/
theorem ObufTailKept.keptFromOutLen (hp : s.params.wellFormed = true) (h : ObufTailKept (s.setOpos 0) t) :
    KeptFromOutLen s t.setOutLen := by
  intro a ha
  have hcap : t.seq.opos < 2 ^ 32 := by
    have hparams : t.params = s.params := h.params
    exact (hparams ▸ h.within (Nat.zero_le _)).trans_lt (obufCap_lt_of_wellFormed hp)
  rw [State.setOutLen_outLen, BitVec.toNat_ofNat, Nat.mod_eq_of_lt hcap] at ha
  exact h.kept a ha

/-! ### What a command's pseudocode has to keep -/

theorem memRead_congr {sp : Space} (h : t.mem.space sp = s.mem.space sp) (a : Nat) : t.memRead sp a = s.memRead sp a :=
  congrArg (·.read (Config.freeByte sp) a) h

/-- What the command `i` keeps of the buffers in every outcome: the spaces it does not write. -/
def SpacesKept (i : Instr) (s t : State) : Prop :=
  t.mem.ibuf = s.mem.ibuf
  ∧ (i ∈ [Instr.nop, .count, .build, .gencodes, .deserialize, .clear] → t.mem.obuf = s.mem.obuf)
  ∧ (i ≠ .decompress → t.mem.extbuf = s.mem.extbuf)

/-- What the command `i` keeps of the spaces it writes, when it succeeds. -/
def OutputsEnd (i : Instr) (s t : State) : Prop :=
  (i ∈ [Instr.serialize, .pack, .unpack, .compress, .decompress] → KeptFromOutLen s t)
  ∧ (i = .decompress → KeptFromExtLen s t)

/-- What the pseudocode of the command `i`, started in `s`, has to come to. -/
def Run.KeepsBytes (i : Instr) (s : State) : Run → Prop
  | .ok t => SpacesKept i s t ∧ OutputsEnd i s t ∧ t.err = false
  | .raised _ t => SpacesKept i s t
  | .stuck _ => True

/-- Sequencing: what a piece has reached, whether it goes on or raises, and then the rest. -/
theorem keepsBytes_bind {i : Instr} {P : State → Prop} {r : Run} {k : State → Run} (hr : r.All P)
    (hspaces : ∀ t, P t → SpacesKept i s t) (hk : ∀ t, P t → (k t).KeepsBytes i s) : (r.bind k).KeepsBytes i s := by
  cases r with
  | ok t => exact hk t hr
  | raised e t => exact hspaces t hr
  | stuck f => trivial

theorem Run.All.and {P Q : State → Prop} {r : Run} (hP : r.All P) (hQ : r.All Q) : r.All fun t => P t ∧ Q t := by
  cases r with
  | ok t => exact ⟨hP, hQ⟩
  | raised e t => exact ⟨hP, hQ⟩
  | stuck f => trivial

theorem SpacesKept.errorEntry {i : Instr} (h : SpacesKept i s t) (e : ErrKind) :
    SpacesKept i s (t.errorEntry i e) := by
  obtain ⟨hibuf, hobuf, hext⟩ := h
  obtain ⟨-, -, -, -, -, hentry⟩ := errorEntry_environment i e t
  exact ⟨hentry.trans hibuf, fun hi => (errorEntry_obuf_kept hi e t).trans (hobuf hi),
    fun hi => (errorEntry_extbuf_kept hi e t).1.trans (hext hi)⟩

/-- Both ends of a command keep what its pseudocode keeps, whatever state it starts in; an error leaves OUT_LEN = 0
(R258). -/
theorem command_keepsBytes {i : Instr} {p : Phase} {body : State → Run} (hp : s.params.wellFormed = true)
    (hbody : ∀ a : State, a.params.wellFormed = true → a.err = false → (body a).KeepsBytes i a)
    (h : command i p body s = .next t) :
    SpacesKept i s t ∧ (t.err = false → OutputsEnd i s t) ∧ (t.err = true → t.outLen = 0) := by
  have hbody := hbody (s.commandStart.setPhase p) hp rfl
  rcases command_eq_next h with ⟨u, hu, rfl⟩ | ⟨e, u, hu, rfl⟩
  · rw [hu] at hbody
    obtain ⟨hspaces, hend, herr⟩ := hbody
    exact ⟨hspaces, fun _ => hend, fun htrue => absurd (herr.symm.trans htrue) (by decide)⟩
  · rw [hu] at hbody
    exact ⟨SpacesKept.errorEntry (s := s) hbody e, fun hfalse => absurd hfalse (by simp), fun _ => rfl⟩

/-! ### The commands that write no buffer -/

/-- The parameters, memory and ERR are in `t` as in `s`. -/
structure SameMemory (s t : State) : Prop where
  params : t.params = s.params
  mem : t.mem = s.mem
  err : t.err = s.err

theorem invalidateTree_onlyTables (s : State) : OnlyTables s s.invalidateTree :=
  ⟨s.freq, s.total, _, _, _, _, _, _, _, s.seq, rfl⟩

theorem OnlyTables.sameMemory (h : OnlyTables s t) : SameMemory s t := by
  obtain ⟨_, _, _, _, _, _, _, _, _, _, rfl⟩ := h
  exact ⟨rfl, rfl, rfl⟩

theorem SameMemory.refl (s : State) : SameMemory s s := ⟨rfl, rfl, rfl⟩

theorem SameMemory.spacesKept (h : SameMemory s t) (i : Instr) : SpacesKept i s t := by
  simp [SpacesKept, h.mem]

/-- A run that keeps memory, of a command that writes neither OBUF nor EXTBUF. -/
theorem keepsBytes_of_sameMemory {i : Instr} {r : Run}
    (hi : i ∈ [Instr.nop, .count, .build, .gencodes, .deserialize, .clear]) (hs : s.err = false)
    (hr : r.All (SameMemory s)) : r.KeepsBytes i s := by
  cases r with
  | ok t =>
    refine ⟨hr.spacesKept i, ?_, hr.err.trans hs⟩
    simp only [List.mem_cons, List.not_mem_nil, or_false] at hi
    rcases hi with rfl | rfl | rfl | rfl | rfl | rfl <;> simp [OutputsEnd]
  | raised e t => exact hr.spacesKept i
  | stuck f => trivial

/-- What a run keeps from a state with the same memory. -/
theorem SameMemory.keepsBytes {i : Instr} {r : Run} (h : SameMemory s t) (hr : r.KeepsBytes i t) :
    r.KeepsBytes i s := by
  cases r with
  | ok u =>
    simpa only [Run.KeepsBytes, SpacesKept, OutputsEnd, KeptFromOutLen, KeptFromExtLen, State.memRead, h.mem] using hr
  | raised e u => simpa only [Run.KeepsBytes, SpacesKept, h.mem] using hr
  | stuck f => trivial

/-! ### The commands that write OBUF -/

theorem OnlyOutput.spacesKept {i : Instr} (hi : i ∈ [Instr.serialize, .pack, .unpack, .compress])
    (h : OnlyOutput s t) : SpacesKept i s t := by
  obtain ⟨_, _, rfl⟩ := h
  simp only [List.mem_cons, List.not_mem_nil, or_false] at hi
  rcases hi with rfl | rfl | rfl | rfl <;> simp [SpacesKept]

/-- The success of a command that has written OBUF alone, from offset 0 on, and then OUT_LEN. -/
theorem OnlyOutput.keepsBytes {i : Instr} (hi : i ∈ [Instr.serialize, .pack, .unpack, .compress])
    (hp : s.params.wellFormed = true) (hs : s.err = false) (h : OnlyOutput s t)
    (htail : ObufTailKept (s.setOpos 0) t) : (Run.ok t.setOutLen).KeepsBytes i s := by
  have hspaces : SpacesKept i s t := h.spacesKept hi
  refine ⟨hspaces, ⟨fun _ => htail.keptFromOutLen hp, ?_⟩, ?_⟩
  · rintro rfl
    simp at hi
  · obtain ⟨_, _, rfl⟩ := h
    exact hs

/-- A run that writes OBUF from offset 0 on, and then OUT_LEN. -/
theorem keepsBytes_of_output {i : Instr} (hi : i ∈ [Instr.serialize, .pack, .unpack, .compress])
    (hp : s.params.wellFormed = true) (hs : s.err = false) {r : Run} (hframe : r.All (OnlyOutput s))
    (htail : r.All (ObufTailKept (s.setOpos 0))) : (r.map State.setOutLen).KeepsBytes i s :=
  keepsBytes_bind (hframe.and htail) (fun _ h => h.1.spacesKept hi) fun _ h => h.1.keepsBytes hi hp hs h.2

/-- The phases of COMPRESS that write the file, and the end of COMPRESS (R210). -/
theorem compressFile_keepsBytes (hp : s.params.wellFormed = true) (hs : s.err = false) :
    ((compressFile s).map fun t => t.setOutLen.cleanTables).KeepsBytes .compress s := by
  have hframe := compressFile_onlyOutput s
  cases hfile : compressFile s with
  | ok t =>
    have hend : (Run.ok t.setOutLen).KeepsBytes .compress s :=
      OnlyOutput.keepsBytes (by simp) hp hs (hframe.of_ok hfile) (putClosed_obufTailKept.compressFile hfile)
    exact hend
  | raised e t =>
    rw [hfile] at hframe
    exact OnlyOutput.spacesKept (by simp) hframe
  | stuck f => trivial

/-! ### DECOMPRESS -/

/-- A state `t` of DECOMPRESS, with an extension of length `e`, before it writes OBUF: memory is as in `s` but for the
extension (R220). -/
structure ExtensionCopied (e : Nat) (s t : State) : Prop where
  params : t.params = s.params
  err : t.err = s.err
  ibuf : t.mem.ibuf = s.mem.ibuf
  obuf : t.mem.obuf = s.mem.obuf
  extbuf : ∀ a, e ≤ a → t.memRead .extbuf a = s.memRead .extbuf a

theorem ExtensionCopied.onlyTables {e : Nat} (h : ExtensionCopied e s t) (k : OnlyTables t u) :
    ExtensionCopied e s u := by
  obtain ⟨_, _, _, _, _, _, _, _, _, _, rfl⟩ := k
  exact ⟨h.params, h.err, h.ibuf, h.obuf, h.extbuf⟩

/-- Of DECOMPRESS an error keeps IBUF alone (R74). -/
theorem spacesKept_decompress (h : t.mem.ibuf = s.mem.ibuf) : SpacesKept .decompress s t := by
  simp [SpacesKept, h]

/-- The bytes of EXTBUF from the end of the copy on are as before (R220). -/
theorem copyExt_keeps_from (r k : Nat) (s : State) {a : Nat} (ha : k + r ≤ a) :
    (copyExt r k s).memRead .extbuf a = s.memRead .extbuf a := by
  induction r generalizing k s with
  | zero => rfl
  | succ r ih =>
    rw [copyExt, ih (k + 1) _ (by omega)]
    exact s.mem.readByte_writeByte_other (by omega) _

theorem copyExt_extensionCopied (e : Nat) (s : State) : ExtensionCopied e s (copyExt e 0 s) := by
  have hkeeps : ∀ a, e ≤ a → (copyExt e 0 s).memRead .extbuf a = s.memRead .extbuf a :=
    fun a ha => copyExt_keeps_from e 0 s (by omega)
  obtain ⟨o, ho⟩ := copyExt_frame e 0 s
  exact ⟨by rw [ho], by rw [ho], by rw [ho], by rw [ho], hkeeps⟩

theorem decompressPayload_keepsBytes {e : Nat} (p : Nat) (he : e < 2 ^ 32) (hp : s.params.wellFormed = true)
    (hs : s.err = false) (h : ExtensionCopied e s t) : (decompressPayload e p t).KeepsBytes .decompress s := by
  simp only [decompressPayload]
  split_ifs
  · exact spacesKept_decompress h.ibuf
  · exact spacesKept_decompress h.ibuf
  · have hframe := ((setPhase_onlyOutput .unpack t).trans (setOpos_onlyOutput 0 _)).after
      (unpackRange_onlyOutput (p + 4) t.inLen.toNat (s32 (t.memRead4 .ibuf p)).toNat _)
    refine keepsBytes_bind (hframe.and (putClosed_obufTailKept.unpackRange _ _ _ _)) (fun u hu => ?_) fun u hu => ?_
    · obtain ⟨⟨_, _, rfl⟩, -⟩ := hu
      exact spacesKept_decompress h.ibuf
    · obtain ⟨hframe, htail⟩ := hu
      have hparams : (t.setPhase .unpack).params.wellFormed = true := h.params.symm ▸ hp
      have hout : KeptFromOutLen t u.setOutLen := htail.keptFromOutLen (s := t.setPhase .unpack) hparams
      obtain ⟨_, _, rfl⟩ := hframe
      refine ⟨spacesKept_decompress h.ibuf, ⟨fun _ a ha => ?_, fun _ a ha => ?_⟩, h.err.trans hs⟩
      · exact (hout a ha).trans (memRead_congr (sp := .obuf) h.obuf a)
      · rw [BitVec.toNat_ofNat, Nat.mod_eq_of_lt he] at ha
        exact h.extbuf a ha

theorem decompressTree_keepsBytes {e : Nat} (he : e < 2 ^ 32) (hp : s.params.wellFormed = true)
    (hs : s.err = false) (h : ExtensionCopied e s t) : (decompressTree e t).KeepsBytes .decompress s := by
  simp only [decompressTree]
  split_ifs
  · exact spacesKept_decompress h.ibuf
  · exact spacesKept_decompress h.ibuf
  · exact spacesKept_decompress h.ibuf
  · refine keepsBytes_bind (P := ExtensionCopied e s) ?_ (fun _ hu => spacesKept_decompress hu.ibuf) fun u hu =>
      decompressPayload_keepsBytes _ he hp hs (hu.onlyTables (setPhase_onlyTables .hdr u))
    exact Run.All.mono (deserializeRange_onlyTree _ _ _) fun u hu =>
      h.onlyTables ((setPhase_onlyTables .des t).trans hu.onlyTables)

theorem Run.KeepsBytes.cleanTables {i : Instr} {r : Run} (h : r.KeepsBytes i s) :
    (r.map State.cleanTables).KeepsBytes i s := by
  cases r <;> exact h

theorem s32_toNat_lt (w : Word) : (s32 w).toNat < 2 ^ 32 := by
  have := BitVec.toInt_lt (x := w)
  simp only [s32]
  omega

theorem decompressBody_keepsBytes (hp : s.params.wellFormed = true) (hs : s.err = false) :
    (decompressBody s).KeepsBytes .decompress s := by
  simp only [decompressBody]
  split_ifs
  case neg => exact decompressTree_keepsBytes (s32_toNat_lt _) hp hs (copyExt_extensionCopied _ s)
  all_goals exact spacesKept_decompress rfl

/-! ### Every command -/

/-- Every command keeps the bytes R74 says, whatever it comes to. -/
theorem exec_keepsBytes (i : Instr) (hp : s.params.wellFormed = true) (h : exec i s = .next t) :
    SpacesKept i s t ∧ (t.err = false → OutputsEnd i s t) ∧ (t.err = true → t.outLen = 0) := by
  cases i with
  | nop =>
    simp only [exec, execNop] at h
    refine command_keepsBytes hp (fun a _ hs => keepsBytes_of_sameMemory (by simp) hs ?_) h
    exact SameMemory.refl a
  | count =>
    simp only [exec, execCount] at h
    refine command_keepsBytes hp (fun a _ hs => keepsBytes_of_sameMemory (by simp) hs ?_) h
    exact Run.All.mono (countBody_onlyTables _) fun u hu =>
      (((cleanTables_onlyTables _).trans (clearTotal_onlyTables _)).trans hu).sameMemory
  | build =>
    simp only [exec, execBuild] at h
    have hbuild := @buildBody_onlyTree
    generalize buildBody = build at hbuild h
    refine command_keepsBytes hp (fun a _ hs => keepsBytes_of_sameMemory (by simp) hs ?_) h
    exact Run.All.mono (hbuild _) fun u hu => ((invalidateTree_onlyTables _).trans hu.onlyTables).sameMemory
  | gencodes =>
    simp only [exec, execGencodes] at h
    refine command_keepsBytes hp (fun a _ hs => keepsBytes_of_sameMemory (by simp) hs ?_) h
    split
    · exact Run.All.mono (gencodesBody_onlyTable _) fun u hu => hu.onlyTables.sameMemory
    · exact SameMemory.refl a
  | serialize =>
    simp only [exec, execSerialize] at h
    refine command_keepsBytes hp (fun a hp hs => ?_) h
    split
    · exact keepsBytes_of_output (by simp) hp hs ((setOpos_onlyOutput 0 a).after (emitTree_onlyOutput _))
        (putClosed_obufTailKept.emitTree _)
    · exact (OnlyOutput.refl a).spacesKept (by simp)
  | deserialize =>
    simp only [exec, execDeserialize] at h
    refine command_keepsBytes hp (fun a _ hs => keepsBytes_of_sameMemory (by simp) hs ?_) h
    split
    · exact (invalidateTree_onlyTables a).sameMemory
    · exact Run.All.mono (deserializeRange_onlyTree _ _ _) fun u hu =>
        ((invalidateTree_onlyTables a).trans hu.onlyTables).sameMemory
  | pack =>
    simp only [exec, execPack] at h
    refine command_keepsBytes hp (fun a hp hs => ?_) h
    split_ifs
    · exact (OnlyOutput.refl a).spacesKept (by simp)
    · exact (OnlyOutput.refl a).spacesKept (by simp)
    · exact keepsBytes_of_output (by simp) hp hs ((setOpos_onlyOutput 0 a).after (packRange_onlyOutput _ _ _))
        (putClosed_obufTailKept.packRange _ _ _)
  | unpack =>
    simp only [exec, execUnpack] at h
    refine command_keepsBytes hp (fun a hp hs => ?_) h
    split_ifs
    · exact (OnlyOutput.refl a).spacesKept (by simp)
    · exact (OnlyOutput.refl a).spacesKept (by simp)
    · exact keepsBytes_of_output (by simp) hp hs ((setOpos_onlyOutput 0 a).after (unpackRange_onlyOutput _ _ _ _))
        (putClosed_obufTailKept.unpackRange _ _ _ _)
  | compress =>
    simp only [exec, execCompress] at h
    have htables := @compressTables_onlyTables
    generalize compressTables = tables at htables h
    refine command_keepsBytes hp (fun a hp hs => ?_) h
    rw [Run.map, Run.bind_assoc]
    refine keepsBytes_bind (P := SameMemory a) ?_ (fun u hu => hu.spacesKept .compress) fun u hu =>
      hu.keepsBytes (compressFile_keepsBytes (hu.params.symm ▸ hp) (hu.err.trans hs))
    exact Run.All.mono (htables _) fun u hu =>
      (((cleanTables_onlyTables _).trans (clearTotal_onlyTables _)).trans hu).sameMemory
  | decompress =>
    simp only [exec, execDecompress] at h
    exact command_keepsBytes hp
      (fun a hp hs => (decompressBody_keepsBytes (s := a.cleanTables.clearTotal) hp hs).cleanTables) h
  | clear =>
    simp only [exec, execClear] at h
    refine command_keepsBytes hp (fun a _ hs => keepsBytes_of_sameMemory (by simp) hs ?_) h
    exact ⟨rfl, rfl, rfl⟩

/-- Settles O56, by what every command keeps of the spaces and, on success, of the outputs' ends. -/
theorem commandsKeepTheOtherBytes : Obligations.CommandsKeepTheOtherBytes := by
  intro i s t hp h
  obtain ⟨⟨hibuf, hobuf, hext⟩, hend, hfail⟩ := exec_keepsBytes i hp h
  exact ⟨memRead_congr (sp := .ibuf) hibuf, fun hi => memRead_congr (sp := .obuf) (hobuf hi),
    fun hi herr => (hend herr).1 hi, fun hi => memRead_congr (sp := .extbuf) (hext hi),
    fun hi herr => (hend herr).2 hi, hfail⟩

end Sys2Proof.Machine

end

section
/-! SUPPORT. The command word (30_encoding.md R90 to R92): a word is its two fields, and the opcode map is the inverse of
`opcodeOf`. -/

namespace Sys2Proof

/-- The opcode map gives a command at its opcode alone (R91). -/
theorem opcodeMap_eq_some_iff {op : BitVec 8} {i : Instr} : opcodeMap op = some i ↔ op = opcodeOf i := by
  constructor
  · intro h
    unfold opcodeMap at h
    repeat' split at h
    all_goals cases h
    all_goals assumption
  · rintro rfl
    cases i <;> rfl

/-- A word decodes to a command exactly where its upper bits are zero and its opcode is the command's (R90, R91). -/
theorem decode_eq_ok_iff {w : Word} {i : Instr} :
    decode w = .ok i ↔ zeroField w = 0 ∧ opcodeField w = opcodeOf i := by
  rw [← opcodeMap_eq_some_iff, decode]
  by_cases hzero : zeroField w = 0
  · cases opcodeMap (opcodeField w) <;> simp [hzero]
  · rw [if_pos hzero]
    exact ⟨nofun, fun h => absurd h.1 hzero⟩

/-- A word is its field zero above its field opcode (R90). -/
theorem zeroField_append_opcodeField (w : Word) : zeroField w ++ opcodeField w = w := by
  rw [zeroField, opcodeField, BitVec.extractLsb'_append_extractLsb'_eq_extractLsb' (by rfl)]
  exact BitVec.extractLsb'_eq_self

/-- The word of a command is the one with zero upper bits and the command's opcode (R90). -/
theorem eq_encode_iff {w : Word} {i : Instr} : w = encode i ↔ zeroField w = 0 ∧ opcodeField w = opcodeOf i := by
  constructor
  · rintro rfl
    exact ⟨BitVec.extractLsb'_append_eq_left, BitVec.extractLsb'_append_eq_right⟩
  · rintro ⟨hzero, hop⟩
    rw [← zeroField_append_opcodeField w, hzero, hop]
    rfl

/-- Settles O5: both sides say that the upper bits are zero and the opcode is the command's. -/
theorem decodeAcceptsOnlyTheElevenWords : Obligations.DecodeAcceptsOnlyTheElevenWords := by
  intro w i
  exact decode_eq_ok_iff.trans eq_encode_iff.symm

/-- Settles O4, by O5 at the command's own word. -/
theorem decodeOfEncodeIsTheCommand : Obligations.DecodeOfEncodeIsTheCommand := by
  intro i _
  exact (decodeAcceptsOnlyTheElevenWords (encode i) i).mpr rfl

/-- Settles O3: each of the eleven words is its command's, and the two others show why they are refused. -/
theorem writtenOutWordsDecode : Obligations.WrittenOutWordsDecode := by
  have h := decodeOfEncodeIsTheCommand
  exact ⟨h .nop rfl, h .count rfl, h .build rfl, h .gencodes rfl, h .serialize rfl, h .deserialize rfl, h .pack rfl,
    h .unpack rfl, h .compress rfl, h .decompress rfl, h .clear rfl, rfl, rfl⟩

end Sys2Proof

end

section
/-! SUPPORT. What the writers of OBUF put, said once for each: the bytes it would put, and that it ends with just these
bytes put or is Resource (30_encoding.md R94, R96; 43_tree_codec.md R170, R172). -/

namespace Sys2Proof.Machine

variable {s t u : State}

/-! ### The bytes of a space -/

@[simp] theorem length_bytes (s : State) (sp : Space) (a n : Nat) : (s.bytes sp a n).length = n := by
  simp [State.bytes]

theorem bytes_succ (s : State) (sp : Space) (a n : Nat) :
    s.bytes sp a (n + 1) = s.memRead sp a :: s.bytes sp (a + 1) n := by
  simp [State.bytes, List.range_succ_eq_map, Function.comp_def, Nat.add_assoc, Nat.add_comm 1]

theorem bytes_add (s : State) (sp : Space) (a m n : Nat) :
    s.bytes sp a (m + n) = s.bytes sp a m ++ s.bytes sp (a + m) n := by
  simp [State.bytes, List.range_add, Function.comp_def, Nat.add_assoc]

theorem bytes_congr {sp : Space} {a n : Nat} (h : ∀ k, a ≤ k → k < a + n → t.memRead sp k = s.memRead sp k) :
    t.bytes sp a n = s.bytes sp a n :=
  List.map_congr_left fun k hk => h (a + k) (Nat.le_add_right a k) (Nat.add_lt_add_left (List.mem_range.mp hk) a)

/-! ### Bytes put -/

/-- From `s` to `t` the bytes `l` have been put at OPOS onwards, and nothing else but the transient state has changed
(R172). -/
structure Wrote (l : List Byte) (s t : State) : Prop where
  frame : OnlyOutput s t
  tail : ObufTailKept s t
  opos : t.seq.opos = s.seq.opos + l.length
  bytes : t.bytes .obuf s.seq.opos l.length = l
  before : ∀ a < s.seq.opos, t.memRead .obuf a = s.memRead .obuf a

/-- A move of the other cursors puts nothing. -/
theorem Wrote.move (s : State) (q : Seq) (hq : q.opos = s.seq.opos) : Wrote [] s { s with seq := q } :=
  ⟨(OnlyOutput.refl s).of_seq q, putClosed_obufTailKept.move s q hq, hq, rfl, fun _ _ => rfl⟩

theorem Wrote.refl (s : State) : Wrote [] s s := Wrote.move s s.seq rfl

theorem Wrote.trans {l m : List Byte} (h : Wrote l s t) (k : Wrote m t u) : Wrote (l ++ m) s u where
  frame := h.frame.trans k.frame
  tail := putClosed_obufTailKept.trans h.tail k.tail
  opos := by rw [k.opos, h.opos, List.length_append, Nat.add_assoc]
  bytes := by
    have hfirst : u.bytes .obuf s.seq.opos l.length = t.bytes .obuf s.seq.opos l.length :=
      bytes_congr fun a _ ha => k.before a (by rw [h.opos]; exact ha)
    rw [List.length_append, bytes_add, hfirst, h.bytes, ← h.opos, k.bytes]
  before a ha := (k.before a (by rw [h.opos]; omega)).trans (h.before a ha)

theorem Wrote.room {l : List Byte} (h : Wrote l s t) (hs : s.seq.opos ≤ s.params.obufCap) :
    s.seq.opos + l.length ≤ s.params.obufCap :=
  h.opos ▸ h.tail.params ▸ h.tail.within hs

/-- The run puts the bytes `l` and leaves a state with the property `Q`, or it is Resource since they do not all fit
OBUF. -/
def Run.Puts (l : List Byte) (Q : State → Prop) (s : State) : Run → Prop
  | .ok t => Wrote l s t ∧ Q t
  | .raised e _ => e = .resource ∧ s.params.obufCap < s.seq.opos + l.length
  | .stuck _ => False

variable {l m : List Byte} {P Q : State → Prop} {r : Run}

theorem Run.Puts.of_ok (h : r.Puts l Q s) (hr : r = .ok t) : Wrote l s t ∧ Q t := by
  rw [hr] at h
  exact h

/-- With room for all its bytes the run goes on. -/
theorem Run.Puts.of_room (h : r.Puts l Q s) (hroom : s.seq.opos + l.length ≤ s.params.obufCap) :
    ∃ t, r = .ok t ∧ Wrote l s t ∧ Q t := by
  cases r with
  | ok t => exact ⟨t, rfl, h⟩
  | raised e t => exact absurd h.2 (Nat.not_lt.mpr hroom)
  | stuck f => exact h.elim

theorem Run.Puts.mono (h : r.Puts l P s) (hPQ : ∀ t, P t → Q t) : r.Puts l Q s := by
  cases r with
  | ok t => exact ⟨h.1, hPQ t h.2⟩
  | raised e t => exact h
  | stuck f => exact h

/-- A run from a state that has put bytes already. -/
theorem Run.Puts.after (hr : r.Puts m Q t) (h : Wrote l s t) : r.Puts (l ++ m) Q s := by
  cases r with
  | ok u => exact ⟨h.trans hr.1, hr.2⟩
  | raised e u =>
    obtain ⟨he, hfull⟩ := hr
    rw [h.tail.params, h.opos] at hfull
    exact ⟨he, by rw [List.length_append]; omega⟩
  | stuck f => exact hr

/-- A run from a state whose other cursors have moved. -/
theorem Run.Puts.of_move {q : Seq} (hr : r.Puts l Q { s with seq := q }) (hq : q.opos = s.seq.opos := by rfl) :
    r.Puts l Q s :=
  hr.after (Wrote.move s q hq)

/-- Sequencing for Puts. -/
theorem Run.Puts.bind {k : State → Run} (hr : r.Puts l P s) (hk : ∀ t, Wrote l s t → P t → (k t).Puts m Q t) :
    (r.bind k).Puts (l ++ m) Q s := by
  cases r with
  | ok t => exact (hk t hr.1 hr.2).after hr.1
  | raised e t => exact ⟨hr.1, by rw [List.length_append]; have := hr.2; omega⟩
  | stuck f => exact hr

/-- A move of the other cursors after a run. -/
theorem Run.Puts.map_seq (hr : r.Puts l P s) (f : State → Seq) (hf : ∀ t, (f t).opos = t.seq.opos)
    (hPQ : ∀ t, P t → Q { t with seq := f t }) : (r.map fun t => { t with seq := f t }).Puts l Q s := by
  have h : (r.bind fun t => .ok { t with seq := f t }).Puts (l ++ []) Q s :=
    hr.bind fun t _ ht => ⟨Wrote.move t (f t) (hf t), hPQ t ht⟩
  rwa [List.append_nil] at h

/-- `Put` changes no cursor but OPOS. -/
def OnlyOpos (s t : State) : Prop := t.seq = { s.seq with opos := t.seq.opos }

theorem OnlyOpos.stk_eq (h : OnlyOpos s t) : t.seq.stk = s.seq.stk := by
  rw [show t.seq = _ from h]

theorem put_puts (b : Byte) (s : State) : (s.put b).Puts [b] (OnlyOpos s) s := by
  rcases put_cases s b with ⟨hfull, hput⟩ | ⟨hlt, hput⟩
  · rw [hput]
    exact ⟨rfl, Nat.lt_succ_of_le hfull⟩
  · rw [hput]
    refine ⟨⟨⟨_, _, rfl⟩, putClosed_obufTailKept.putByte s b hlt, rfl, ?_, fun a ha => ?_⟩, rfl⟩
    · exact congrArg (· :: []) (s.mem.readByte_writeByte_self .obuf s.seq.opos b)
    · exact s.mem.readByte_writeByte_other (fun h => absurd h.2 ha.ne) b

theorem putAll_puts (l : List Byte) (s : State) : (s.putAll l).Puts l (OnlyOpos s) s := by
  induction l generalizing s with
  | nil => exact ⟨Wrote.refl s, rfl⟩
  | cons b rest ih =>
    refine (put_puts b s).bind fun t _ ht => (ih t).mono fun u hu => ?_
    rw [OnlyOpos, hu, ht]

/-! ### SERIALIZE -/

/-- A full binary tree is serialized on 3·L − 1 bytes (R171). -/
theorem length_serial (i f : Byte) (a : Shape) : (a.serial i f).length + 1 = 3 * a.numLeaves := by
  induction a with
  | leaf sym => rfl
  | node l r ihl ihr =>
    simp only [Shape.serial, Shape.numLeaves, List.length_cons, List.length_append]
    omega

/-- The frame of a subtree still to emit (R170). -/
def emitFrame (a : NodeTree) : Frame := { idx := a.idx, path := [], left := none }

/-- The bytes still to put: the serialized subtrees on STK (R94). -/
def emitBytes (p : Params) (todo : List NodeTree) : List Byte :=
  todo.flatMap fun a => a.shape.serial p.flagInternal p.flagLeaf

theorem emitVisit_leaf {i : NodeIdx} {sym : Byte} (h : (NodeTree.leaf i sym).stored s = true) :
    emitVisit i s = (s.put s.params.flagLeaf).bind (State.put sym) := by
  obtain ⟨f, hf⟩ := stored_leaf_iff.mp h
  simp only [emitVisit, nodeRead_of_get? hf]
  rfl

theorem emitVisit_node {i : NodeIdx} {l r : NodeTree} (h : (NodeTree.node i l r).stored s = true) :
    emitVisit i s
      = (s.put s.params.flagInternal).map fun t => t.setStk (emitFrame l :: emitFrame r :: t.seq.stk) := by
  obtain ⟨⟨f, hf⟩, -⟩ := stored_node_iff.mp h
  simp only [emitVisit, nodeRead_of_get? hf]
  rfl

theorem OnlyOutput.node_eq (h : OnlyOutput s t) : t.node = s.node := by
  obtain ⟨_, _, rfl⟩ := h
  rfl

/-- One visit puts the first bytes of its subtree, and leaves its children, if any, on STK (R170). -/
theorem emitVisit_puts {a : NodeTree} {rest : List NodeTree} (ha : a.stored s = true)
    (hstk : s.seq.stk = rest.map emitFrame) :
    ∃ l todo, (emitVisit a.idx s).Puts l (fun t => t.seq.stk = todo.map emitFrame) s
      ∧ l ++ emitBytes s.params todo = emitBytes s.params (a :: rest)
      ∧ (∀ c ∈ todo, c.stored s = true ∨ c ∈ rest)
      ∧ (todo.map fun c => c.shape.numNodes).sum + 1 = ((a :: rest).map fun c => c.shape.numNodes).sum := by
  cases a with
  | leaf i sym =>
    refine ⟨[s.params.flagLeaf, sym], rest, ?_, rfl, fun c hc => .inr hc, ?_⟩
    · rw [NodeTree.idx, emitVisit_leaf ha]
      refine (put_puts _ s).bind (l := [_]) fun t _ ht => (put_puts sym t).mono fun u hu => ?_
      exact hu.stk_eq.trans (ht.stk_eq.trans hstk)
    · simp only [List.map_cons, List.sum_cons, NodeTree.shape, Shape.numNodes]
      omega
  | node i l r =>
    obtain ⟨-, hl, hr⟩ := stored_node_iff.mp ha
    refine ⟨[s.params.flagInternal], l :: r :: rest, ?_, ?_, ?_, ?_⟩
    · rw [NodeTree.idx, emitVisit_node ha]
      refine (put_puts _ s).map_seq _ (fun _ => rfl) fun t ht => ?_
      simp only [ht.stk_eq, hstk, List.map_cons]
    · simp [emitBytes, NodeTree.shape, Shape.serial]
    · simp only [List.forall_mem_cons]
      exact ⟨.inl hl, .inl hr, fun c hc => .inr hc⟩
    · simp only [List.map_cons, List.sum_cons, NodeTree.shape, Shape.numNodes]
      omega

/-- The emission of the stored subtrees on STK ends, within as many visits as they have nodes, with their bytes put. -/
theorem emitLoop_puts (k : Nat) {todo : List NodeTree} (hstk : s.seq.stk = todo.map emitFrame)
    (hstored : ∀ a ∈ todo, a.stored s = true) (hk : (todo.map fun a => a.shape.numNodes).sum ≤ k) :
    (emitLoop k s).Puts (emitBytes s.params todo) (fun _ => True) s := by
  induction k generalizing s todo with
  | zero =>
    cases todo with
    | nil =>
      simp only [emitLoop, hstk, List.map_nil, if_true]
      exact ⟨Wrote.refl s, trivial⟩
    | cons a rest =>
      have := numNodes_pos a.shape
      simp at hk
      omega
  | succ k ih =>
    cases todo with
    | nil =>
      simp only [emitLoop, hstk, List.map_nil]
      exact ⟨Wrote.refl s, trivial⟩
    | cons a rest =>
      rw [List.forall_mem_cons] at hstored
      obtain ⟨ha, hrest⟩ := hstored
      obtain ⟨l, todo, hvisit, hbytes, htodo, hsize⟩ :=
        emitVisit_puts (s := s.setStk (rest.map emitFrame)) (stored_of_node_eq ha rfl) rfl
      simp only [emitLoop, hstk, List.map_cons]
      rw [show emitBytes s.params (a :: rest) = _ from hbytes.symm]
      refine (hvisit.bind fun t hw ht => ?_).of_move
      have hparams : t.params = s.params := hw.tail.params
      rw [State.setStk_params, ← hparams]
      refine ih ht (fun c hc => stored_of_node_eq ?_ hw.frame.node_eq) (by omega)
      rcases htodo c hc with hc | hc
      · exact hc
      · exact stored_of_node_eq (hrest c hc) rfl

/-- SERIALIZE's emission of the tree in NODE puts its serialized form (R94, R170). -/
theorem emitTree_puts {a : NodeTree} (h : TreeOf s a) :
    (emitTree s).Puts (a.shape.serial s.params.flagInternal s.params.flagLeaf) (fun _ => True) s := by
  have hsize := numNodes_le_nodeCap h
  obtain ⟨hstored, hroot, -, -⟩ := h
  have hloop := emitLoop_puts nodeCap (s := s.setStk [{ idx := s.root, path := [], left := none }]) (todo := [a])
    (by rw [← hroot]; rfl) (fun c hc => by
      rw [List.mem_singleton.mp hc]
      exact stored_of_node_eq hstored rfl) (by simpa using hsize)
  rw [show emitBytes _ [a] = _ from List.append_nil _] at hloop
  exact hloop.of_move

end Sys2Proof.Machine

end

section
/-! SUPPORT. What PACK puts (44_bit_codec.md R190 to R193): the bits of the codes are laid end to end, a full byte is put,
and the bits of a partly filled one wait in ACC. -/

namespace Sys2Proof.Machine

variable {s t u : State}

/-! ### Bits laid end to end -/

/-- ACC after the bits `p` have been placed in it from bit 7 downward (R190). -/
def accOf (p : BitString) : Byte := p.zipIdx.foldl (fun v c => setBitTo v (7 - c.2) c.1) 0

theorem accOf_concat (p : BitString) (b : Bool) : accOf (p ++ [b]) = setBitTo (accOf p) (7 - p.length) b := by
  simp [accOf, List.zipIdx_append]

/-- The bit `b` laid after the bits `p` that wait: the byte it fills, if it does, and the bits that wait then (R190). -/
def layBit (p : BitString) (b : Bool) : List Byte × BitString :=
  if p.length = 7 then ([accOf (p ++ [b])], []) else ([], p ++ [b])

/-- Bits laid after the bits `p` that wait: the bytes they fill, and the bits that wait then. -/
def layBits (p : BitString) : BitString → List Byte × BitString
  | [] => ([], p)
  | b :: rest =>
    ((layBit p b).1 ++ (layBits (layBit p b).2 rest).1, (layBits (layBit p b).2 rest).2)

/-- The flush: a partly filled byte, its low bits 0 (R192). -/
def flushBits (p : BitString) : List Byte := if p = [] then [] else [accOf p]

/-- The bytes PACK puts for a bit-string (R190 to R192). -/
def packedBytes (l : BitString) : List Byte := (layBits [] l).1 ++ flushBits (layBits [] l).2

theorem layBits_append (p l m : BitString) :
    layBits p (l ++ m)
      = ((layBits p l).1 ++ (layBits (layBits p l).2 m).1, (layBits (layBits p l).2 m).2) := by
  induction l generalizing p with
  | nil => rfl
  | cons b rest ih => simp only [List.cons_append, layBits, ih, List.append_assoc]

/-- Eight bits make a byte; the rest wait. -/
theorem length_layBits {p : BitString} (hp : p.length < 8) (l : BitString) :
    8 * (layBits p l).1.length + (layBits p l).2.length = p.length + l.length ∧ (layBits p l).2.length < 8 := by
  induction l generalizing p with
  | nil => simpa [layBits] using hp
  | cons b rest ih =>
    by_cases h : p.length = 7
    · have := ih (p := []) (by simp)
      simp [layBits, layBit, h] at this ⊢
      omega
    · have := ih (p := p ++ [b]) (by simp; omega)
      simp [layBits, layBit, h] at this ⊢
      omega

/-- The payload is as long as its bits need (R193). -/
theorem length_packedBytes (l : BitString) : (packedBytes l).length = (l.length + 7) / 8 := by
  obtain ⟨hsum, hlt⟩ := length_layBits (p := []) (by simp) l
  rw [packedBytes, List.length_append, flushBits]
  split
  · rename_i hnil
    simp [hnil] at hsum ⊢
    omega
  · rename_i hne
    have := List.length_pos_of_ne_nil hne
    simp at hsum ⊢
    omega

/-! ### The loops of PACK -/

/-- The bits `p` wait in ACC (R190). -/
structure Waiting (p : BitString) (s : State) : Prop where
  acc : s.seq.acc = accOf p
  nbits : s.seq.nbits.toNat = p.length

theorem Waiting.length_lt {p : BitString} (h : Waiting p s) : p.length < 8 := h.nbits ▸ s.seq.nbits.isLt

theorem Waiting.nbits_eq_seven_iff {p : BitString} (h : Waiting p s) : s.seq.nbits = 7 ↔ p.length = 7 := by
  rw [← h.nbits, ← BitVec.toNat_inj]
  rfl

theorem putBit_puts {p : BitString} (h : Waiting p s) (b : Bool) :
    (putBit b s).Puts (layBit p b).1 (fun t => Waiting (layBit p b).2 t ∧ t.seq.ipos = s.seq.ipos) s := by
  have hacc : setBitTo s.seq.acc (7 - s.seq.nbits.toNat) b = accOf (p ++ [b]) := by
    rw [accOf_concat, h.acc, h.nbits]
  simp only [putBit, hacc, h.nbits_eq_seven_iff, layBit]
  split
  · refine Run.Puts.of_move (q := { s.seq with acc := accOf (p ++ [b]) }) ?_
    refine (put_puts _ _).map_seq _ (fun _ => rfl) fun t ht => ⟨⟨rfl, rfl⟩, ?_⟩
    rw [ht]
  · rename_i hlt
    have := h.length_lt
    refine ⟨Wrote.move s _ rfl, ⟨rfl, ?_⟩, rfl⟩
    simp [BitVec.toNat_add, h.nbits]
    omega

theorem putBits_puts (l : BitString) {p : BitString} (h : Waiting p s) :
    (putBits l s).Puts (layBits p l).1 (fun t => Waiting (layBits p l).2 t ∧ t.seq.ipos = s.seq.ipos) s := by
  induction l generalizing s p with
  | nil => exact ⟨Wrote.refl s, h, rfl⟩
  | cons b rest ih =>
    refine (putBit_puts h b).bind fun t _ ht => (ih ht.1).mono fun u hu => ?_
    exact ⟨hu.1, hu.2.trans ht.2⟩

theorem OnlyOutput.lutRead_eq (h : OnlyOutput s t) : t.lutRead = s.lutRead := by
  obtain ⟨_, _, rfl⟩ := h
  rfl

theorem OnlyOutput.memRead_ibuf (h : OnlyOutput s t) : t.memRead .ibuf = s.memRead .ibuf := by
  obtain ⟨_, _, rfl⟩ := h
  rfl

theorem OnlyOutput.bytes_ibuf (h : OnlyOutput s t) (a n : Nat) : t.bytes .ibuf a n = s.bytes .ibuf a n := by
  simp only [State.bytes, h.memRead_ibuf]

theorem packSymbol_puts {p : BitString} (h : Waiting p s)
    (hcoded : (s.lutRead (s.memRead .ibuf s.seq.ipos)).len ≠ 0) :
    (packSymbol s).Puts (layBits p (codeBits (s.lutRead (s.memRead .ibuf s.seq.ipos)))).1
      (fun t => Waiting (layBits p (codeBits (s.lutRead (s.memRead .ibuf s.seq.ipos)))).2 t
        ∧ t.seq.ipos = s.seq.ipos + 1) s := by
  simp only [packSymbol, if_neg hcoded]
  exact (putBits_puts _ h).map_seq _ (fun _ => rfl) fun t ht => ⟨⟨ht.1.acc, ht.1.nbits⟩, congrArg (· + 1) ht.2⟩

/-- The packing loop lays the codes of the next `k` bytes of IBUF, if they all have one (R190). -/
theorem packLoop_puts (k : Nat) {p : BitString} (h : Waiting p s)
    (hcoded : ∀ b ∈ s.bytes .ibuf s.seq.ipos k, (s.lutRead b).len ≠ 0) :
    (packLoop k s).Puts (layBits p (s.bitsFor (s.bytes .ibuf s.seq.ipos k))).1
      (Waiting (layBits p (s.bitsFor (s.bytes .ibuf s.seq.ipos k))).2) s := by
  induction k generalizing s p with
  | zero => exact ⟨Wrote.refl s, h⟩
  | succ k ih =>
    rw [bytes_succ, List.forall_mem_cons] at hcoded
    simp only [bytes_succ, State.bitsFor, List.flatMap_cons, layBits_append]
    refine (packSymbol_puts h hcoded.1).bind fun t hw ht => ?_
    have hbytes : t.bytes .ibuf t.seq.ipos k = s.bytes .ibuf (s.seq.ipos + 1) k := by
      rw [ht.2, hw.frame.bytes_ibuf]
    have hrest := ih ht.1 (by rw [hbytes, hw.frame.lutRead_eq]; exact hcoded.2)
    rwa [hbytes, State.bitsFor, hw.frame.lutRead_eq] at hrest

theorem packFlush_puts {p : BitString} (h : Waiting p s) : (packFlush s).Puts (flushBits p) (fun _ => True) s := by
  have hzero : s.seq.nbits = 0 ↔ p = [] := by
    rw [← List.length_eq_zero_iff, ← h.nbits, ← BitVec.toNat_inj]
    rfl
  simp only [packFlush, flushBits, hzero, h.acc]
  split
  · exact ⟨Wrote.refl s, trivial⟩
  · exact (put_puts _ s).mono fun _ _ => trivial

/-- PackRange lays the codes of the bytes of its range end to end, if they all have one (R190 to R192). -/
theorem packRange_puts (start stop : Nat)
    (hcoded : ∀ b ∈ s.bytes .ibuf start (stop - start), (s.lutRead b).len ≠ 0) :
    (packRange start stop s).Puts (packedBytes (s.bitsFor (s.bytes .ibuf start (stop - start)))) (fun _ => True)
      s := by
  have hloop := packLoop_puts (s := { s with seq := { s.seq with acc := 0, nbits := 0, ipos := start } })
    (stop - start) (p := []) ⟨rfl, rfl⟩ hcoded
  exact (hloop.bind fun t _ ht => packFlush_puts ht).of_move

/-- A packing loop that ends has met no byte without a code (R194). -/
theorem coded_of_packLoop_ok (k : Nat) {p : BitString} (hw : Waiting p s) (h : packLoop k s = .ok t) :
    ∀ b ∈ s.bytes .ibuf s.seq.ipos k, (s.lutRead b).len ≠ 0 := by
  induction k generalizing s p with
  | zero => exact fun b hb => absurd hb List.not_mem_nil
  | succ k ih =>
    obtain ⟨u, hu, hrest⟩ := Run.bind_eq_ok h
    have hcoded : (s.lutRead (s.memRead .ibuf s.seq.ipos)).len ≠ 0 := fun hzero => by
      simp only [packSymbol, if_pos hzero] at hu
      cases hu
    obtain ⟨hput, hwait, hipos⟩ := (packSymbol_puts hw hcoded).of_ok hu
    have hu := ih hwait hrest
    rw [hput.frame.bytes_ibuf, hput.frame.lutRead_eq, hipos] at hu
    rw [bytes_succ, List.forall_mem_cons]
    exact ⟨hcoded, hu⟩

/-- A PackRange that ends has met no byte without a code (R194). -/
theorem coded_of_packRange_ok {start stop : Nat} (h : packRange start stop s = .ok t) :
    ∀ b ∈ s.bytes .ibuf start (stop - start), (s.lutRead b).len ≠ 0 := by
  obtain ⟨u, hloop, -⟩ := Run.bind_eq_ok h
  exact coded_of_packLoop_ok (stop - start) (p := []) ⟨rfl, rfl⟩ hloop

end Sys2Proof.Machine

end

section
/-! SUPPORT. BUILD is a function of FREQ (41_tree_builder.md R140 to R143): it reads no record of NODE that it has not
written, so from two states with the same counts and no record specified it leaves the same records. -/

namespace Sys2Proof.Machine

variable {s t u : State}

/-- Two states that BUILD cannot tell apart: the same counts, the same records specified, the same nodes in PQ, each
with its record specified. -/
structure BuildLike (s t : State) : Prop where
  freq : t.freq = s.freq
  cells : t.node.cells = s.node.cells
  pq : t.seq.pq = s.seq.pq
  n : t.seq.n = s.seq.n
  written : ∀ i ∈ s.seq.pq, ∃ r, s.node.get? i.toNat = some r

theorem get?_of_cells_eq {α : Type} {st st' : Store α} (h : st'.cells = st.cells) (a : Nat) : st'.get? a = st.get? a :=
  congrArg (lookupCell a) h

theorem BuildLike.nodeRead_eq (h : BuildLike s t) {i : NodeIdx} (hi : i ∈ s.seq.pq) : t.nodeRead i = s.nodeRead i := by
  obtain ⟨r, hr⟩ := h.written i hi
  rw [nodeRead_of_get? hr, nodeRead_of_get? ((get?_of_cells_eq h.cells _).trans hr)]

theorem BuildLike.key_eq (h : BuildLike s t) {i : NodeIdx} (hi : i ∈ s.seq.pq) : t.key i = s.key i := by
  rw [State.key, State.key, h.nodeRead_eq hi]

theorem BuildLike.addNode (h : BuildLike s t) (r : NodeRec) : BuildLike (s.addNode r) (t.addNode r) where
  freq := h.freq
  cells := by simp only [State.addNode, State.nodeWrite, Store.write, h.cells, h.n]
  pq := by simp only [State.addNode, State.nodeWrite, h.pq, h.n]
  n := by simp only [addNode_n, h.n]
  written i hi := by
    rcases List.mem_cons.mp hi with rfl | hi
    · exact ⟨r, Store.get?_write_self _ _ r⟩
    by_cases heq : i = BitVec.ofNat 9 s.seq.n
    · exact heq ▸ ⟨r, Store.get?_write_self _ _ r⟩
    · have hne : i.toNat ≠ (BitVec.ofNat 9 s.seq.n).toNat := fun e => heq (BitVec.eq_of_toNat_eq e)
      obtain ⟨q, hq⟩ := h.written i hi
      exact ⟨q, (Store.get?_write_other _ hne r).trans hq⟩

theorem BuildLike.addLeaves (syms : List Byte) (h : BuildLike s t) :
    BuildLike (addLeaves syms s) (addLeaves syms t) := by
  induction syms generalizing s t with
  | nil => exact h
  | cons sym rest ih =>
    have hfreq : t.freqOf sym = s.freqOf sym := by simp only [State.freqOf, h.freq]
    simp only [Machine.addLeaves, addLeaf, hfreq]
    split
    · exact ih h
    · exact ih (h.addNode _)

/-- Nodes taken out of PQ (R142). -/
theorem BuildLike.setPq (h : BuildLike s t) {l : List NodeIdx} (hl : ∀ i ∈ l, i ∈ s.seq.pq) :
    BuildLike (s.setPq l) (t.setPq l) :=
  ⟨h.freq, h.cells, rfl, h.n, fun i hi => h.written i (hl i hi)⟩

theorem BuildLike.leastKey_eq (h : BuildLike s t) {l : List NodeIdx} (hl : ∀ i ∈ l, i ∈ s.seq.pq) :
    t.leastKey l = s.leastKey l := by
  induction l with
  | nil => rfl
  | cons i rest ih =>
    rw [List.forall_mem_cons] at hl
    simp only [State.leastKey, ih hl.2]
    cases hj : s.leastKey rest with
    | none => rfl
    | some j => simp only [h.key_eq hl.1, h.key_eq (hl.2 j (leastKey_mem hj))]

/-- Both states give the same node out of PQ, or none (R142). -/
theorem BuildLike.extractMin_cases (h : BuildLike s t) :
    (s.extractMin = none ∧ t.extractMin = none) ∨
    ∃ i s' t', s.extractMin = some (i, s') ∧ t.extractMin = some (i, t') ∧ BuildLike s' t'
      ∧ t'.nodeRead i = s'.nodeRead i
      ∧ ∀ j, t'.nodeRead j = t.nodeRead j ∧ s'.nodeRead j = s.nodeRead j := by
  have hkey : t.leastKey s.seq.pq = s.leastKey s.seq.pq := h.leastKey_eq fun _ hi => hi
  simp only [State.extractMin, h.pq, hkey]
  cases hi : s.leastKey s.seq.pq with
  | none => exact .inl ⟨rfl, rfl⟩
  | some i =>
    exact .inr ⟨i, _, _, rfl, rfl, h.setPq fun _ hj => List.mem_of_mem_erase hj, h.nodeRead_eq (leastKey_mem hi),
      fun _ => ⟨rfl, rfl⟩⟩

theorem BuildLike.mergeStep (h : BuildLike s t) : BuildLike (mergeStep s) (mergeStep t) := by
  simp only [Machine.mergeStep]
  rcases h.extractMin_cases with ⟨hs, ht⟩ | ⟨a, s₁, t₁, hs, ht, h₁, ha, -⟩
  · simp only [hs, ht]
    exact h
  · simp only [hs, ht]
    rcases h₁.extractMin_cases with ⟨hs, ht⟩ | ⟨b, s₂, t₂, hs, ht, h₂, hb, hread⟩
    · simp only [hs, ht]
      exact h
    · simp only [hs, ht, hb, (hread a).1, (hread a).2, ha]
      exact h₂.addNode _

theorem BuildLike.mergeLoop (k : Nat) (h : BuildLike s t) : BuildLike (mergeLoop k s) (mergeLoop k t) := by
  induction k generalizing s t with
  | zero => exact h
  | succ k ih =>
    simp only [Machine.mergeLoop, h.pq]
    split
    · exact ih h.mergeStep
    · exact h

/-- The tree and its registers are in `t` as in `s`. -/
structure SameTree (s t : State) : Prop where
  cells : t.node.cells = s.node.cells
  root : t.root = s.root
  nleaf : t.nleaf = s.nleaf
  nnode : t.nnode = s.nnode

theorem treeOf_congr {a : NodeTree} (hs : TreeOf s a) (h : SameTree s t := by exact ⟨rfl, rfl, rfl, rfl⟩) :
    TreeOf t a := by
  obtain ⟨hstored, hroot, hnodes, hleaves⟩ := hs
  refine ⟨(stored_congr fun i _ => get?_of_cells_eq h.cells i).trans hstored, hroot.trans h.root.symm, ?_, ?_⟩
  · rw [h.nnode]
    exact hnodes
  · rw [h.nleaf]
    exact hleaves

theorem BuildLike.buildFinish (h : BuildLike s t) {l : Nat} (hu : buildFinish l s = .ok u) :
    ∃ v, buildFinish l t = .ok v ∧ SameTree u v := by
  simp only [Machine.buildFinish] at hu ⊢
  rcases h.extractMin_cases with ⟨hs, ht⟩ | ⟨i, s', t', hs, ht, h', -⟩
  · simp only [hs] at hu
    cases hu
  · simp only [hs] at hu
    simp only [ht]
    cases hu
    exact ⟨_, rfl, h'.cells, rfl, rfl, congrArg (BitVec.ofNat 9) h'.n⟩

/-- BUILD's body leaves the same tree from the same counts, where nothing of NODE is specified (R140). -/
theorem buildBody_of_same_freq (hfreq : t.freq = s.freq) (hs : s.node.cells = []) (ht : t.node.cells = [])
    (hu : buildBody s = .ok u) : ∃ v, buildBody t = .ok v ∧ SameTree u v := by
  have hstart : BuildLike { s with seq := { s.seq with n := 0, pq := [] } }
      { t with seq := { t.seq with n := 0, pq := [] } } :=
    ⟨hfreq, ht.trans hs.symm, rfl, rfl, fun i hi => absurd hi List.not_mem_nil⟩
  unfold buildBody at hu ⊢
  generalize allSymbols = syms at hu ⊢
  have hleaves := hstart.addLeaves syms
  dsimp only at hu ⊢
  split at hu
  · cases hu
  · rename_i hn
    rw [hleaves.n, if_neg hn]
    exact (hleaves.mergeLoop _).buildFinish hu

/-- `buildBody` stands as a variable `build` here, since Lean would else try to run it on all symbols. -/
theorem onlyTree_of_buildBody (h : buildBody s = .ok t) : OnlyTree s t := by
  have hbuild := @buildBody_onlyTree
  generalize buildBody = build at hbuild h
  exact (hbuild s).of_ok h

end Sys2Proof.Machine

end

section
/-! SUPPORT. COMPRESS and its component commands (30_encoding.md R96, R100, R104; 45_orchestration.md R210, R211): the
file COMPRESS writes, the tables it shares with COUNT, BUILD and GENCODES, and the outputs of SERIALIZE and PACK. -/

namespace Sys2Proof.Machine

variable {s t u v w : State} {a : NodeTree}

/-! ### The file -/

theorem OnlyOutput.treeOf (h : OnlyOutput s t) (hs : TreeOf s a) : TreeOf t a := by
  obtain ⟨_, _, rfl⟩ := h
  exact treeOf_congr hs

theorem OnlyOutput.params_eq (h : OnlyOutput s t) : t.params = s.params := by
  obtain ⟨_, _, rfl⟩ := h
  rfl

theorem OnlyOutput.total_eq (h : OnlyOutput s t) : t.total = s.total := by
  obtain ⟨_, _, rfl⟩ := h
  rfl

theorem OnlyOutput.input_eq (h : OnlyOutput s t) : t.input = s.input := by
  obtain ⟨_, _, rfl⟩ := h
  rfl

/-- The payload depends on the input and the code table alone (R99). -/
theorem payloadBits_congr (hinput : t.input = s.input) (hlut : t.lutRead = s.lutRead) :
    t.payloadBits = s.payloadBits := by
  simp only [State.payloadBits, State.bitsFor, hinput, hlut]

theorem Run.Puts.of_setPhase {l : List Byte} {Q : State → Prop} {r : Run} {p : Phase}
    (h : r.Puts l Q (s.setPhase p)) : r.Puts l Q s :=
  Run.Puts.of_move (q := { s.seq with pc := p }) h

/-- PACK's range over the whole input puts the payload, if every byte of the input has a code (R190). -/
theorem packRange_input_puts (hcoded : ∀ b ∈ s.input, (s.lutRead b).len ≠ 0) :
    (packRange 0 s.inLen.toNat s).Puts (packedBytes s.payloadBits) (fun _ => True) s :=
  packRange_puts 0 s.inLen.toNat hcoded

/-- A tree in NODE is serialized on 3·NLEAF − 1 bytes (R171). -/
theorem length_serial_of_treeOf (h : TreeOf s a) (i f : Byte) :
    (a.shape.serial i f).length = 3 * s.nleaf.toNat - 1 := by
  obtain ⟨-, -, -, hleaves⟩ := h
  have := length_serial i f a.shape
  omega

@[simp] theorem length_extension (s : State) : s.extension.length = s.extLen.toNat := length_bytes _ _ _ _

@[simp] theorem length_output (s : State) : s.output.length = s.outLen.toNat := length_bytes _ _ _ _

/-- The first phase PH_HDR puts magic, EXT_LEN, the extension and treeLen (R210, R215). -/
theorem compressHeader_puts (hext : s.extLen.toNat ≤ s.params.extCap) :
    (compressHeader s).Puts (magicBytes ++ le32 s.extLen ++ s.extension ++ le32 s.treeLen) (fun _ => True)
      (s.setOpos 0) := by
  simp only [compressHeader, if_neg (Nat.not_lt.mpr hext)]
  refine Run.Puts.bind (P := fun _ => True) (Run.Puts.bind (P := fun _ => True) (Run.Puts.bind (putAll_puts _ _)
    fun t _ _ => ?_) fun t _ _ => ?_) fun t _ _ => ?_
  all_goals exact (putAll_puts _ t).mono fun _ _ => trivial

/-- The phases of COMPRESS that write the file put the file of R96, made of the extension, the tree in NODE, TOTAL and the
codes of the input (R211). -/
theorem compressFile_puts (htree : TreeOf s a) (hext : s.extLen.toNat ≤ s.params.extCap)
    (hcoded : ∀ b ∈ s.input, (s.lutRead b).len ≠ 0) :
    (compressFile s).Puts (fileOf s.params s.extension a.shape s.total (packedBytes s.payloadBits)) (fun _ => True)
      (s.setOpos 0) := by
  have hfile : fileOf s.params s.extension a.shape s.total (packedBytes s.payloadBits)
      = (magicBytes ++ le32 s.extLen ++ s.extension ++ le32 s.treeLen)
        ++ (a.shape.serial s.params.flagInternal s.params.flagLeaf ++ (le32 s.total ++ packedBytes s.payloadBits)) := by
    simp only [fileOf, length_extension, length_serial_of_treeOf htree, State.treeLen, BitVec.ofNat_toNat,
      BitVec.setWidth_eq, List.append_assoc]
  rw [hfile]
  refine Run.Puts.of_move (q := { s.seq with pc := .hdr, opos := 0 }) ?_
  refine (compressHeader_puts (s := s.setPhase .hdr) hext).bind fun t ht _ => ?_
  have hframe : OnlyOutput s (t.setPhase .ser) :=
    ((OnlyOutput.refl s).of_seq _).trans (ht.frame.trans (setPhase_onlyOutput _ t))
  have hemit := emitTree_puts (hframe.treeOf htree)
  rw [hframe.params_eq] at hemit
  refine Run.Puts.of_setPhase (hemit.bind fun u hu _ => ?_)
  replace hframe := hframe.trans (hu.frame.trans (setPhase_onlyOutput .hdr u))
  have htotal : (State.put32 u.total (u.setPhase .hdr)).Puts (le32 s.total) (fun _ => True) (u.setPhase .hdr) := by
    rw [← hframe.total_eq]
    exact (putAll_puts _ _).mono fun _ _ => trivial
  refine Run.Puts.of_setPhase (htotal.bind fun v hv _ => ?_)
  replace hframe := hframe.trans (hv.frame.trans (setPhase_onlyOutput .pack v))
  have hpack := packRange_input_puts (s := v.setPhase .pack) (by rwa [hframe.input_eq, hframe.lutRead_eq])
  rw [payloadBits_congr hframe.input_eq hframe.lutRead_eq] at hpack
  exact hpack.of_setPhase

/-! ### The component commands -/

theorem command_eq_next_of_success {c : Instr} {p : Phase} {body : State → Run} (h : command c p body s = .next t)
    (ht : t.err = false) : ∃ u, body (s.commandStart.setPhase p) = .ok u ∧ t = u.successExit := by
  rcases command_eq_next h with hok | ⟨e, u, -, rfl⟩
  · exact hok
  · cases ht

/-- Bytes put from offset 0 on are the output, once OUT_LEN is taken from OPOS (R34, R37). -/
theorem Wrote.output {l : List Byte} (h : Wrote l (s.setOpos 0) t) (hp : s.params.wellFormed = true) :
    t.setOutLen.outLen.toNat = l.length ∧ t.setOutLen.output = l := by
  have hopos : t.seq.opos = l.length := h.opos.trans (Nat.zero_add _)
  have hroom := h.room (Nat.zero_le _)
  have hcap := obufCap_lt_of_wellFormed hp
  have hlen : t.setOutLen.outLen.toNat = l.length := by
    rw [State.setOutLen_outLen, hopos, BitVec.toNat_ofNat, Nat.mod_eq_of_lt]
    simp at hroom
    omega
  refine ⟨hlen, ?_⟩
  rw [State.output, hlen]
  exact h.bytes

theorem treeValid_of_serialize (h : exec .serialize s = .next t) (ht : t.err = false) : s.treeValid = true := by
  simp only [exec, execSerialize] at h
  obtain ⟨u, hu, -⟩ := command_eq_next_of_success h ht
  split at hu
  · assumption
  · cases hu

/-- The output of a SERIALIZE that succeeds (R170, R171). -/
theorem output_of_serialize (hp : s.params.wellFormed = true) (htree : TreeOf s a) (h : exec .serialize s = .next t)
    (ht : t.err = false) :
    t.outLen.toNat = 3 * s.nleaf.toNat - 1
      ∧ t.output = a.shape.serial s.params.flagInternal s.params.flagLeaf := by
  simp only [exec, execSerialize] at h
  obtain ⟨u, hu, rfl⟩ := command_eq_next_of_success h ht
  split at hu
  · obtain ⟨v, hv, hu⟩ := Run.bind_eq_ok hu
    cases hu
    have hputs := emitTree_puts (s := (s.commandStart.setPhase .ser).setOpos 0) (treeOf_congr htree)
    obtain ⟨hlen, hout⟩ := (hputs.of_ok hv).1.output hp
    exact ⟨hlen.trans (length_serial_of_treeOf htree _ _), hout⟩
  · cases hu

/-- The output of a PACK that succeeds (R190, R193); it has met no byte without a code (R194). -/
theorem output_of_pack (hp : s.params.wellFormed = true) (h : exec .pack s = .next t) (ht : t.err = false) :
    (∀ b ∈ s.input, (s.lutRead b).len ≠ 0) ∧ t.outLen.toNat = (s.payloadBits.length + 7) / 8
      ∧ t.output = packedBytes s.payloadBits := by
  simp only [exec, execPack] at h
  obtain ⟨u, hu, rfl⟩ := command_eq_next_of_success h ht
  split_ifs at hu
  obtain ⟨v, hv, hu⟩ := Run.bind_eq_ok hu
  cases hu
  have hcoded := coded_of_packRange_ok hv
  have hputs := packRange_input_puts (s := (s.commandStart.setPhase .pack).setOpos 0) hcoded
  obtain ⟨hlen, hout⟩ := (hputs.of_ok hv).1.output hp
  exact ⟨hcoded, hlen.trans (length_packedBytes _), hout⟩

/-- After a COUNT that succeeds TOTAL is IN_LEN and nothing of NODE is specified (R130). -/
theorem countBody_of_count (h : exec .count s = .next t) (ht : t.err = false) :
    ∃ c, countBody (s.commandStart.setPhase .count).cleanTables.clearTotal = .ok c ∧ t = c.successExit
      ∧ c.total = s.inLen ∧ c.node.cells = [] := by
  simp only [exec, execCount] at h
  obtain ⟨c, hc, rfl⟩ := command_eq_next_of_success h ht
  refine ⟨c, hc, rfl, ?_⟩
  rcases countBody_cases (s := (s.commandStart.setPhase .count).cleanTables.clearTotal)
    (freqSum_zero fun sym => Vector.getElem_replicate _) with ⟨e, hraise⟩ | ⟨f, q, hok, -⟩
  · rw [hraise] at hc
    cases hc
  · rw [hok] at hc
    cases hc
    exact ⟨rfl, rfl⟩

/-- A BUILD that leaves TREE_VALID = 1 has succeeded, with a tree in NODE (R140). -/
theorem buildBody_of_build (h : exec .build s = .next t) (ht : t.treeValid = true) :
    ∃ d a, buildBody (s.commandStart.setPhase .build).invalidateTree = .ok d ∧ t = d.successExit ∧ TreeOf d a := by
  have hcases := @buildBody_cases (s.commandStart.setPhase .build).invalidateTree rfl rfl
  simp only [exec, execBuild] at h
  generalize buildBody = build at hcases h ⊢
  rcases command_eq_next h with ⟨d, hd, rfl⟩ | ⟨e, d, hd, rfl⟩
  · rcases hcases with ⟨q, hq⟩ | ⟨u, a, hu, -, -, -, -, htree⟩
    · rw [hq] at hd
      cases hd
    · rw [hu] at hd
      cases hd
      exact ⟨d, a, hu, rfl, htree⟩
  · rcases hcases with ⟨q, hq⟩ | ⟨u, a, hu, -⟩
    · rw [hq] at hd
      cases hd
      cases ht
    · rw [hu] at hd
      cases hd

/-- GENCODES with a tree in NODE keeps the tree and leaves its code table (R160 to R164). -/
theorem tables_of_gencodes (hvalid : s.treeValid = true) (htree : TreeOf s a) (h : exec .gencodes s = .next t) :
    TreeOf t a ∧ TableOf t a.shape := by
  obtain ⟨l, q, hbody, -, -, htable⟩ :=
    gencodesBody_of_tree (s := s.commandStart.setPhase .gen) (treeOf_congr htree)
  simp only [exec, execGencodes] at h
  rw [command_of_ok ((if_pos hvalid).trans hbody)] at h
  cases h
  exact ⟨treeOf_congr htree, htable⟩

theorem TableOf.lutRead_eq {b : Shape} (hs : TableOf s b) (ht : TableOf t b) : t.lutRead = s.lutRead := by
  funext sym
  exact (Store.read_of_get? _ (ht sym)).trans (Store.read_of_get? _ (hs sym)).symm

/-- The tables COMPRESS makes are those that COUNT, BUILD and GENCODES make (R104, R211). -/
theorem compressTables_of_components (hcount : exec .count s = .next t) (ht : t.err = false)
    (hbuild : exec .build t = .next u) (hgen : exec .gencodes u = .next v) (hvalid : v.treeValid = true) :
    ∃ x a, compressTables (s.commandStart.setPhase .count).cleanTables.clearTotal = .ok x ∧ x.total = s.inLen
      ∧ TreeOf x a ∧ TreeOf v a ∧ x.lutRead = v.lutRead := by
  obtain ⟨c, hc, rfl, htotal, hcells⟩ := countBody_of_count hcount ht
  obtain ⟨⟨-, -, -, -, hkept, -⟩, -⟩ := exec_keeps .gencodes hgen
  obtain ⟨-, -, -, -, hkept⟩ := hkept (by simp)
  have hu : u.treeValid = true := hkept.symm.trans hvalid
  obtain ⟨d, a, hd, rfl, htree⟩ := buildBody_of_build hbuild hu
  obtain ⟨htreev, htablev⟩ := tables_of_gencodes hu (treeOf_congr htree) hgen
  obtain ⟨e, he, hsame⟩ := buildBody_of_same_freq (t := c.setPhase .build)
    (s := (c.successExit.commandStart.setPhase .build).invalidateTree) rfl rfl hcells hd
  have hframe := onlyTree_of_buildBody he
  obtain ⟨l, q, hx, -, -, htable⟩ :=
    gencodesBody_of_tree (s := e.setPhase .gen) (treeOf_congr (treeOf_congr htree hsame))
  have hbody : compressTables (s.commandStart.setPhase .count).cleanTables.clearTotal
      = gencodesBody (e.setPhase .gen) := by
    rw [compressTables, hc, Run.bind_ok, he, Run.bind_ok]
  refine ⟨_, a, hbody.trans hx, ?_, treeOf_congr (treeOf_congr htree hsame), htreev,
    TableOf.lutRead_eq htablev htable⟩
  obtain ⟨_, _, _, _, _, _, rfl⟩ := hframe
  exact htotal

/-- Every command but CLEAR keeps its input and the parameters (R93). -/
theorem exec_keeps_input {i : Instr} (hi : i ≠ .clear) (hp : s.params.wellFormed = true) (h : exec i s = .next t) :
    t.params = s.params ∧ t.input = s.input := by
  obtain ⟨⟨⟨hparams, -⟩, hin, -⟩, -⟩ := exec_keeps i h
  obtain ⟨⟨hibuf, -⟩, -⟩ := exec_keepsBytes i hp h
  refine ⟨hparams, ?_⟩
  rw [State.input, hin hi, State.input]
  exact bytes_congr fun k _ _ => memRead_congr (sp := .ibuf) hibuf k

/-! ### COMPRESS -/

/-- The first phases of COMPRESS keep its inputs and raise no flag (R210). -/
theorem compressTables_keeps (h : compressTables (s.commandStart.setPhase .count).cleanTables.clearTotal = .ok u) :
    u.params = s.params ∧ u.extLen = s.extLen ∧ u.extension = s.extension ∧ u.input = s.input ∧ u.err = false
      ∧ u.errCode = 0 := by
  have hframe := Run.All.of_ok (compressTables_onlyTables _) h
  obtain ⟨_, _, _, _, _, _, _, _, _, _, rfl⟩ := hframe
  exact ⟨rfl, rfl, rfl, rfl, rfl, rfl⟩

/-- A COMPRESS whose tables, extension and file fit ends by the success exit, its output the file (R210). -/
theorem compress_of_puts {l : List Byte} (hp : s.params.wellFormed = true)
    (htables : compressTables (s.commandStart.setPhase .count).cleanTables.clearTotal = .ok u)
    (hfile : (compressFile u).Puts l (fun _ => True) (u.setOpos 0)) (hroom : l.length ≤ s.params.obufCap) :
    ∃ w, exec .compress s = .next w ∧ Succeeded w ∧ w.outLen.toNat = l.length ∧ w.output = l := by
  obtain ⟨hparams, -, -, -, herr, hcode⟩ := compressTables_keeps htables
  obtain ⟨v, hv, hputs, -⟩ := hfile.of_room (by simpa [hparams] using hroom)
  obtain ⟨hlen, hout⟩ := hputs.output (hparams ▸ hp)
  have hflags : v.err = false ∧ v.errCode = 0 := by
    obtain ⟨_, _, rfl⟩ := hputs.frame
    exact ⟨herr, hcode⟩
  refine ⟨v.setOutLen.cleanTables.successExit, ?_, ⟨rfl, rfl, hflags.1, hflags.2, rfl⟩, hlen, hout⟩
  simp only [exec, execCompress]
  generalize compressTables = tables at htables ⊢
  refine command_of_ok ?_
  rw [htables, Run.bind_ok, hv, Run.map_ok]

/-- The parts of a file whose tree is the output of SERIALIZE (R96, R104). -/
theorem fileOf_eq_parts {p : Params} {b : Shape} (hout : t.output = b.serial p.flagInternal p.flagLeaf) (s : State)
    (total : Word) (payload : List Byte) :
    fileOf p s.extension b total payload
      = magicBytes ++ le32 s.extLen ++ s.extension ++ le32 t.outLen ++ t.output ++ le32 total ++ payload := by
  rw [fileOf, ← hout, length_extension, length_output, BitVec.ofNat_toNat, BitVec.ofNat_toNat, BitVec.setWidth_eq,
    BitVec.setWidth_eq]

/-- Settles O44: COMPRESS writes the file of its tables, whose parts are the outputs of the component commands. -/
theorem compressIsTheComponentsInOrder : Obligations.CompressIsTheComponentsInOrder := by
  intro s t u v a b hp hcount hbuild hgen hser hpack ht ha hb hext hroom
  obtain ⟨hpt, hint⟩ := exec_keeps_input (by simp) hp hcount
  obtain ⟨hpu, hinu⟩ := exec_keeps_input (by simp) (hpt ▸ hp) hbuild
  obtain ⟨hpv, hinv⟩ := exec_keeps_input (by simp) (hpu ▸ hpt ▸ hp) hgen
  have hparams : v.params = s.params := hpv.trans (hpu.trans hpt)
  have hvwf : v.params.wellFormed = true := hparams ▸ hp
  obtain ⟨x, tree, htables, htotal, htreex, htreev, hlut⟩ :=
    compressTables_of_components hcount ht hbuild hgen (treeValid_of_serialize hser ha)
  obtain ⟨hparamsx, hextLen, hextension, hinputs, -⟩ := compressTables_keeps htables
  have hinput : x.input = v.input := hinputs.trans (hinv.trans (hinu.trans hint)).symm
  obtain ⟨hlena, houta⟩ := output_of_serialize hvwf htreev hser ha
  obtain ⟨hcoded, hlenb, houtb⟩ := output_of_pack hvwf hpack hb
  have hfile := compressFile_puts htreex (by rwa [hextLen, hparamsx]) (by rwa [hinput, hlut])
  rw [hparams] at houta
  rw [hparamsx, hextension, payloadBits_congr hinput hlut, htotal, ← houtb, fileOf_eq_parts houta] at hfile
  have hlen : (magicBytes ++ le32 s.extLen ++ s.extension ++ le32 a.outLen ++ a.output ++ le32 s.inLen
      ++ b.output).length = 19 + s.extLen.toNat + a.outLen.toNat + b.outLen.toNat := by
    simp only [List.length_append, length_extension, length_output, magicBytes, le32, List.length_cons,
      List.length_nil]
    omega
  obtain ⟨w, hw, hsucc, hlenw, hout⟩ := compress_of_puts hp htables hfile (hlen ▸ hroom)
  exact ⟨w, hw, hsucc, hout, by rw [hlenw, hlen, hlena, hlenb]⟩

end Sys2Proof.Machine

end

section
/-! SUPPORT. COUNT exactly (40_frequency_counter.md R130 to R133): the counting loop adds to each FREQ entry the number
of its symbol among the bytes it reads, and from clean counts no entry wraps (R134). -/

namespace Sys2Proof.Machine

variable {s t : State}

/-! ### The counting loop -/

@[simp] theorem length_input (s : State) : s.input.length = s.inLen.toNat := length_bytes _ _ _ _

/-- Each round adds to the entry of a symbol whether the byte at IPOS is that symbol (R132). -/
theorem freqOf_countSymbol (s : State) (sym : Byte) :
    (countSymbol s).freqOf sym = s.freqOf sym + BitVec.ofNat 32 ([s.memRead .ibuf s.seq.ipos].count sym) := by
  by_cases h : sym = s.memRead .ibuf s.seq.ipos
  · rw [h, freqOf_countSymbol_self, List.count_singleton_self]
    rfl
  · rw [freqOf_countSymbol_other s h, List.count_eq_zero_of_not_mem (by simpa using h), BitVec.add_zero]

/-- The loop adds to the entry of a symbol its number of occurrences among the bytes read, on 32 bits (R130). -/
theorem freqOf_countLoop (k : Nat) (s : State) (sym : Byte) :
    (countLoop k s).freqOf sym = s.freqOf sym + BitVec.ofNat 32 ((s.bytes .ibuf s.seq.ipos k).count sym) := by
  induction k generalizing s with
  | zero => exact (BitVec.add_zero _).symm
  | succ k ih =>
    have hbytes : s.bytes .ibuf s.seq.ipos (k + 1)
        = [s.memRead .ibuf s.seq.ipos] ++ (countSymbol s).bytes .ibuf (countSymbol s).seq.ipos k :=
      bytes_succ s .ibuf s.seq.ipos k
    rw [countLoop, ih, freqOf_countSymbol, hbytes, List.count_append, BitVec.ofNat_add, BitVec.add_assoc]

/-- From clean counts the entry of a symbol becomes its number in the input: no count exceeds IN_LEN, so none wraps
(R134). -/
theorem toNat_freqOf_countLoop_of_clean (hclean : ∀ sym, s.freqOf sym = 0) (sym : Byte) :
    ((countLoop s.inLen.toNat (s.setIpos 0)).freqOf sym).toNat = s.input.count sym := by
  have hbound : s.input.count sym < 2 ^ 32 :=
    (List.count_le_length.trans_eq (length_input s)).trans_lt s.inLen.isLt
  calc ((countLoop s.inLen.toNat (s.setIpos 0)).freqOf sym).toNat
      = (s.freqOf sym + BitVec.ofNat 32 (s.input.count sym)).toNat :=
        congrArg BitVec.toNat (freqOf_countLoop _ _ sym)
    _ = s.input.count sym := by
        rw [hclean sym, BitVec.ofNat_eq_ofNat, BitVec.zero_add, BitVec.toNat_ofNat, Nat.mod_eq_of_lt hbound]

/-! ### The checks of COUNT, in their order -/

theorem countBody_of_oversized (h : s.params.ibufCap < s.inLen.toNat) : countBody s = .raised .resource s :=
  if_pos h

theorem countBody_of_empty (h : s.inLen = 0) : countBody s = .raised .emptyInput s := by
  rw [countBody, if_neg (by simp [h]), if_pos h]

/-- An input within IBUF is counted: only FREQ, TOTAL and the transient state change (R130). -/
theorem countBody_of_clean (hne : s.inLen ≠ 0) (hcap : s.inLen.toNat ≤ s.params.ibufCap)
    (hclean : ∀ sym, s.freqOf sym = 0) :
    ∃ f q, countBody s = .ok { s with freq := f, total := s.inLen, seq := q }
      ∧ ∀ sym : Byte, (f[sym.toNat]'sym.isLt).toNat = s.input.count sym := by
  obtain ⟨f, q, hloop⟩ := countLoop_frame s.inLen.toNat (s.setIpos 0)
  have hcount := toNat_freqOf_countLoop_of_clean hclean
  rw [hloop] at hcount
  exact ⟨f, q, by rw [countBody, if_neg (Nat.not_lt.mpr hcap), if_neg hne, hloop]; rfl, hcount⟩

/-! ### The outcomes of COUNT -/

theorem exec_count (s : State) :
    exec .count s = finish .count (countBody (s.commandStart.setPhase .count).cleanTables.clearTotal) := rfl

/-- Settles O23: the loop starts from clean counts, and the start and the exit of the command touch no table. -/
theorem countCompletes : Obligations.CountCompletes := by
  intro s hne hcap
  obtain ⟨f, q, hbody, hcount⟩ :=
    countBody_of_clean (s := (s.commandStart.setPhase .count).cleanTables.clearTotal) hne hcap
      fun sym => Vector.getElem_replicate _
  exact ⟨_, (exec_count s).trans (congrArg (finish .count) hbody), rfl, Store.get?_forget s.node,
    Store.get?_forget s.lut, rfl, hcount⟩

/-- A check that fails stops COUNT behind the cleaning of its tables (R130, R258). -/
theorem count_failsWithoutTree {e : ErrKind}
    (h : countBody (s.commandStart.setPhase .count).cleanTables.clearTotal
      = .raised e (s.commandStart.setPhase .count).cleanTables.clearTotal) :
    FailsWithoutTree e .count s { s with freq := Vector.replicate 256 0, total := 0 } :=
  ⟨s.node.forget, s.lut.forget, Store.get?_forget _, Store.get?_forget _, _,
    (exec_count s).trans (congrArg (finish .count) h), rfl, rfl⟩

/-- Settles O25: each check fails in the state the tables have been cleaned in, and the error entry keeps it. -/
theorem countErrors : Obligations.CountErrors := fun _ =>
  ⟨fun hlong => count_failsWithoutTree (countBody_of_oversized hlong),
    fun hempty => count_failsWithoutTree (countBody_of_empty hempty)⟩

/-! ### The result law -/

theorem FailsWithoutTree.err {e : ErrKind} {i : Instr} {u : State} (h : FailsWithoutTree e i s u)
    (ht : exec i s = .next t) : t.err = true := by
  obtain ⟨_, _, -, -, t', ht', -, hfail⟩ := h
  obtain rfl : t' = t := Host.Outcome.next.inj (ht'.symm.trans ht)
  rw [hfail]
  rfl

/-- A COUNT without error has passed both checks, and its results are those of O23 (R130). -/
theorem count_results (h : exec .count s = .next t) (ht : t.err = false) :
    s.inLen ≠ 0 ∧ t.total = s.inLen ∧ ∀ sym, (t.freqOf sym).toNat = s.input.count sym := by
  obtain ⟨hresource, hempty⟩ := countErrors s
  have hcap : ¬ s.params.ibufCap < s.inLen.toNat := fun hlt => by simp [(hresource hlt).err h] at ht
  have hne : s.inLen ≠ 0 := fun h0 => by simp [(hempty h0).err h] at ht
  obtain ⟨t', ht', -, -, -, heq, hcount⟩ := countCompletes s hne (Nat.le_of_not_lt hcap)
  obtain rfl : t' = t := Host.Outcome.next.inj (ht'.symm.trans h)
  exact ⟨hne, by rw [heq]; rfl, hcount⟩

theorem mem_allSymbols (sym : Byte) : sym ∈ allSymbols :=
  List.mem_map.mpr ⟨sym.toNat, List.mem_range.mpr sym.isLt, by simp⟩

/-- Every byte of a list is counted at exactly one symbol. -/
theorem sum_count_allSymbols (l : List Byte) : (allSymbols.map fun sym => l.count sym).sum = l.length := by
  have hnodup : allSymbols.Nodup := List.nodup_iff_count_le_one.mpr count_allSymbols_le_one
  have hmem := mem_allSymbols
  generalize allSymbols = syms at hnodup hmem ⊢
  rw [← List.sum_toFinset _ hnodup]
  simpa using Multiset.sum_count_eq_card (m := (l : Multiset Byte)) fun sym _ => List.mem_toFinset.mpr (hmem sym)

/-- Counts that are those of a list sum to its length (R131). -/
theorem freqSum_of_counts {l : List Byte} (h : ∀ sym, (t.freqOf sym).toNat = l.count sym) : t.freqSum = l.length := by
  simp only [State.freqSum, h]
  exact sum_count_allSymbols l

theorem freq_ext (h : ∀ sym, t.freqOf sym = s.freqOf sym) : t.freq = s.freq := by
  refine Vector.ext fun i hi => ?_
  have hsym : (BitVec.ofNat 8 i).toNat = i := Nat.mod_eq_of_lt hi
  simpa only [State.freqOf, hsym] using h (BitVec.ofNat 8 i)

/-- Settles O24: FREQ is a function of the counts of the input, which no permutation changes and which sum to IN_LEN. -/
theorem countResultLaw : Obligations.CountResultLaw := by
  intro s t h ht
  obtain ⟨hne, htotal, hcount⟩ := count_results h ht
  have hsum : t.freqSum = s.inLen.toNat := (freqSum_of_counts hcount).trans (length_input s)
  refine ⟨hcount, hsum.trans (congrArg BitVec.toNat htotal.symm), htotal, ?_, ?_⟩
  · by_contra! hzero
    exact hne (BitVec.eq_of_toNat_eq (hsum.symm.trans (freqSum_zero hzero)))
  · intro s' t' h' ht' hperm
    obtain ⟨-, htotal', hcount'⟩ := count_results h' ht'
    have hlen : s'.inLen = s.inLen := BitVec.eq_of_toNat_eq (by simpa using hperm.length_eq)
    exact ⟨freq_ext fun sym => BitVec.eq_of_toNat_eq (by rw [hcount', hcount, hperm.count_eq]),
      by rw [htotal', htotal, hlen]⟩

end Sys2Proof.Machine

end

section
/-! SUPPORT. BUILD's merges exactly (41_tree_builder.md R141 to R143): what `extractMin` takes, which records the merge
loop writes, and which nodes PQ holds meanwhile. -/

namespace Sys2Proof.Machine

variable {s t : State}

/-! ### The keys -/

/-- Keys compare by frequency first, then by index (R142). -/
theorem toNat_key (s : State) (i : NodeIdx) : (s.key i).toNat = (s.nodeRead i).freq.toNat * 2 ^ 9 + i.toNat := by
  rw [State.key, BitVec.toNat_append, ← Nat.shiftLeft_add_eq_or_of_lt i.isLt, Nat.shiftLeft_eq]

/-- Keys are pairwise distinct, since indices are (R142). -/
theorem key_lt_of_le_of_ne {i j : NodeIdx} (h : s.key i ≤ s.key j) (hne : j ≠ i) : s.key i < s.key j := by
  have hi := i.isLt
  have hj := j.isLt
  have hne' : j.toNat ≠ i.toNat := fun e => hne (BitVec.eq_of_toNat_eq e)
  rw [BitVec.le_def, toNat_key, toNat_key] at h
  rw [BitVec.lt_def, toNat_key, toNat_key]
  omega

theorem freq_le_of_key_lt {i j : NodeIdx} (h : s.key i < s.key j) :
    (s.nodeRead i).freq.toNat ≤ (s.nodeRead j).freq.toNat := by
  have hj := j.isLt
  rw [BitVec.lt_def, toNat_key, toNat_key] at h
  omega

theorem leastKey_le {l : List NodeIdx} {i : NodeIdx} (h : s.leastKey l = some i) : ∀ j ∈ l, s.key i ≤ s.key j := by
  induction l generalizing i with
  | nil => simp
  | cons k rest ih =>
    rw [List.forall_mem_cons]
    simp only [State.leastKey] at h
    cases hm : s.leastKey rest with
    | none =>
      obtain rfl : k = i := by simpa [hm] using h
      exact ⟨BitVec.le_refl _, by simp [leastKey_eq_none.mp hm]⟩
    | some m =>
      simp only [hm] at h
      split at h
      · rename_i hlt
        obtain rfl := Option.some.inj h
        exact ⟨BitVec.le_refl _, fun j hj => BitVec.le_trans (BitVec.le_of_lt hlt) (ih hm j hj)⟩
      · rename_i hle
        obtain rfl := Option.some.inj h
        exact ⟨BitVec.not_lt.mp hle, ih hm⟩

/-- The order of keys does not depend on what is in PQ. -/
theorem leastKey_setPq (q l : List NodeIdx) : (s.setPq q).leastKey l = s.leastKey l := by
  induction l with
  | nil => rfl
  | cons i rest ih => simp only [State.leastKey, ih]; rfl

/-! ### The records of NODE -/

theorem addNode_pq (s : State) (r : NodeRec) : (s.addNode r).seq.pq = BitVec.ofNat 9 s.seq.n :: s.seq.pq := rfl

theorem nodeRead_addNode_self (s : State) (r : NodeRec) : (s.addNode r).nodeRead (BitVec.ofNat 9 s.seq.n) = r :=
  Store.read_write_self _ _ _ r

theorem nodeRead_addNode_other {i : NodeIdx} (h : i ≠ BitVec.ofNat 9 s.seq.n) (r : NodeRec) :
    (s.addNode r).nodeRead i = s.nodeRead i :=
  Store.read_write_other _ _ (fun e => h (BitVec.eq_of_toNat_eq e)) r

theorem get?_addNode_self (hn : s.seq.n < nodeCap) (r : NodeRec) : (s.addNode r).node.get? s.seq.n = some r := by
  have h : (s.addNode r).node.get? (BitVec.ofNat 9 s.seq.n).toNat = some r := Store.get?_write_self _ _ r
  rwa [toNat_nodeNumber hn] at h

theorem get?_addNode_of_lt (hn : s.seq.n < nodeCap) (r : NodeRec) {k : Nat} (hk : k < s.seq.n) :
    (s.addNode r).node.get? k = s.node.get? k :=
  Store.get?_write_other _ (by rw [toNat_nodeNumber hn]; omega) r

theorem nodeRead_addNode_of_lt (hn : s.seq.n < nodeCap) (r : NodeRec) {i : NodeIdx} (hi : i.toNat < s.seq.n) :
    (s.addNode r).nodeRead i = s.nodeRead i :=
  nodeRead_addNode_other (by rintro rfl; rw [toNat_nodeNumber hn] at hi; omega) r

/-! ### The nodes in PQ -/

/-- Node `i` is in PQ when a BUILD with `l` leaves creates node `j`: `Unmerged` for the states within BUILD, which have
no NLEAF yet (R140). -/
def InQueue (s : State) (l j : Nat) (i : NodeIdx) : Prop :=
  i.toNat < j ∧ ∀ k : NodeIdx, l ≤ k.toNat → k.toNat < j → (s.nodeRead k).left ≠ i ∧ (s.nodeRead k).right ≠ i

theorem unmerged_iff {j : Nat} {i : NodeIdx} : Unmerged t j i ↔ InQueue t t.nleaf.toNat j i := Iff.rfl

/-- Node `j` merges the two nodes in PQ with the smallest keys, the smaller one on the left (R142, R143). -/
structure MergesLeast (s : State) (l : Nat) (j : NodeIdx) : Prop where
  leaf : (s.nodeRead j).leaf = false
  sym : (s.nodeRead j).sym = 0
  left : InQueue s l j.toNat (s.nodeRead j).left
  right : InQueue s l j.toNat (s.nodeRead j).right
  lt : s.key (s.nodeRead j).left < s.key (s.nodeRead j).right
  least : ∀ i, InQueue s l j.toNat i → i ≠ (s.nodeRead j).left → i ≠ (s.nodeRead j).right →
    s.key (s.nodeRead j).right < s.key i
  freq : (s.nodeRead j).freq = (s.nodeRead (s.nodeRead j).left).freq + (s.nodeRead (s.nodeRead j).right).freq

/-- What is in PQ when node `j` is created depends on the records before `j` only. -/
theorem inQueue_congr {l j : Nat} (h : ∀ k : NodeIdx, k.toNat < j → t.nodeRead k = s.nodeRead k) {i : NodeIdx} :
    InQueue t l j i ↔ InQueue s l j i := by
  refine and_congr_right fun _ => forall_congr' fun k => imp_congr_right fun _ => forall_congr' fun hk => ?_
  rw [h k hk]

theorem key_congr {i : NodeIdx} (h : t.nodeRead i = s.nodeRead i) : t.key i = s.key i := by
  rw [State.key, State.key, h]

theorem MergesLeast.congr {l : Nat} {j : NodeIdx} (h : MergesLeast s l j)
    (hread : ∀ k : NodeIdx, k.toNat ≤ j.toNat → t.nodeRead k = s.nodeRead k) : MergesLeast t l j := by
  have hold {i : NodeIdx} (hi : i.toNat < j.toNat) : t.nodeRead i = s.nodeRead i := hread i hi.le
  have hqueue {i : NodeIdx} : InQueue t l j.toNat i ↔ InQueue s l j.toNat i := inQueue_congr fun k => hold
  have hj : t.nodeRead j = s.nodeRead j := hread j le_rfl
  have hleft := hold h.left.1
  have hright := hold h.right.1
  constructor <;> rw [hj]
  case leaf => exact h.leaf
  case sym => exact h.sym
  case left => exact hqueue.mpr h.left
  case right => exact hqueue.mpr h.right
  case lt =>
    rw [key_congr hleft, key_congr hright]
    exact h.lt
  case least =>
    intro i hi
    rw [key_congr hright, key_congr (hold hi.1)]
    exact h.least i (hqueue.mp hi)
  case freq =>
    rw [hleft, hright]
    exact h.freq

/-- Without an internal node all nodes are in PQ. -/
theorem inQueue_iff_lt {l j : Nat} (h : j ≤ l) {i : NodeIdx} : InQueue s l j i ↔ i.toNat < j :=
  ⟨And.left, fun hi => ⟨hi, fun _ hk hkj => absurd (hkj.trans_le h) hk.not_gt⟩⟩

/-- The node created last is in PQ, since every child is created before its parent. -/
theorem inQueue_last {l n : Nat} {j : NodeIdx} (hj : j.toNat + 1 = n)
    (h : ∀ k : NodeIdx, l ≤ k.toNat → k.toNat < n → MergesLeast s l k) : InQueue s l n j := by
  refine ⟨by omega, fun k hl hk => ?_⟩
  have hleft := (h k hl hk).left.1
  have hright := (h k hl hk).right.1
  constructor <;> rintro rfl <;> omega

/-- The creation of the internal node `j` takes its two children out of PQ. -/
theorem inQueue_succ_iff {l n : Nat} {j i : NodeIdx} (hj : j.toNat = n) (hl : l ≤ n) (hne : i ≠ j) :
    InQueue s l (n + 1) i ↔ InQueue s l n i ∧ (s.nodeRead j).left ≠ i ∧ (s.nodeRead j).right ≠ i := by
  constructor
  · intro ⟨hi, h⟩
    have hne' : i.toNat ≠ n := fun e => hne (BitVec.eq_of_toNat_eq (e.trans hj.symm))
    exact ⟨⟨by omega, fun k hlk hk => h k hlk (by omega)⟩, h j (by omega) (by omega)⟩
  · intro ⟨⟨hi, h⟩, hchildren⟩
    refine ⟨by omega, fun k hlk hk => ?_⟩
    by_cases hkn : k.toNat = n
    · rwa [BitVec.eq_of_toNat_eq (hkn.trans hj.symm)]
    · exact h k hlk (by omega)

/-! ### The invariant of the merge loop -/

/-- BUILD has made a leaf of each of the records `recs`, and then internal nodes by merges of the smallest keys; PQ holds
the nodes no merge has taken (R140 to R143). -/
structure Merging (s : State) (recs : List NodeRec) : Prop where
  nodup : s.seq.pq.Nodup
  queue : ∀ i, i ∈ s.seq.pq ↔ InQueue s recs.length s.seq.n i
  merged : ∀ j : NodeIdx, recs.length ≤ j.toNat → j.toNat < s.seq.n → MergesLeast s recs.length j
  leaves : ∀ k < recs.length, s.node.get? k = recs[k]?
  count : s.seq.n + s.seq.pq.length = 2 * recs.length
  enough : recs.length ≤ s.seq.n

theorem merging_nil (q : Seq) : Merging { s with seq := { q with n := 0, pq := [] } } [] where
  nodup := .nil
  queue i := by simp [InQueue]
  merged _ _ hj := absurd hj (Nat.not_lt_zero _)
  leaves _ hk := absurd hk (Nat.not_lt_zero _)
  count := rfl
  enough := le_rfl

/-- While there is no internal node, a further Leaf may be made (R141). -/
theorem Merging.addLeafNode {recs : List NodeRec} (h : Merging s recs) (hn : s.seq.n = recs.length)
    (hcap : s.seq.n < nodeCap) (r : NodeRec) : Merging (s.addNode r) (recs ++ [r]) := by
  have hmem (i : NodeIdx) : i ∈ s.seq.pq ↔ i.toNat < s.seq.n := by rw [h.queue, inQueue_iff_lt hn.le]
  have hidx := toNat_nodeNumber hcap
  have hlen : (recs ++ [r]).length = s.seq.n + 1 := by simp [hn]
  refine ⟨List.nodup_cons.mpr ⟨fun hi => ?_, h.nodup⟩, fun i => ?_, fun j hj hjn => ?_, fun k hk => ?_, ?_, hlen.le⟩
  · exact absurd ((hmem _).mp hi) (by omega)
  · rw [addNode_n, inQueue_iff_lt hlen.ge, addNode_pq, List.mem_cons, hmem, ← BitVec.toNat_inj, hidx]
    omega
  · rw [addNode_n] at hjn
    omega
  · rcases Nat.lt_succ_iff_lt_or_eq.mp (hlen ▸ hk) with hlt | rfl
    · rw [get?_addNode_of_lt hcap r hlt, h.leaves k (hn ▸ hlt), List.getElem?_append_left (hn ▸ hlt)]
    · rw [get?_addNode_self hcap, hn, List.getElem?_concat_length]
  · have hcount := h.count
    rw [addNode_n, addNode_pq, List.length_cons]
    omega

/-- The record of the Leaf of a symbol (R141). -/
def State.leafRecord (s : State) (sym : Byte) : NodeRec :=
  { leaf := true, sym := sym, freq := s.freqOf sym, left := 0, right := 0 }

/-- A Leaf is made of each symbol that is present, in the order of the symbols (R141). -/
theorem addLeaves_merging (syms : List Byte) {recs : List NodeRec} (h : Merging s recs) (hn : s.seq.n = recs.length)
    (hcap : recs.length + syms.length ≤ 256) :
    Merging (addLeaves syms s) (recs ++ (syms.filter fun sym => s.freqOf sym != 0).map s.leafRecord)
      ∧ (addLeaves syms s).seq.n
        = (recs ++ (syms.filter fun sym => s.freqOf sym != 0).map s.leafRecord).length := by
  induction syms generalizing s recs with
  | nil => exact ⟨by simpa [addLeaves] using h, by simpa [addLeaves] using hn⟩
  | cons sym rest ih =>
    rw [List.length_cons] at hcap
    by_cases hf : s.freqOf sym = 0
    · rw [addLeaves, addLeaf, if_pos hf, List.filter_cons_of_neg (by simpa using hf)]
      exact ih h hn (by omega)
    · rw [addLeaves, addLeaf, if_neg hf, List.filter_cons_of_pos (by simpa using hf), List.map_cons, List.append_cons]
      refine ih (h.addLeafNode hn (by simp only [nodeCap]; omega) _) ?_ ?_
      · rw [addNode_n, hn, List.length_append, List.length_singleton]
      · rw [List.length_append, List.length_singleton]
        omega

/-- The record of the internal node whose children are `a` and `b` (R143). -/
def State.parentRecord (s : State) (a b : NodeIdx) : NodeRec :=
  { leaf := false, sym := 0, freq := (s.nodeRead a).freq + (s.nodeRead b).freq, left := a, right := b }

/-- `a` and `b` are the nodes in PQ with the smallest keys, in this order (R142). -/
structure TwoLeast (s : State) (a b : NodeIdx) : Prop where
  left : a ∈ s.seq.pq
  right : b ∈ s.seq.pq.erase a
  lt : s.key a < s.key b
  least : ∀ i ∈ (s.seq.pq.erase a).erase b, s.key b < s.key i

/-- The state after the merge of `a` and `b`: their parent stands in PQ in their place (R143). -/
def State.joined (s : State) (a b : NodeIdx) : State :=
  (s.setPq ((s.seq.pq.erase a).erase b)).addNode (s.parentRecord a b)

/-- All that a merge does where PQ holds two nodes (R142, R143). -/
theorem mergeStep_of_two (hnodup : s.seq.pq.Nodup) (h : 1 < s.seq.pq.length) :
    ∃ a b, TwoLeast s a b ∧ mergeStep s = s.joined a b := by
  obtain ⟨a, ha, h₁⟩ := extractMin_of_ne_nil (List.ne_nil_of_length_pos (Nat.zero_lt_of_lt h))
  have hlen := List.length_erase_of_mem ha
  obtain ⟨b, hb, h₂⟩ := extractMin_of_ne_nil (s := s.setPq (s.seq.pq.erase a))
    (List.ne_nil_of_length_pos (show 0 < (s.seq.pq.erase a).length by omega))
  have hfirst := leastKey_le (extractMin_eq_some h₁).1
  have hnext := (extractMin_eq_some h₂).1
  rw [leastKey_setPq] at hnext
  refine ⟨a, b, ⟨ha, hb, ?_, fun i hi => ?_⟩, ?_⟩
  · obtain ⟨hne, hmem⟩ := hnodup.mem_erase_iff.mp hb
    exact key_lt_of_le_of_ne (hfirst b hmem) hne
  · obtain ⟨hne, hmem⟩ := (hnodup.erase a).mem_erase_iff.mp hi
    exact key_lt_of_le_of_ne (leastKey_le hnext i hmem) hne
  · simp only [mergeStep, h₁, h₂]
    rfl

theorem Merging.mem_erase_iff {recs : List NodeRec} (h : Merging s recs) {a b i : NodeIdx} :
    i ∈ (s.seq.pq.erase a).erase b ↔ InQueue s recs.length s.seq.n i ∧ a ≠ i ∧ b ≠ i := by
  rw [(h.nodup.erase a).mem_erase_iff, h.nodup.mem_erase_iff, h.queue]
  tauto

theorem joined_n (s : State) (a b : NodeIdx) : (s.joined a b).seq.n = s.seq.n + 1 := rfl

theorem TwoLeast.length_joined {a b : NodeIdx} (h : TwoLeast s a b) :
    (s.joined a b).seq.pq.length + 1 = s.seq.pq.length := by
  have hb := List.length_erase_of_mem h.right
  have ha := List.length_erase_of_mem h.left
  have hpos := List.length_pos_of_mem h.right
  change ((s.seq.pq.erase a).erase b).length + 1 + 1 = _
  omega

/-- The node that a merge of the two smallest keys creates. -/
theorem Merging.joined_mergesLeast {recs : List NodeRec} {a b j : NodeIdx} (h : Merging s recs)
    (hab : TwoLeast s a b) (hj : j.toNat = s.seq.n)
    (hold : ∀ i : NodeIdx, i.toNat < s.seq.n → t.nodeRead i = s.nodeRead i) (hnew : t.nodeRead j = s.parentRecord a b) :
    MergesLeast t recs.length j := by
  have hqueue {i : NodeIdx} : InQueue t recs.length j.toNat i ↔ InQueue s recs.length s.seq.n i := by
    rw [hj, inQueue_congr hold]
  have ha := (h.queue a).mp hab.left
  have hb := (h.queue b).mp (List.mem_of_mem_erase hab.right)
  have hreadA := hold a ha.1
  have hreadB := hold b hb.1
  constructor <;> simp only [hnew, State.parentRecord]
  case left => exact hqueue.mpr ha
  case right => exact hqueue.mpr hb
  case lt =>
    rw [key_congr hreadA, key_congr hreadB]
    exact hab.lt
  case least =>
    intro i hi hl hr
    rw [key_congr hreadB, key_congr (hold i (hqueue.mp hi).1)]
    exact hab.least i (h.mem_erase_iff.mpr ⟨hqueue.mp hi, hl.symm, hr.symm⟩)
  case freq => rw [hreadA, hreadB]

/-- A merge of the two smallest keys keeps the invariant (R142, R143). -/
theorem Merging.joined {recs : List NodeRec} {a b : NodeIdx} (h : Merging s recs) (hn : s.seq.n < nodeCap)
    (hab : TwoLeast s a b) : Merging (s.joined a b) recs := by
  have hold (i : NodeIdx) (hi : i.toNat < s.seq.n) : (s.joined a b).nodeRead i = s.nodeRead i :=
    nodeRead_addNode_of_lt (s := s.setPq _) hn _ hi
  have hnew : (s.joined a b).nodeRead (BitVec.ofNat 9 s.seq.n) = s.parentRecord a b :=
    nodeRead_addNode_self (s.setPq _) _
  have hidx := toNat_nodeNumber hn
  have hmerged (j : NodeIdx) (hl : recs.length ≤ j.toNat) (hj : j.toNat < s.seq.n + 1) :
      MergesLeast (s.joined a b) recs.length j := by
    rcases Nat.lt_succ_iff_lt_or_eq.mp hj with hlt | heq
    · exact (h.merged j hl hlt).congr fun k hk => hold k (by omega)
    · obtain rfl : j = BitVec.ofNat 9 s.seq.n := BitVec.eq_of_toNat_eq (heq.trans hidx.symm)
      exact h.joined_mergesLeast hab heq hold hnew
  refine ⟨List.nodup_cons.mpr ⟨fun hi => ?_, (h.nodup.erase a).erase b⟩, fun i => ?_, hmerged, fun k hk => ?_, ?_, ?_⟩
  · obtain ⟨⟨hlt, -⟩, -⟩ := h.mem_erase_iff.mp hi
    exact absurd hidx hlt.ne
  · change i ∈ BitVec.ofNat 9 s.seq.n :: (s.seq.pq.erase a).erase b ↔ _
    rw [List.mem_cons, joined_n]
    by_cases hi : i = BitVec.ofNat 9 s.seq.n
    · exact iff_of_true (.inl hi) (inQueue_last (by rw [hi, hidx]) hmerged)
    · rw [or_iff_right hi, inQueue_succ_iff hidx h.enough hi, inQueue_congr hold, hnew, h.mem_erase_iff]
      rfl
  · exact (get?_addNode_of_lt (s := s.setPq _) hn _ (hk.trans_le h.enough)).trans (h.leaves k hk)
  · have hcount := h.count
    have hlen := hab.length_joined
    rw [joined_n]
    omega
  · exact h.enough.trans (Nat.le_succ _)

theorem mergeLoop_merging (k : Nat) {recs : List NodeRec} (h : Merging s recs) (hl : recs.length ≤ 256)
    (hk : s.seq.pq.length ≤ k + 1) : Merging (mergeLoop k s) recs ∧ (mergeLoop k s).seq.pq.length ≤ 1 := by
  induction k generalizing s with
  | zero => exact ⟨h, hk⟩
  | succ k ih =>
    rw [mergeLoop]
    split
    · rename_i htwo
      obtain ⟨a, b, hab, hstep⟩ := mergeStep_of_two h.nodup htwo
      have hlen := hab.length_joined
      have hcount := h.count
      rw [hstep]
      exact ih (h.joined (by simp only [nodeCap]; omega) hab) (by omega)
    · exact ⟨h, by omega⟩

end Sys2Proof.Machine
end

section
/-! SUPPORT. The outcomes of BUILD (41_tree_builder.md R140 to R146): EmptyInput where no symbol is present, else the tree
of the merges, its registers, its leaf symbols and its frequencies. -/

namespace Sys2Proof.Machine

variable {s t u : State}

/-! ### The body of BUILD -/

/-- The state in which BUILD has made the leaves of the symbols `syms` (R141). -/
def State.withLeaves (s : State) (syms : List Byte) : State :=
  addLeaves syms { s with seq := { s.seq with n := 0, pq := [] } }

/-- `allSymbols` stands as a variable `syms` here, since Lean would else try to run the loops. -/
theorem buildBody_eq (s : State) :
    ∃ syms, syms = allSymbols ∧
      buildBody s = if (s.withLeaves syms).seq.n = 0 then .raised .emptyInput (s.withLeaves syms)
        else buildFinish (s.withLeaves syms).seq.n (mergeLoop (s.withLeaves syms).seq.n (s.withLeaves syms)) := by
  refine ⟨allSymbols, rfl, ?_⟩
  unfold buildBody
  generalize allSymbols = syms
  rfl

theorem addLeaves_of_absent (syms : List Byte) (h : ∀ sym, s.freqOf sym = 0) : addLeaves syms s = s := by
  induction syms with
  | nil => rfl
  | cons sym rest ih => rw [addLeaves, addLeaf, if_pos (h sym), ih]

theorem buildBody_of_absent (h : ∀ sym, s.freqOf sym = 0) :
    buildBody s = .raised .emptyInput { s with seq := { s.seq with n := 0, pq := [] } } := by
  obtain ⟨syms, -, hbody⟩ := buildBody_eq s
  have hleaves : s.withLeaves syms = { s with seq := { s.seq with n := 0, pq := [] } } :=
    addLeaves_of_absent (s := { s with seq := { s.seq with n := 0, pq := [] } }) syms h
  rw [hbody, hleaves, if_pos rfl]

/-- The records of the leaves that BUILD makes, in ascending order of the symbols (R141). -/
def State.leafRecords (s : State) : List NodeRec := (present s).map s.leafRecord

@[simp] theorem length_leafRecords (s : State) : s.leafRecords.length = (present s).length := List.length_map _

theorem leafRecords_congr (h : t.freq = s.freq) : t.leafRecords = s.leafRecords := by
  have hfreq : t.freqOf = s.freqOf := by
    funext sym
    simp only [State.freqOf, h]
  have hleaf : t.leafRecord = s.leafRecord := by
    funext sym
    simp only [State.leafRecord, hfreq]
  simp only [State.leafRecords, present, hfreq, hleaf]

theorem length_leafRecords_le (s : State) : s.leafRecords.length ≤ 256 :=
  (length_leafRecords s).trans_le ((List.length_filter_le _ _).trans_eq (by simp [allSymbols]))

theorem withLeaves_merging (s : State) {syms : List Byte} (h : syms = allSymbols) :
    Merging (s.withLeaves syms) s.leafRecords ∧ (s.withLeaves syms).seq.n = s.leafRecords.length := by
  have hlen : syms.length = 256 := by simp [h, allSymbols]
  rw [State.leafRecords, present, ← h]
  exact addLeaves_merging syms (merging_nil s.seq) rfl (by simp [hlen])

/-- What BUILD leaves in `t`: leaves with the records `recs`, merges of the smallest keys, the last node the root (R141 to
R143, R146). -/
structure Built (recs : List NodeRec) (t : State) : Prop where
  nleaf : t.nleaf.toNat = recs.length
  nnode : t.nnode.toNat = 2 * recs.length - 1
  root : t.root.toNat = 2 * recs.length - 2
  leaves : ∀ k < recs.length, t.node.get? k = recs[k]?
  merged : ∀ j : NodeIdx, recs.length ≤ j.toNat → j.toNat < t.nnode.toNat → MergesLeast t recs.length j

/-- At the end of the merges PQ holds the last node alone (R146 d). -/
theorem Merging.pq_eq_last {recs : List NodeRec} (h : Merging s recs) (hrecs : recs ≠ []) (hl : recs.length ≤ 256)
    (hone : s.seq.pq.length ≤ 1) :
    s.seq.n = 2 * recs.length - 1 ∧ s.seq.pq = [BitVec.ofNat 9 (2 * recs.length - 2)] := by
  have hcount := h.count
  have hpos := List.length_pos_iff.mpr hrecs
  have hidx : (BitVec.ofNat 9 (s.seq.n - 1)).toNat = s.seq.n - 1 := by
    rw [BitVec.toNat_ofNat]
    omega
  have hlast : BitVec.ofNat 9 (s.seq.n - 1) ∈ s.seq.pq := (h.queue _).mpr (inQueue_last (by omega) h.merged)
  have hpq := List.length_pos_of_mem hlast
  obtain ⟨r, hr⟩ := List.length_eq_one_iff.mp (show s.seq.pq.length = 1 by omega)
  rw [hr, List.mem_singleton] at hlast
  refine ⟨by omega, ?_⟩
  rw [hr, ← hlast, show s.seq.n - 1 = 2 * recs.length - 2 by omega]

theorem Merging.buildFinish {recs : List NodeRec} (h : Merging s recs) (hrecs : recs ≠ []) (hl : recs.length ≤ 256)
    (hone : s.seq.pq.length ≤ 1) : ∃ u, buildFinish recs.length s = .ok u ∧ Built recs u := by
  have hpos := List.length_pos_iff.mpr hrecs
  obtain ⟨hn, hpq⟩ := h.pq_eq_last hrecs hl hone
  have hmin : s.extractMin = some (BitVec.ofNat 9 (2 * recs.length - 2), s.setPq []) := by
    simp [State.extractMin, hpq, State.leastKey]
  have hnnode : (BitVec.ofNat 9 s.seq.n).toNat = s.seq.n := by
    rw [BitVec.toNat_ofNat]
    omega
  simp only [Machine.buildFinish, hmin]
  refine ⟨_, rfl, ?_, hnnode.trans hn, ?_, h.leaves, fun j hj hjn => ?_⟩
  · rw [BitVec.toNat_ofNat]
    omega
  · rw [BitVec.toNat_ofNat]
    omega
  · exact (h.merged j hj (hjn.trans_eq hnnode)).congr fun _ _ => rfl

theorem buildBody_of_present (hs : s.leafRecords ≠ []) : ∃ u, buildBody s = .ok u ∧ Built s.leafRecords u := by
  obtain ⟨syms, hsyms, hbody⟩ := buildBody_eq s
  obtain ⟨hleaves, hn⟩ := withLeaves_merging s hsyms
  have hl := length_leafRecords_le s
  have hcount := hleaves.count
  rw [hn] at hbody hcount
  obtain ⟨hloop, hone⟩ := mergeLoop_merging s.leafRecords.length hleaves hl (by omega)
  rw [hbody, if_neg (List.length_pos_iff.mpr hs).ne']
  exact hloop.buildFinish hs hl hone

/-! ### The outcomes of BUILD -/

theorem exec_build_eq (s : State) :
    exec .build s = finish .build (buildBody (s.commandStart.setPhase .build).invalidateTree) := by
  simp only [exec, execBuild, command]

/-- Settles O30: no leaf is made, and the error entry keeps what InvalidateTree has left. -/
theorem buildOfNothingIsEmptyInput : Obligations.BuildOfNothingIsEmptyInput := by
  intro s h
  have hbody := buildBody_of_absent (s := (s.commandStart.setPhase .build).invalidateTree) h
  exact ⟨s.node.forget, s.lut.forget, Store.get?_forget _, Store.get?_forget _, _,
    (exec_build_eq s).trans (congrArg (finish .build) hbody), rfl, rfl⟩

/-- BUILD on present symbols completes with a tree, and changes nothing but the tree, the code table and STATUS (R140). -/
theorem exec_build (hs : present s ≠ []) :
    ∃ t tree, exec .build s = .next t ∧ Built s.leafRecords t ∧ TreeOf t tree ∧ Unspecified t.lut ∧ t.seq.pc = .idle
      ∧ t = asSucceeded t.seq
        { withoutTree t.node t.lut s with treeValid := true, nleaf := t.nleaf, nnode := t.nnode, root := t.root } := by
  have hrecs : (s.commandStart.setPhase .build).invalidateTree.leafRecords = s.leafRecords := leafRecords_congr rfl
  obtain ⟨u, hu, hbuilt⟩ := buildBody_of_present (s := (s.commandStart.setPhase .build).invalidateTree)
    (by rw [hrecs]; simpa [State.leafRecords] using hs)
  obtain ⟨u', tree, hu', hframe, -, -, hvalid, htree⟩ :=
    (@buildBody_cases (s.commandStart.setPhase .build).invalidateTree rfl rfl).resolve_left (by simp [hu])
  obtain rfl : u' = u := Run.ok.inj (hu'.symm.trans hu)
  rw [hrecs] at hbuilt
  have hexit : Built s.leafRecords u'.successExit := ⟨hbuilt.nleaf, hbuilt.nnode, hbuilt.root, hbuilt.leaves,
    fun j hj hjn => (hbuilt.merged j hj hjn).congr fun _ _ => rfl⟩
  refine ⟨_, tree, (exec_build_eq s).trans (congrArg (finish .build) hu), hexit, treeOf_congr htree, ?_, rfl, ?_⟩
  · obtain ⟨_, _, _, _, _, _, rfl⟩ := hframe
    exact Store.get?_forget s.lut
  · obtain ⟨_, _, _, _, _, _, rfl⟩ := hframe
    cases hvalid
    rfl

theorem succeeded_of_asSucceeded (hpc : t.seq.pc = .idle) (h : t = asSucceeded t.seq u) : Succeeded t := by
  rw [h] at hpc ⊢
  exact ⟨rfl, rfl, rfl, rfl, hpc⟩

theorem toNat_index_of_lt {n : BitVec 9} {k : Nat} (h : k < n.toNat) : (BitVec.ofNat 9 k).toNat = k := by
  rw [BitVec.toNat_ofNat, Nat.mod_eq_of_lt (h.trans n.isLt)]

theorem exists_get?_of_stored {a : NodeTree} (h : a.stored s = true) {k : Nat} (hk : k ∈ a.indices) :
    ∃ r, s.node.get? k = some r := by
  induction a with
  | leaf i sym =>
    obtain ⟨f, hget⟩ := stored_leaf_iff.mp h
    obtain rfl : k = i.toNat := by simpa [NodeTree.indices] using hk
    exact ⟨_, hget⟩
  | node i l r ihl ihr =>
    obtain ⟨⟨f, hget⟩, hl, hr⟩ := stored_node_iff.mp h
    simp only [NodeTree.indices, List.mem_cons, List.mem_append] at hk
    rcases hk with rfl | hk | hk
    · exact ⟨_, hget⟩
    · exact ihl hl hk
    · exact ihr hr hk

/-- Every record below NNODE is specified where NODE holds a tree (R30). -/
theorem exists_get?_of_treeOf {a : NodeTree} (h : TreeOf s a) {k : Nat} (hk : k < s.nnode.toNat) :
    ∃ r, s.node.get? k = some r := by
  obtain ⟨hstored, -, hnodes, -⟩ := h
  exact exists_get?_of_stored hstored (hnodes.mem_iff.mpr (List.mem_range.mpr hk))

/-- Settles O26: the leaves keep the records the loop over the symbols has written, and every record after them is that
of a merge. -/
theorem buildNumbersLeavesBySymbol : Obligations.BuildNumbersLeavesBySymbol := by
  intro s hs
  obtain ⟨t, tree, hexec, hbuilt, htree, -, hpc, heq⟩ := exec_build hs
  refine ⟨t, hexec, succeeded_of_asSucceeded hpc heq, by rw [heq]; rfl, ?_, ?_, fun k hk => ?_, fun k hk hkn => ?_⟩
  · rw [hbuilt.nleaf, length_leafRecords]
  · rw [hbuilt.nnode, length_leafRecords]
  · rw [hbuilt.leaves k (by simpa using hk), State.leafRecords, List.getElem?_map, List.getElem?_eq_getElem hk]
    rfl
  · obtain ⟨r, hr⟩ := exists_get?_of_treeOf htree hkn
    have hidx := toNat_index_of_lt hkn
    have hmerge := hbuilt.merged (BitVec.ofNat 9 k) (by rwa [hidx, length_leafRecords]) (by rwa [hidx])
    obtain ⟨hleaf, -, ⟨hleft, -⟩, ⟨hright, -⟩, -⟩ := hmerge
    rw [nodeRead_of_get? (by rwa [hidx]), hidx] at *
    exact ⟨r, hr, hleaf, hleft, hright⟩

/-- Settles O27: the queue of the invariant of the merge loop is the one the statement names. -/
theorem buildMergesTheTwoSmallestKeys : Obligations.BuildMergesTheTwoSmallestKeys := by
  intro s hs
  obtain ⟨t, tree, hexec, hbuilt, -, -, hpc, heq⟩ := exec_build hs
  refine ⟨t, hexec, succeeded_of_asSucceeded hpc heq, fun j hj hjn => ?_⟩
  have hmerge := hbuilt.merged j (hbuilt.nleaf ▸ hj) hjn
  rw [← hbuilt.nleaf] at hmerge
  simp only [unmerged_iff]
  exact ⟨hmerge.leaf, hmerge.sym, hmerge.left, hmerge.right, hmerge.lt, hmerge.least, hmerge.freq⟩

end Sys2Proof.Machine
end

section
/-! SUPPORT. The tree that BUILD makes (41_tree_builder.md R146): its leaf symbols are those present in FREQ, and the
frequency of a node is the 32-bit sum of the counts of the leaf symbols below it. -/

namespace Sys2Proof.Machine

variable {s t : State} {a : NodeTree}

/-! ### The leaf symbols -/

/-- The symbol of record `k` of NODE, if it is that of a Leaf. -/
def State.leafSymbol? (s : State) (k : Nat) : Option Byte :=
  (s.node.get? k).bind fun r => if r.leaf then some r.sym else none

theorem symbols_eq_filterMap (h : a.stored s = true) : a.shape.symbols = a.indices.filterMap s.leafSymbol? := by
  induction a with
  | leaf i sym =>
    obtain ⟨f, hget⟩ := stored_leaf_iff.mp h
    simp [NodeTree.shape, Shape.symbols, NodeTree.indices, State.leafSymbol?, hget]
  | node i l r ihl ihr =>
    obtain ⟨⟨f, hget⟩, hl, hr⟩ := stored_node_iff.mp h
    simp [NodeTree.shape, Shape.symbols, NodeTree.indices, State.leafSymbol?, hget, ihl hl, ihr hr]

theorem filterMap_getElem?_range {α : Type} (l : List α) {n : Nat} (h : l.length ≤ n) :
    (List.range n).filterMap (l[·]?) = l := by
  induction l generalizing n with
  | nil => simp
  | cons x xs ih =>
    obtain ⟨m, rfl⟩ : ∃ m, n = m + 1 := ⟨n - 1, by rw [List.length_cons] at h; omega⟩
    simpa [List.range_succ_eq_map, List.filterMap_map, Function.comp_def] using ih (Nat.le_of_succ_le_succ h)

/-- The records that BUILD has made are, in this order, those of the leaves and of the merges (R141). -/
theorem Built.get?_cases (h : Built s.leafRecords t) {i : NodeIdx} (hi : i.toNat < t.nnode.toNat) :
    (∃ sym, (present s)[i.toNat]? = some sym ∧ t.node.get? i.toNat = some (s.leafRecord sym))
      ∨ ((present s)[i.toNat]? = none ∧ MergesLeast t s.leafRecords.length i) := by
  by_cases hlt : i.toNat < (present s).length
  · have hget := h.leaves i.toNat (by simpa using hlt)
    rw [State.leafRecords, List.getElem?_map, List.getElem?_eq_getElem hlt] at hget
    exact .inl ⟨_, List.getElem?_eq_getElem hlt, hget⟩
  · exact .inr ⟨List.getElem?_eq_none (Nat.le_of_not_lt hlt), h.merged i (by simpa using hlt) hi⟩

theorem Built.leafSymbol?_eq (h : Built s.leafRecords t) {i : NodeIdx} (hi : i.toNat < t.nnode.toNat) :
    t.leafSymbol? i.toNat = (present s)[i.toNat]? := by
  rcases h.get?_cases hi with ⟨sym, hsym, hget⟩ | ⟨hnone, hmerge⟩
  · rw [State.leafSymbol?, hget, hsym]
    rfl
  · rw [State.leafSymbol?, hnone]
    cases hget : t.node.get? i.toNat with
    | none => rfl
    | some r =>
      have hleaf := hmerge.leaf
      rw [nodeRead_of_get? hget] at hleaf
      simp [hleaf]

/-- The leaf symbols are exactly those present in FREQ, each once (R146 a). -/
theorem Built.symbols_perm (h : Built s.leafRecords t) (htree : TreeOf t a) : a.shape.symbols.Perm (present s) := by
  obtain ⟨hstored, -, hnodes, -⟩ := htree
  have hsyms : (List.range t.nnode.toNat).filterMap t.leafSymbol? = present s := by
    rw [List.filterMap_congr (g := ((present s)[·]?)) fun k hk => ?_, filterMap_getElem?_range]
    · rw [h.nnode, length_leafRecords]
      omega
    · have hlt := List.mem_range.mp hk
      have hidx := toNat_index_of_lt hlt
      have hsym := h.leafSymbol?_eq (i := BitVec.ofNat 9 k) (by rwa [hidx])
      rwa [hidx] at hsym
  rw [symbols_eq_filterMap hstored, ← hsyms]
  exact hnodes.filterMap _

theorem nodup_present (s : State) : (present s).Nodup :=
  (List.nodup_iff_count_le_one.mpr count_allSymbols_le_one).filter _

/-! ### The frequencies -/

/-- The sum of the counts of the leaf symbols of a tree, without wrap. -/
def State.weight (s : State) (a : Shape) : Nat := (a.symbols.map fun sym => (s.freqOf sym).toNat).sum

theorem weight_node (s : State) (l r : Shape) : s.weight (.node l r) = s.weight l + s.weight r := by
  simp [State.weight, Shape.symbols]

/-- Absent symbols add nothing to the sum of FREQ. -/
theorem sum_map_present (s : State) : ((present s).map fun sym => (s.freqOf sym).toNat).sum = s.freqSum := by
  unfold present State.freqSum
  induction allSymbols with
  | nil => rfl
  | cons sym rest ih =>
    by_cases hf : s.freqOf sym = 0
    · rw [List.filter_cons_of_neg (by simpa using hf)]
      simpa [hf] using ih
    · rw [List.filter_cons_of_pos (by simpa using hf)]
      simpa using ih

/-- The frequency of a node is the 32-bit sum of the counts of the leaf symbols below it. -/
theorem Built.freq_eq_weight (h : Built s.leafRecords t) (ha : a.stored t = true)
    (hlt : ∀ k ∈ a.indices, k < t.nnode.toNat) : (t.nodeRead a.idx).freq = BitVec.ofNat 32 (s.weight a.shape) := by
  induction a with
  | leaf i sym =>
    obtain ⟨f, hget⟩ := stored_leaf_iff.mp ha
    have hread : t.nodeRead i = _ := nodeRead_of_get? hget
    rcases h.get?_cases (hlt i.toNat (by simp [NodeTree.indices])) with ⟨sym', -, hget'⟩ | ⟨-, hmerge⟩
    · cases hget.symm.trans hget'
      simp [NodeTree.idx, hread, State.weight, NodeTree.shape, Shape.symbols]
    · have hleaf := hmerge.leaf
      rw [hread] at hleaf
      cases hleaf
  | node i l r ihl ihr =>
    obtain ⟨⟨f, hget⟩, hl, hr⟩ := stored_node_iff.mp ha
    have hread : t.nodeRead i = _ := nodeRead_of_get? hget
    simp only [NodeTree.indices, List.forall_mem_cons, List.forall_mem_append] at hlt
    obtain ⟨hi, hltl, hltr⟩ := hlt
    rcases h.get?_cases hi with ⟨sym, -, hget'⟩ | ⟨-, hmerge⟩
    · cases hget.symm.trans hget'
    · have hsum := hmerge.freq
      rw [hread] at hsum
      rw [NodeTree.idx, hread, NodeTree.shape, weight_node, BitVec.ofNat_add, ← ihl hl hltl, ← ihr hr hltr]
      exact hsum

theorem indices_lt_nnode (h : TreeOf t a) : ∀ k ∈ a.indices, k < t.nnode.toNat := by
  obtain ⟨-, -, hnodes, -⟩ := h
  exact fun k hk => List.mem_range.mp (hnodes.mem_iff.mp hk)

theorem Built.weight_eq (h : Built s.leafRecords t) (htree : TreeOf t a) : s.weight a.shape = s.freqSum :=
  ((h.symbols_perm htree).map _).sum_eq.trans (sum_map_present s)

/-- Settles O28: the tree is that of the invariant; its leaf symbols are those of the records below NNODE, and the
frequency of its root is its weight. -/
theorem buildMakesATreeOfTheSymbols : Obligations.BuildMakesATreeOfTheSymbols := by
  intro s hs
  obtain ⟨t, tree, hexec, hbuilt, htree, hlut, hpc, heq⟩ := exec_build hs
  have hperm := hbuilt.symbols_perm htree
  obtain ⟨hstored, hroot, -, -⟩ := id htree
  refine ⟨t, tree, hexec, htree, hperm, hperm.nodup_iff.mpr (nodup_present s), ?_, ?_, hpc, hlut, heq⟩
  · rw [hbuilt.root, hbuilt.nleaf]
  · rw [← hroot, hbuilt.freq_eq_weight hstored (indices_lt_nnode htree), hbuilt.weight_eq htree]

/-! ### The order of the frequencies -/

/-- Where the counts below a tree add up without wrap, no merge of its nodes wraps (R15 b). -/
theorem Built.freq_add_of_lt (h : Built s.leafRecords t) (ha : a.stored t = true)
    (hlt : ∀ k ∈ a.indices, k < t.nnode.toNat) (hsum : s.weight a.shape < 2 ^ 32) {j : NodeIdx}
    (hj : j.toNat ∈ a.indices) (hmerge : MergesLeast t s.leafRecords.length j) :
    (t.nodeRead j).freq.toNat
      = (t.nodeRead (t.nodeRead j).left).freq.toNat + (t.nodeRead (t.nodeRead j).right).freq.toNat := by
  induction a with
  | leaf i sym =>
    obtain ⟨f, hget⟩ := stored_leaf_iff.mp ha
    obtain rfl : j = i := BitVec.eq_of_toNat_eq (by simpa [NodeTree.indices] using hj)
    have hleaf := hmerge.leaf
    rw [nodeRead_of_get? hget] at hleaf
    cases hleaf
  | node i l r ihl ihr =>
    obtain ⟨⟨f, hget⟩, hl, hr⟩ := stored_node_iff.mp ha
    simp only [NodeTree.indices, List.forall_mem_cons, List.forall_mem_append] at hlt
    obtain ⟨-, hltl, hltr⟩ := hlt
    rw [NodeTree.shape, weight_node] at hsum
    simp only [NodeTree.indices, List.mem_cons, List.mem_append] at hj
    rcases hj with hj | hj | hj
    · obtain rfl := BitVec.eq_of_toNat_eq hj
      rw [hmerge.freq, nodeRead_of_get? hget, h.freq_eq_weight hl hltl, h.freq_eq_weight hr hltr, ← BitVec.ofNat_add]
      simp only [BitVec.toNat_ofNat]
      omega
    · exact ihl hl hltl (by omega) hj
    · exact ihr hr hltr (by omega) hj

/-- A node created right after node `j` has no smaller frequency: each of its children was in PQ with a larger key than
the children of `j`, or is `j` itself (R146 c). -/
theorem MergesLeast.freq_le_next {l : Nat} {j k : NodeIdx} (hj : MergesLeast t l j) (hk : MergesLeast t l k)
    (hl : l ≤ j.toNat) (hjk : k.toNat = j.toNat + 1)
    (hsum : (t.nodeRead k).freq.toNat
      = (t.nodeRead (t.nodeRead k).left).freq.toNat + (t.nodeRead (t.nodeRead k).right).freq.toNat) :
    (t.nodeRead j).freq.toNat ≤ (t.nodeRead k).freq.toNat := by
  have hchild (i : NodeIdx) (hi : InQueue t l k.toNat i) :
      i = j ∨ (t.nodeRead (t.nodeRead j).right).freq.toNat ≤ (t.nodeRead i).freq.toNat := by
    by_cases hij : i = j
    · exact .inl hij
    · rw [hjk, inQueue_succ_iff rfl hl hij] at hi
      obtain ⟨hqueue, hleft, hright⟩ := hi
      exact .inr (freq_le_of_key_lt (hj.least i hqueue hleft.symm hright.symm))
  have hle := freq_le_of_key_lt hj.lt
  have hfreq := congrArg BitVec.toNat hj.freq
  rw [BitVec.toNat_add] at hfreq
  have hmod := Nat.mod_le ((t.nodeRead (t.nodeRead j).left).freq.toNat
    + (t.nodeRead (t.nodeRead j).right).freq.toNat) (2 ^ 32)
  rcases hchild _ hk.left with hleft | hleft
  · rw [hleft] at hsum
    omega
  · rcases hchild _ hk.right with hright | hright
    · rw [hright] at hsum
      omega
    · omega

/-- No merge of BUILD wraps where the counts add up without wrap (R15 b). -/
theorem Built.freq_add (h : Built s.leafRecords t) (htree : TreeOf t a) (hsum : s.freqSum < 2 ^ 32) {j : NodeIdx}
    (hj : j.toNat < t.nnode.toNat) (hmerge : MergesLeast t s.leafRecords.length j) :
    (t.nodeRead j).freq.toNat
      = (t.nodeRead (t.nodeRead j).left).freq.toNat + (t.nodeRead (t.nodeRead j).right).freq.toNat := by
  have hlt := indices_lt_nnode htree
  rw [← h.weight_eq htree] at hsum
  obtain ⟨hstored, -, hnodes, -⟩ := htree
  exact h.freq_add_of_lt hstored hlt hsum (hnodes.mem_iff.mpr (List.mem_range.mpr hj)) hmerge

theorem Built.freq_mono (h : Built s.leafRecords t) (htree : TreeOf t a) (hsum : s.freqSum < 2 ^ 32) {i : NodeIdx}
    (hi : s.leafRecords.length ≤ i.toNat) (d : Nat) {j : NodeIdx} (hij : j.toNat = i.toNat + d)
    (hj : j.toNat < t.nnode.toNat) : (t.nodeRead i).freq.toNat ≤ (t.nodeRead j).freq.toNat := by
  induction d generalizing j with
  | zero => rw [BitVec.eq_of_toNat_eq hij]
  | succ d ih =>
    have hk : (BitVec.ofNat 9 (i.toNat + d)).toNat = i.toNat + d := toNat_index_of_lt (n := t.nnode) (by omega)
    have hmerge := h.merged j (by omega) hj
    exact (ih hk (by omega)).trans ((h.merged _ (by omega) (by omega)).freq_le_next hmerge (by omega) (by omega)
      (h.freq_add htree hsum hj hmerge))

theorem freqOf_eq_zero_of_present_nil (h : present s = []) (sym : Byte) : s.freqOf sym = 0 := by
  simpa using List.filter_eq_nil_iff.mp h sym (mem_allSymbols sym)

/-- Settles O29: without error there is a tree, in which no merge wraps; then each node has no smaller frequency than the
one before it. -/
theorem buildFrequenciesDoNotDecrease : Obligations.BuildFrequenciesDoNotDecrease := by
  intro s t hsum hexec herr i j hi hij hj
  have hs : present s ≠ [] := fun hnone => by
    simp [(buildOfNothingIsEmptyInput s (freqOf_eq_zero_of_present_nil hnone)).err hexec] at herr
  obtain ⟨t', tree, hexec', hbuilt, htree, -⟩ := exec_build hs
  obtain rfl : t' = t := Host.Outcome.next.inj (hexec'.symm.trans hexec)
  exact hbuilt.freq_mono htree hsum (hbuilt.nleaf ▸ hi) (j.toNat - i.toNat) (by omega) hj

end Sys2Proof.Machine
end

section
/-! SUPPORT. The codes of a tree (42_code_table.md R161, R163, R164) and the outcome of GENCODES: the code of a symbol is
that of a leaf that carries it, and its length is within what a record of LUT holds (R31). -/

namespace Sys2Proof.Machine

variable {s t : State} {a : Shape} {sym : Byte} {c : BitString}

/-! ### The codes of a tree -/

/-- A full binary tree has one internal node less than leaves (R30 b). -/
theorem numNodes_add_one (a : Shape) : a.numNodes + 1 = 2 * a.numLeaves := by
  induction a with
  | leaf _ => rfl
  | node l r ihl ihr => simp only [Shape.numNodes, Shape.numLeaves]; omega

theorem numLeaves_pos (a : Shape) : 0 < a.numLeaves := by
  have := numNodes_add_one a
  omega

/-- A tree in NODE has at most 256 leaves (R28). -/
theorem numLeaves_le_of_treeOf {b : NodeTree} (h : TreeOf s b) : b.shape.numLeaves ≤ 256 := by
  have hcap := numNodes_le_nodeCap h
  have hnodes := numNodes_add_one b.shape
  simp only [nodeCap] at hcap
  omega

theorem map_fst_paths (a : Shape) (p : BitString) : (a.paths p).map Prod.fst = a.symbols := by
  induction a generalizing p with
  | leaf _ => rfl
  | node l r ihl ihr => simp only [Shape.paths, Shape.symbols, List.map_append, ihl, ihr]

theorem map_fst_codes (a : Shape) : a.codes.map Prod.fst = a.symbols := by
  cases a with
  | leaf _ => rfl
  | node l r => exact map_fst_paths _ []

/-- The path to a leaf prolongs the path to the root of its tree (R161). -/
theorem prefix_of_mem_paths {p : BitString} (h : (sym, c) ∈ a.paths p) : p <+: c := by
  induction a generalizing p with
  | leaf _ =>
    obtain ⟨-, rfl⟩ : sym = _ ∧ c = p := by simpa [Shape.paths] using h
    exact List.prefix_rfl
  | node l r ihl ihr =>
    rcases List.mem_append.mp h with h | h
    · exact (List.prefix_append _ _).trans (ihl h)
    · exact (List.prefix_append _ _).trans (ihr h)

/-- A path has fewer steps than its tree has leaves. -/
theorem length_lt_of_mem_paths {p : BitString} (h : (sym, c) ∈ a.paths p) : c.length < p.length + a.numLeaves := by
  induction a generalizing p with
  | leaf _ =>
    obtain ⟨-, rfl⟩ : sym = _ ∧ c = p := by simpa [Shape.paths] using h
    exact Nat.lt_succ_self _
  | node l r ihl ihr =>
    have hl := numLeaves_pos l
    have hr := numLeaves_pos r
    simp only [Shape.numLeaves]
    rcases List.mem_append.mp h with h | h
    · have := ihl h
      simp only [List.length_append, List.length_singleton] at this
      omega
    · have := ihr h
      simp only [List.length_append, List.length_singleton] at this
      omega

/-- The codes of a tree that NODE can hold have 1 to 255 bits (R31, R161, R163). -/
theorem length_of_mem_codes (hle : a.numLeaves ≤ 256) (h : (sym, c) ∈ a.codes) : 1 ≤ c.length ∧ c.length ≤ 255 := by
  cases a with
  | leaf _ =>
    obtain ⟨-, rfl⟩ : sym = _ ∧ c = [false] := by simpa [Shape.codes] using h
    decide
  | node l r =>
    have hlt := length_lt_of_mem_paths (p := []) h
    have hpos : 1 ≤ c.length := by
      rcases List.mem_append.mp h with h | h <;> exact (prefix_of_mem_paths h).length_le
    simp only [List.length_nil] at hlt
    omega

theorem mem_codes_of_codeOf (h : a.codeOf sym = some c) : (sym, c) ∈ a.codes := by
  obtain ⟨⟨x, d⟩, hfind, rfl⟩ := Option.map_eq_some_iff.mp h
  obtain rfl : x = sym := by simpa using List.find?_some hfind
  exact List.mem_reverse.mp (List.mem_of_find?_eq_some hfind)

theorem codeOf_eq_none_iff : a.codeOf sym = none ↔ sym ∉ a.symbols := by
  rw [← map_fst_codes, Shape.codeOf, Option.map_eq_none_iff, List.find?_eq_none]
  simp only [List.mem_reverse, beq_iff_eq, List.mem_map, not_exists, not_and]

theorem exists_codeOf_iff : (∃ c, a.codeOf sym = some c) ↔ sym ∈ a.symbols := by
  rw [← Option.ne_none_iff_exists', ne_eq, codeOf_eq_none_iff, not_not]

theorem lutEntry_of_codeOf_none (h : a.codeOf sym = none) : a.lutEntry sym = { len := 0, code := 0 } := by
  simp only [Shape.lutEntry, h]

@[simp] theorem length_codeBits (e : LutEntry) : (codeBits e).length = e.len.toNat := by
  simp [codeBits]

/-- The record of a symbol holds its code (R31). -/
theorem codeBits_lutEntry (hle : a.numLeaves ≤ 256) (h : a.codeOf sym = some c) : codeBits (a.lutEntry sym) = c := by
  simp only [Shape.lutEntry, h]
  exact codeBits_lutEntryOf (length_of_mem_codes hle (mem_codes_of_codeOf h)).2

/-! ### The outcome of GENCODES -/

/-- GENCODES with a tree in NODE completes with the code table of the tree, and changes nothing but LUT, LUT_VALID and
STATUS (R160). -/
theorem exec_gencodes {b : NodeTree} (hvalid : s.treeValid = true) (htree : TreeOf s b) :
    ∃ t, exec .gencodes s = .next t ∧ TableOf t b.shape ∧ t.seq.pc = .idle
      ∧ t = asSucceeded t.seq { s with lut := t.lut, lutValid := true } := by
  obtain ⟨l, q, hbody, -, -, htable⟩ :=
    gencodesBody_of_tree (s := s.commandStart.setPhase .gen) (treeOf_congr htree)
  simp only [exec, execGencodes]
  exact ⟨_, command_of_ok ((if_pos hvalid).trans hbody), htable, rfl, rfl⟩

/-- Settles O31: the records are those of the tree's codes, each of which is the path of a leaf. -/
theorem gencodesTabulatesTheTree : Obligations.GencodesTabulatesTheTree := by
  intro s tree hvalid htree
  have hle := numLeaves_le_of_treeOf htree
  obtain ⟨t, hexec, htable, hpc, heq⟩ := exec_gencodes hvalid htree
  refine ⟨t, hexec, hpc, heq, fun sym => ⟨htable sym, lutEntry_of_codeOf_none, fun c hc => ?_⟩⟩
  obtain ⟨hpos, hmax⟩ := length_of_mem_codes hle (mem_codes_of_codeOf hc)
  exact ⟨hpos, hmax, codeBits_lutEntry hle hc⟩

end Sys2Proof.Machine
end

section
/-! SUPPORT. The codes of a tree with distinct leaf symbols (42_code_table.md R162): none begins another, they are
complete, and after COUNT, BUILD and GENCODES they are the codes of exactly the counted symbols. -/

namespace Sys2Proof.Machine

variable {s t u : State} {a : Shape} {x y sym : Byte} {c d : BitString}

/-! ### No code begins another -/

/-- Two bit-strings that part at a bit do not begin one and the same bit-string. -/
theorem not_prefix_of_parting {p : BitString} (hc : p ++ [false] <+: c) : ¬ p ++ [true] <+: c := by
  intro hd
  have h : p ++ [false] <+: p ++ [true] := List.prefix_of_prefix_length_le hc hd (by simp)
  simp at h

/-- No path to a leaf begins the path to a leaf with another symbol: where two paths part, they differ in a bit. -/
theorem eq_of_prefix_of_mem_paths {p : BitString} (hx : (x, c) ∈ a.paths p) (hy : (y, d) ∈ a.paths p) (h : c <+: d) :
    x = y := by
  induction a generalizing p with
  | leaf _ =>
    obtain ⟨rfl, -⟩ : x = _ ∧ c = p := by simpa [Shape.paths] using hx
    obtain ⟨rfl, -⟩ : y = _ ∧ d = p := by simpa [Shape.paths] using hy
    rfl
  | node l r ihl ihr =>
    rcases List.mem_append.mp hx with hx | hx <;> rcases List.mem_append.mp hy with hy | hy
    · exact ihl hx hy
    · exact absurd (prefix_of_mem_paths hy) (not_prefix_of_parting ((prefix_of_mem_paths hx).trans h))
    · exact absurd ((prefix_of_mem_paths hx).trans h) (not_prefix_of_parting (prefix_of_mem_paths hy))
    · exact ihr hx hy

theorem eq_of_prefix_of_mem_codes (hx : (x, c) ∈ a.codes) (hy : (y, d) ∈ a.codes) (h : c <+: d) : x = y := by
  cases a with
  | leaf _ =>
    obtain ⟨rfl, -⟩ : x = _ ∧ c = [false] := by simpa [Shape.codes] using hx
    obtain ⟨rfl, -⟩ : y = _ ∧ d = [false] := by simpa [Shape.codes] using hy
    rfl
  | node l r => exact eq_of_prefix_of_mem_paths hx hy h

/-! ### The Kraft equality -/

/-- The leaves below a path share the weight of that path among them: each step down halves it. -/
theorem sum_paths_weight (a : Shape) {p : BitString} {n : Nat} (h : p.length + a.numLeaves ≤ n + 1) :
    ((a.paths p).map fun c => 2 ^ (n - c.2.length)).sum = 2 ^ (n - p.length) := by
  induction a generalizing p with
  | leaf _ => exact Nat.add_zero _
  | node l r ihl ihr =>
    have hl := numLeaves_pos l
    have hr := numLeaves_pos r
    simp only [Shape.numLeaves] at h
    have hstep : n - p.length = n - (p.length + 1) + 1 := by omega
    simp only [Shape.paths, List.map_append, List.sum_append]
    rw [ihl (by simp; omega), ihr (by simp; omega), hstep, pow_succ, mul_two]
    simp only [List.length_append, List.length_singleton]

/-- With two leaves or more the lengths of the codes satisfy the Kraft equality. -/
theorem sum_codes_weight {n : Nat} (htwo : 2 ≤ a.numLeaves) (hle : a.numLeaves ≤ n) :
    (a.codes.map fun c => 2 ^ (n - c.2.length)).sum = 2 ^ n := by
  cases a with
  | leaf _ => exact absurd htwo (Nat.not_succ_le_self 1)
  | node l r => exact sum_paths_weight _ (by simpa using Nat.le_succ_of_le hle)

/-- Where the leaf symbols are distinct every leaf gives the code of its symbol. -/
theorem codeOf_of_mem_codes (hnodup : a.symbols.Nodup) (h : (sym, c) ∈ a.codes) : a.codeOf sym = some c := by
  have hsyms := map_fst_codes a
  obtain ⟨d, hd⟩ := exists_codeOf_iff.mpr (hsyms ▸ List.mem_map_of_mem (f := Prod.fst) h)
  rw [← hsyms] at hnodup
  obtain rfl : d = c := congrArg Prod.snd (List.inj_on_of_nodup_map hnodup (mem_codes_of_codeOf hd) h rfl)
  exact hd

/-! ### The records of a tree with distinct leaf symbols -/

theorem len_lutEntry (hle : a.numLeaves ≤ 256) (h : a.codeOf sym = some c) : (a.lutEntry sym).len.toNat = c.length := by
  rw [← length_codeBits, codeBits_lutEntry hle h]

/-- A record has a code exactly where its symbol stands on a leaf (R160). -/
theorem len_lutEntry_ne_zero_iff (hle : a.numLeaves ≤ 256) : (a.lutEntry sym).len ≠ 0 ↔ sym ∈ a.symbols := by
  rw [← exists_codeOf_iff]
  cases hc : a.codeOf sym with
  | none => simp [lutEntry_of_codeOf_none hc]
  | some c =>
    have hpos := (length_of_mem_codes hle (mem_codes_of_codeOf hc)).1
    rw [← len_lutEntry hle hc] at hpos
    have hne : (a.lutEntry sym).len ≠ 0 := fun h => by simp [h] at hpos
    simpa using hne

theorem not_prefix_lutEntry (hle : a.numLeaves ≤ 256) (hxy : x ≠ y) (hx : x ∈ a.symbols) (hy : y ∈ a.symbols) :
    ¬ codeBits (a.lutEntry x) <+: codeBits (a.lutEntry y) := by
  obtain ⟨c, hc⟩ := exists_codeOf_iff.mpr hx
  obtain ⟨d, hd⟩ := exists_codeOf_iff.mpr hy
  rw [codeBits_lutEntry hle hc, codeBits_lutEntry hle hd]
  exact fun h => hxy (eq_of_prefix_of_mem_codes (mem_codes_of_codeOf hc) (mem_codes_of_codeOf hd) h)

theorem sum_lutEntry_weight (hle : a.numLeaves ≤ 256) (htwo : 2 ≤ a.numLeaves) (hnodup : a.symbols.Nodup) :
    (a.symbols.map fun sym => 2 ^ (256 - (a.lutEntry sym).len.toNat)).sum = 2 ^ 256 := by
  rw [← sum_codes_weight htwo hle, ← map_fst_codes, List.map_map]
  refine congrArg List.sum (List.map_congr_left fun c hc => ?_)
  rw [Function.comp_apply, len_lutEntry hle (codeOf_of_mem_codes hnodup hc)]

/-! ### COUNT, BUILD and GENCODES -/

@[simp] theorem mem_present : sym ∈ present s ↔ s.freqOf sym ≠ 0 := by
  simp [present, mem_allSymbols]

/-- After COUNT some symbol is present (R131). -/
theorem present_ne_nil_of_count (h : exec .count s = .next t) (ht : t.err = false) : present t ≠ [] := by
  obtain ⟨-, -, -, ⟨sym, hsym⟩, -⟩ := countResultLaw s t h ht
  exact List.ne_nil_of_mem (mem_present.mpr hsym)

/-- Settles O32: BUILD makes a tree whose leaf symbols are the counted ones, each once, and GENCODES the records of its
codes. -/
theorem countedSymbolsGetPrefixFreeCodes : Obligations.CountedSymbolsGetPrefixFreeCodes := by
  intro s hne hcap
  obtain ⟨t, hcount, hpct, -, -, hteq, -⟩ := countCompletes s hne hcap
  obtain ⟨-, -, hterr, -⟩ := succeeded_of_asSucceeded hpct hteq
  obtain ⟨u, tree, hbuild, htree, hperm, hnodup, -, -, -, -, hueq⟩ :=
    buildMakesATreeOfTheSymbols t (present_ne_nil_of_count hcount hterr)
  have hvalid : u.treeValid = true := by rw [hueq]; rfl
  obtain ⟨v, hgen, htable, hpcv, hveq⟩ := exec_gencodes hvalid htree
  have hle := numLeaves_le_of_treeOf htree
  have hread (sym : Byte) : v.lutRead sym = tree.shape.lutEntry sym := Store.read_of_get? _ (htable sym)
  have hmem (sym : Byte) : sym ∈ tree.shape.symbols ↔ t.freqOf sym ≠ 0 := hperm.mem_iff.trans mem_present
  have hleaves : v.nleaf.toNat = tree.shape.numLeaves := by
    obtain ⟨-, -, -, hleaves⟩ := htree
    rw [hveq]
    exact hleaves.symm
  refine ⟨t, u, v, hcount, hbuild, hgen, succeeded_of_asSucceeded hpcv hveq, fun sym => ?_, fun x y hxy hx hy => ?_,
    fun htwo => ?_⟩
  · rw [hread, len_lutEntry_ne_zero_iff hle, hmem]
  · rw [hread, hread]
    exact not_prefix_lutEntry hle hxy ((hmem x).mpr hx) ((hmem y).mpr hy)
  · simp only [hread]
    rw [← sum_lutEntry_weight hle (hleaves ▸ htwo) hnodup]
    exact (hperm.symm.map _).sum_eq

end Sys2Proof.Machine
end

section
/-! SUPPORT. The tree codec forth and back (43_tree_codec.md R165, R175 to R181): the parse of the bytes of a tree ends
with that tree, numbered in preorder, in NODE; so SERIALIZE and DESERIALIZE keep shape, symbols, bytes and codes. -/

namespace Sys2Proof.Machine

variable {s t u : State} {a : Shape}

/-! ### One call of Parse -/

/-- The parse after a call of `Parse` (R175): it ends where STK is empty. -/
def parseRest (stop k : Nat) (s : State) : Run := if s.seq.stk = [] then .ok s else parseLoop stop k s

theorem parseLoop_succ (stop k : Nat) (s : State) :
    parseLoop stop (k + 1) s = (parseNode stop s).bind (parseRest stop k) := rfl

theorem parseRest_of_open {stop k : Nat} (h : s.seq.stk ≠ []) : parseRest stop k s = parseLoop stop k s := if_neg h

theorem parseRest_of_ended {stop k : Nat} (h : s.seq.stk = []) : parseRest stop k s = .ok s := if_pos h

/-- The state in which `Parse` has taken the flag byte and the next preorder number (R175, R179). -/
def State.flagTaken (s : State) : State := { s with seq := { s.seq with ipos := s.seq.ipos + 1, n := s.seq.n + 1 } }

/-- The state in which `Parse` has written the record of a leaf (R175). -/
def State.leafParsed (s : State) (sym : Byte) : State :=
  { s with
    node := s.node.write (BitVec.ofNat 9 s.seq.n).toNat { leaf := true, sym := sym, freq := 0, left := 0, right := 0 }
    seq := { s.seq with ipos := s.seq.ipos + 2, n := s.seq.n + 1, leaves := s.seq.leaves + 1 } }

/-- The state in which the left subtree of an internal node is to be parsed (R175). -/
def State.nodeEntered (s : State) : State :=
  s.flagTaken.setStk ({ idx := BitVec.ofNat 9 s.seq.n, path := [], left := none } :: s.seq.stk)

theorem parseNode_internal {stop : Nat} (hflags : s.params.flagInternal ≠ s.params.flagLeaf)
    (hflag : s.memRead .ibuf s.seq.ipos = s.params.flagInternal) (hstop : s.seq.ipos < stop) (hn : s.seq.n < nodeCap) :
    parseNode stop s = .ok s.nodeEntered := by
  have hcap : ¬ nodeCap ≤ s.advance.seq.n := Nat.not_le.mpr hn
  simp only [parseNode, if_neg (Nat.not_le.mpr hstop), hflag, if_neg (not_and_of_not_right _ (not_not_intro rfl)),
    if_neg hcap, if_neg hflags]
  rfl

theorem parseNode_leaf {stop : Nat} (hflag : s.memRead .ibuf s.seq.ipos = s.params.flagLeaf)
    (hstop : s.seq.ipos + 1 < stop) (hn : s.seq.n < nodeCap) :
    parseNode stop s = .ok (closeNode (BitVec.ofNat 9 s.seq.n) s.seq.stk
      (s.leafParsed (s.memRead .ibuf (s.seq.ipos + 1)))) := by
  have hcap : ¬ nodeCap ≤ s.advance.seq.n := Nat.not_le.mpr hn
  have hsym : ¬ stop ≤ s.flagTaken.seq.ipos := Nat.not_le.mpr hstop
  simp only [parseNode, if_neg (Nat.not_le.mpr (Nat.lt_of_succ_lt hstop)), hflag,
    if_neg (not_and_of_not_left _ (not_not_intro rfl)), if_neg hcap, if_true]
  exact if_neg hsym

/-! ### The parse of a subtree -/

/-- The bytes of the tree `a` (R94) stand in IBUF from IPOS on, before `stop`, and NODE has room for its nodes. -/
structure Pending (stop : Nat) (a : Shape) (s : State) : Prop where
  flags : s.params.flagInternal ≠ s.params.flagLeaf
  bytes : s.bytes .ibuf s.seq.ipos (a.serial s.params.flagInternal s.params.flagLeaf).length
    = a.serial s.params.flagInternal s.params.flagLeaf
  stop : s.seq.ipos + (a.serial s.params.flagInternal s.params.flagLeaf).length ≤ stop
  room : s.seq.n + a.numNodes ≤ nodeCap

/-- From `s` to `t` the bytes of the tree `a` have been parsed, but for the return of its root to the open nodes on STK:
it stands in NODE, numbered in preorder from the next number on (R179), behind the records there were. -/
structure ParsedSubtree (a : Shape) (s t : State) : Prop where
  frame : OnlyNode s t
  ipos : t.seq.ipos = s.seq.ipos + (a.serial s.params.flagInternal s.params.flagLeaf).length
  n : t.seq.n = s.seq.n + a.numNodes
  leaves : t.seq.leaves = s.seq.leaves + a.numLeaves
  stored : (a.numbered s.seq.n).stored t = true
  before : ∀ i < s.seq.n, t.node.get? i = s.node.get? i

theorem OnlyNode.params_eq (h : OnlyNode s t) : t.params = s.params := by
  obtain ⟨_, _, rfl⟩ := h
  rfl

theorem OnlyNode.bytes_eq (h : OnlyNode s t) (sp : Space) (i n : Nat) : t.bytes sp i n = s.bytes sp i n := by
  obtain ⟨_, _, rfl⟩ := h
  rfl

theorem get?_nodeWrite_self {n : Nat} (hn : n < nodeCap) (s : State) (r : NodeRec) :
    (s.nodeWrite (BitVec.ofNat 9 n) r).node.get? n = some r := by
  rw [State.nodeWrite_node, toNat_nodeNumber hn, Store.get?_write_self]

theorem get?_nodeWrite_other {n i : Nat} (hn : n < nodeCap) (hi : i ≠ n) (s : State) (r : NodeRec) :
    (s.nodeWrite (BitVec.ofNat 9 n) r).node.get? i = s.node.get? i := by
  rw [State.nodeWrite_node, toNat_nodeNumber hn, Store.get?_write_other _ hi]

theorem leafParsed_node (s : State) (sym : Byte) :
    (s.leafParsed sym).node = (s.nodeWrite (BitVec.ofNat 9 s.seq.n)
      { leaf := true, sym := sym, freq := 0, left := 0, right := 0 }).node := rfl

theorem parsedSubtree_leafParsed (hn : s.seq.n < nodeCap) (sym : Byte) :
    ParsedSubtree (.leaf sym) s (s.leafParsed sym) where
  frame := ⟨_, _, rfl⟩
  ipos := rfl
  n := rfl
  leaves := rfl
  stored := by
    refine stored_leaf_iff.mpr ⟨0, ?_⟩
    rw [leafParsed_node, toNat_nodeNumber hn, get?_nodeWrite_self hn]
  before i hi := by rw [leafParsed_node, get?_nodeWrite_other hn hi.ne]

/-- The record of an internal node is written once both its subtrees are parsed (R175). -/
def State.nodeClosed (s : State) (n m : Nat) : State :=
  s.nodeWrite (BitVec.ofNat 9 n)
    { leaf := false, sym := 0, freq := 0, left := BitVec.ofNat 9 (n + 1), right := BitVec.ofNat 9 m }

variable {l r : Shape} {stop : Nat} {fs : List Frame}

/-- Both subtrees still stand in NODE when their parent's record is written, with the numbers that it links to. -/
theorem stored_nodeClosed (hroom : s.seq.n + (Shape.node l r).numNodes ≤ nodeCap)
    (hl : ParsedSubtree l s.nodeEntered t) (hr : ParsedSubtree r (t.setStk fs) u) :
    ((Shape.node l r).numbered s.seq.n).stored (u.nodeClosed s.seq.n t.seq.n) = true := by
  simp only [Shape.numNodes] at hroom
  have hn : t.seq.n = s.seq.n + 1 + l.numNodes := hl.n
  have hlt : s.seq.n < nodeCap := by omega
  have hother {i : Nat} (hi : i ≠ s.seq.n) : (u.nodeClosed s.seq.n t.seq.n).node.get? i = u.node.get? i :=
    get?_nodeWrite_other hlt hi _ _
  refine stored_node_iff.mpr ⟨⟨0, ?_⟩, ?_, ?_⟩
  · rw [toNat_nodeNumber hlt, numbered_idx, numbered_idx, ← hn]
    exact get?_nodeWrite_self hlt _ _
  · refine (stored_congr fun i hi => ?_).trans hl.stored
    rw [numbered_indices l (by omega), List.mem_range'_1] at hi
    rw [hother (by omega)]
    exact hr.before i (show i < t.seq.n by omega)
  · rw [← hn]
    exact stored_numbered_congr (by omega) hr.stored fun i hi => hother (by omega)

theorem parsedSubtree_nodeClosed (hroom : s.seq.n + (Shape.node l r).numNodes ≤ nodeCap)
    (hl : ParsedSubtree l s.nodeEntered t) (hr : ParsedSubtree r (t.setStk fs) u) :
    ParsedSubtree (.node l r) s (u.nodeClosed s.seq.n t.seq.n) where
  frame := (OnlyNode.trans ⟨_, _, rfl⟩ (hl.frame.trans (OnlyNode.trans ⟨_, _, rfl⟩ hr.frame))).trans ⟨_, _, rfl⟩
  ipos := by
    have hparams : t.params = s.params := hl.frame.params_eq
    have hposl : t.seq.ipos = s.seq.ipos + 1 + (l.serial s.params.flagInternal s.params.flagLeaf).length := hl.ipos
    have hposr : u.seq.ipos = t.seq.ipos + (r.serial t.params.flagInternal t.params.flagLeaf).length := hr.ipos
    rw [hparams] at hposr
    simp only [State.nodeClosed, State.nodeWrite_seq, Shape.serial, List.length_cons, List.length_append]
    omega
  n := by
    have hnl : t.seq.n = s.seq.n + 1 + l.numNodes := hl.n
    have hnr : u.seq.n = t.seq.n + r.numNodes := hr.n
    simp only [State.nodeClosed, State.nodeWrite_seq, Shape.numNodes]
    omega
  leaves := by
    have hkl : t.seq.leaves = s.seq.leaves + l.numLeaves := hl.leaves
    have hkr : u.seq.leaves = t.seq.leaves + r.numLeaves := hr.leaves
    simp only [State.nodeClosed, State.nodeWrite_seq, Shape.numLeaves]
    omega
  stored := stored_nodeClosed hroom hl hr
  before i hi := by
    have hn : t.seq.n = s.seq.n + 1 + l.numNodes := hl.n
    calc (u.nodeClosed s.seq.n t.seq.n).node.get? i = u.node.get? i :=
          get?_nodeWrite_other (Nat.lt_of_lt_of_le (Nat.lt_add_of_pos_right (numNodes_pos _)) hroom) hi.ne _ _
      _ = t.node.get? i := hr.before i (show i < t.seq.n by omega)
      _ = s.node.get? i := hl.before i (Nat.lt_succ_of_lt hi)

/-- The bytes of an internal node are its flag and those of its subtrees (R94). -/
theorem Pending.bytes_node (h : Pending stop (.node l r) s) :
    s.memRead .ibuf s.seq.ipos = s.params.flagInternal
      ∧ s.bytes .ibuf (s.seq.ipos + 1) (l.serial s.params.flagInternal s.params.flagLeaf).length
        = l.serial s.params.flagInternal s.params.flagLeaf
      ∧ s.bytes .ibuf (s.seq.ipos + 1 + (l.serial s.params.flagInternal s.params.flagLeaf).length)
          (r.serial s.params.flagInternal s.params.flagLeaf).length
        = r.serial s.params.flagInternal s.params.flagLeaf := by
  have hbytes := h.bytes
  rw [Shape.serial, List.length_cons, List.length_append, bytes_succ, bytes_add] at hbytes
  obtain ⟨hflag, hrest⟩ := List.cons.inj hbytes
  exact ⟨hflag, List.append_inj hrest (length_bytes _ _ _ _)⟩

theorem Pending.parseNode_node (h : Pending stop (.node l r) s) : parseNode stop s = .ok s.nodeEntered := by
  obtain ⟨hflag, -⟩ := h.bytes_node
  exact parseNode_internal h.flags hflag ((Nat.lt_add_of_pos_right (Nat.succ_pos _)).trans_le h.stop)
    ((Nat.lt_add_of_pos_right (Nat.succ_pos _)).trans_le h.room)

theorem Pending.left (h : Pending stop (.node l r) s) : Pending stop l s.nodeEntered := by
  obtain ⟨-, hbytes, -⟩ := h.bytes_node
  obtain ⟨hflags, -, hstop, hroom⟩ := h
  simp only [Shape.serial, List.length_cons, List.length_append] at hstop
  simp only [Shape.numNodes] at hroom
  refine ⟨hflags, hbytes, ?_, ?_⟩
  · change s.seq.ipos + 1 + (l.serial s.params.flagInternal s.params.flagLeaf).length ≤ stop
    omega
  · change s.seq.n + 1 + l.numNodes ≤ nodeCap
    omega

theorem Pending.right (h : Pending stop (.node l r) s) (ht : ParsedSubtree l s.nodeEntered t) (fs : List Frame) :
    Pending stop r (t.setStk fs) := by
  obtain ⟨-, -, hbytes⟩ := h.bytes_node
  obtain ⟨hflags, -, hstop, hroom⟩ := h
  simp only [Shape.serial, List.length_cons, List.length_append] at hstop
  simp only [Shape.numNodes] at hroom
  have hn : t.seq.n = s.seq.n + 1 + l.numNodes := ht.n
  have hipos : t.seq.ipos = s.seq.ipos + 1 + (l.serial s.params.flagInternal s.params.flagLeaf).length := ht.ipos
  have hparams : t.params = s.params := ht.frame.params_eq
  have hspace (i n : Nat) : t.bytes .ibuf i n = s.bytes .ibuf i n := ht.frame.bytes_eq .ibuf i n
  rw [← hipos, ← hspace] at hbytes
  rw [← hparams] at hflags hbytes hstop hipos
  refine ⟨hflags, hbytes, ?_, ?_⟩
  · change t.seq.ipos + (r.serial t.params.flagInternal t.params.flagLeaf).length ≤ stop
    omega
  · change t.seq.n + r.numNodes ≤ nodeCap
    omega

theorem Pending.parseNode_leaf {sym : Byte} (h : Pending stop (.leaf sym) s) :
    parseNode stop s = .ok (closeNode (BitVec.ofNat 9 s.seq.n) s.seq.stk (s.leafParsed sym)) := by
  obtain ⟨-, hbytes, hstop, hroom⟩ := h
  rw [Shape.serial, List.length_cons, List.length_singleton, bytes_succ, bytes_succ] at hbytes
  obtain ⟨hflag, hrest⟩ := List.cons.inj hbytes
  obtain ⟨hsym, -⟩ := List.cons.inj hrest
  rw [Machine.parseNode_leaf hflag hstop hroom, hsym]

/-- The calls of `Parse` for the bytes of a tree, as many as it has nodes, put the tree in NODE and return it to the open
nodes (R175). -/
theorem parseLoop_of_pending (k : Nat) (h : Pending stop a s) :
    ∃ t, ParsedSubtree a s t
      ∧ parseLoop stop (a.numNodes + k) s = parseRest stop k (closeNode (BitVec.ofNat 9 s.seq.n) s.seq.stk t) := by
  induction a generalizing s k with
  | leaf sym =>
    refine ⟨s.leafParsed sym, parsedSubtree_leafParsed h.room sym, ?_⟩
    rw [Shape.numNodes, Nat.add_comm, parseLoop_succ, h.parseNode_leaf, Run.bind_ok]
  | node l r ihl ihr =>
    obtain ⟨t, htl, hloopl⟩ := ihl (r.numNodes + k) h.left
    obtain ⟨u, htr, hloopr⟩ := ihr k (h.right htl
      ({ idx := BitVec.ofNat 9 s.seq.n, path := [], left := some (BitVec.ofNat 9 (s.seq.n + 1)) } :: s.seq.stk))
    refine ⟨_, parsedSubtree_nodeClosed h.room htl htr, ?_⟩
    have hsize : (Shape.node l r).numNodes + k = (l.numNodes + (r.numNodes + k)) + 1 := by
      simp only [Shape.numNodes]
      omega
    calc parseLoop stop ((Shape.node l r).numNodes + k) s
        = parseRest stop (l.numNodes + (r.numNodes + k)) s.nodeEntered := by
          rw [hsize, parseLoop_succ, h.parseNode_node, Run.bind_ok]
      _ = parseLoop stop (l.numNodes + (r.numNodes + k)) s.nodeEntered := parseRest_of_open (List.cons_ne_nil _ _)
      _ = parseRest stop (r.numNodes + k) (t.setStk _) := hloopl
      _ = parseLoop stop (r.numNodes + k) (t.setStk _) := parseRest_of_open (List.cons_ne_nil _ _)
      _ = _ := hloopr

/-! ### DESERIALIZE of the bytes of a tree -/

/-- The state in which the parse of a range starts (R175). -/
def State.parseStart (s : State) (start : Nat) : State :=
  { s with seq := { s.seq with n := 0, leaves := 0, ipos := start, stk := [] } }

/-- The root's subtree finds STK empty, which ends the parse (R175). -/
theorem parseLoop_parseStart {start k : Nat} (h : Pending stop a (s.parseStart start)) (hk : a.numNodes ≤ k) :
    ∃ t, parseLoop stop k (s.parseStart start) = .ok (t.setStk []) ∧ OnlyNode s t
      ∧ t.seq.ipos = start + (a.serial s.params.flagInternal s.params.flagLeaf).length ∧ t.seq.n = a.numNodes
      ∧ t.seq.leaves = a.numLeaves ∧ (a.numbered 0).stored t = true := by
  obtain ⟨d, rfl⟩ := Nat.exists_eq_add_of_le hk
  obtain ⟨t, ht, hloop⟩ := parseLoop_of_pending d h
  exact ⟨t, hloop.trans (parseRest_of_ended rfl), OnlyNode.trans ⟨_, _, rfl⟩ ht.frame, ht.ipos,
    ht.n.trans (Nat.zero_add _), ht.leaves.trans (Nat.zero_add _), ht.stored⟩

/-- A parse that has taken all its bytes leaves the tree registers of its tree (R175, R176). -/
theorem deserializeRange_of_parsed {start n k : Nat}
    (hloop : parseLoop stop (stop - start) (s.parseStart start) = .ok t) (hipos : t.seq.ipos = stop)
    (hn : t.seq.n = n) (hk : t.seq.leaves = k) :
    deserializeRange start stop s
      = .ok { t with root := 0, nnode := BitVec.ofNat 9 n, nleaf := BitVec.ofNat 9 k, treeValid := true } := by
  rw [deserializeRange, ← State.parseStart, hloop, Run.bind_ok, if_neg (not_not_intro hipos), hn, hk]

/-- The bytes of a tree that NODE can hold are parsed to their end, and NODE then holds the tree in preorder; but for NODE
and its registers nothing changes (R175, R176, R179). -/
theorem deserializeRange_of_serial {start : Nat} (hstop : stop
      = start + (a.serial s.params.flagInternal s.params.flagLeaf).length)
    (hflags : s.params.flagInternal ≠ s.params.flagLeaf) (hcap : a.numNodes ≤ nodeCap)
    (hbytes : s.bytes .ibuf start (a.serial s.params.flagInternal s.params.flagLeaf).length
      = a.serial s.params.flagInternal s.params.flagLeaf) :
    ∃ u, deserializeRange start stop s = .ok u ∧ TreeOf u (a.numbered 0)
      ∧ u = { s with
          node := u.node, root := 0, nnode := BitVec.ofNat 9 a.numNodes, nleaf := BitVec.ofNat 9 a.numLeaves,
          treeValid := true, seq := u.seq } := by
  have hlen := length_serial s.params.flagInternal s.params.flagLeaf a
  have hnodes := numNodes_add_one a
  have hpos := numLeaves_pos a
  obtain ⟨t, hloop, hframe, hipos, hn, hleaves, hstored⟩ := parseLoop_parseStart (s := s) (k := stop - start)
    ⟨hflags, hbytes, hstop.ge, (Nat.zero_add _).trans_le hcap⟩ (by omega)
  rw [← hstop] at hipos
  refine ⟨_, deserializeRange_of_parsed hloop hipos hn hleaves, ?_, ?_⟩
  · exact treeOf_numbered (stored_of_node_eq hstored rfl) hcap rfl rfl rfl
  · obtain ⟨m, q, rfl⟩ := hframe
    rfl

/-- DESERIALIZE of the bytes of a tree that NODE can hold completes with that tree in preorder, and changes nothing but
the tree, the code table and STATUS (R175, R179, R180). -/
theorem exec_deserialize (hflags : s.params.flagInternal ≠ s.params.flagLeaf) (hin : s.inLen.toNat ≤ s.params.ibufCap)
    (hcap : a.numNodes ≤ nodeCap) (hinput : s.input = a.serial s.params.flagInternal s.params.flagLeaf) :
    ∃ t, exec .deserialize s = .next t ∧ TreeOf t (a.numbered 0) ∧ Unspecified t.lut ∧ t.seq.pc = .idle
      ∧ t = asSucceeded t.seq { withoutTree t.node t.lut s with
          treeValid := true, nnode := BitVec.ofNat 9 a.numNodes, nleaf := BitVec.ofNat 9 a.numLeaves } := by
  have hlen : s.inLen.toNat = (a.serial s.params.flagInternal s.params.flagLeaf).length := by
    rw [← hinput, length_input]
  obtain ⟨u, hu, htree, heq⟩ := deserializeRange_of_serial (a := a) (start := 0) (stop := s.inLen.toNat)
    (s := (s.commandStart.setPhase .des).invalidateTree) (hlen.trans (Nat.zero_add _).symm) hflags hcap
    (hlen ▸ hinput)
  refine ⟨u.successExit, ?_, treeOf_congr htree, ?_, rfl, ?_⟩
  · simp only [exec, execDeserialize]
    exact command_of_ok ((if_neg (Nat.not_lt.mpr hin)).trans hu)
  · rw [heq]
    exact Store.get?_forget s.lut
  · rw [heq]
    rfl

/-! ### SERIALIZE with room in OBUF -/

/-- SERIALIZE of a tree whose bytes fit OBUF completes with these bytes, and changes nothing but OBUF, OUT_LEN and STATUS
(R170). -/
theorem exec_serialize {b : NodeTree} (hp : s.params.wellFormed = true) (hvalid : s.treeValid = true)
    (htree : TreeOf s b) (hroom : 3 * s.nleaf.toNat - 1 ≤ s.params.obufCap) :
    ∃ t, exec .serialize s = .next t ∧ t.output = b.shape.serial s.params.flagInternal s.params.flagLeaf
      ∧ t.seq.pc = .idle
      ∧ t = asSucceeded t.seq { s with outLen := t.outLen, mem := { s.mem with obuf := t.mem.obuf } } := by
  have hputs := emitTree_puts (s := (s.commandStart.setPhase .ser).setOpos 0) (treeOf_congr htree)
  obtain ⟨v, hv, hwrote, -⟩ := hputs.of_room
    ((Nat.zero_add _).trans_le ((length_serial_of_treeOf htree _ _).trans_le hroom))
  refine ⟨v.setOutLen.successExit, ?_, (hwrote.output hp).2, rfl, ?_⟩
  · simp only [exec, execSerialize]
    exact command_of_ok ((if_pos hvalid).trans (by rw [hv, Run.map_ok]))
  · obtain ⟨o, q, rfl⟩ := hwrote.frame
    rfl

/-! ### The output as the next input -/

theorem get?_foldl_write (l : List Byte) (st : Store Byte) {i : Nat} (hi : i < l.length) :
    (l.zipIdx.foldl (fun st c => st.write c.2 c.1) st).get? i = l[i]? := by
  induction l using List.reverseRecOn with
  | nil => exact absurd hi (Nat.not_lt_zero i)
  | append_singleton l b ih =>
    rw [List.zipIdx_append, List.foldl_append]
    rcases Nat.lt_or_eq_of_le (Nat.le_of_lt_succ (by simpa using hi)) with hlt | rfl
    · rw [List.getElem?_append_left hlt, ← ih hlt]
      exact Store.get?_write_other _ (by simpa using hlt.ne) b
    · rw [List.getElem?_concat_length]
      simp

/-- The bytes the host loads are the input of the next command (R289). -/
theorem input_loadInput {l : List Byte} (h : l.length < 2 ^ 32) (s : State) : (loadInput l s).input = l := by
  have hlen : (loadInput l s).inLen.toNat = l.length := Nat.mod_eq_of_lt h
  refine List.ext_getElem ((length_input _).trans hlen) fun i _ hi => ?_
  have hget : (loadInput l s).mem.ibuf.get? i = some l[i] :=
    (get?_foldl_write l s.mem.ibuf hi).trans (List.getElem?_eq_getElem hi)
  have hread : (loadInput l s).memRead .ibuf i = l[i] := Store.read_of_get? _ hget
  simpa [State.input, State.bytes] using hread

/-! ### The round trip -/

/-- The bytes of a tree that NODE can hold, loaded as the next input, are deserialized to that tree (R181). -/
theorem exec_deserialize_loadInput {bytes : List Byte} (hp : s.params.wellFormed = true) (hcap : a.numNodes ≤ nodeCap)
    (hbytes : bytes = a.serial s.params.flagInternal s.params.flagLeaf) (hfit : bytes.length ≤ s.params.ibufCap) :
    ∃ t, exec .deserialize (loadInput bytes s) = .next t ∧ Succeeded t ∧ TreeOf t (a.numbered 0)
      ∧ t.params = s.params ∧ t.treeValid = true := by
  obtain ⟨hmax, hflags⟩ : s.params.ibufCap ≤ Params.maxCap ∧ s.params.flagInternal ≠ s.params.flagLeaf := by
    simp_all [Params.wellFormed]
  have hinput := input_loadInput (hfit.trans_lt (hmax.trans_lt (by decide))) s
  obtain ⟨t, hexec, htree, -, hpc, heq⟩ := exec_deserialize (s := loadInput bytes s) hflags
    (by rw [← length_input, hinput]; exact hfit) hcap (hinput.trans hbytes)
  exact ⟨t, hexec, succeeded_of_asSucceeded hpc heq, htree, by rw [heq]; rfl, by rw [heq]; rfl⟩

/-- GENCODES leaves the same records on two trees of the same shape (R165). -/
theorem lutRead_of_same_shape {b c : NodeTree} {v w : State} (hs : s.treeValid = true) (hb : TreeOf s b)
    (hu : u.treeValid = true) (hc : TreeOf u c) (hshape : c.shape = b.shape) (hv : exec .gencodes s = .next v)
    (hw : exec .gencodes u = .next w) : w.lutRead = v.lutRead := by
  obtain ⟨-, hv⟩ := tables_of_gencodes hs hb hv
  obtain ⟨-, hw⟩ := tables_of_gencodes hu hc hw
  exact TableOf.lutRead_eq hv (hshape ▸ hw)

/-- Settles O37: DESERIALIZE of the bytes of the tree makes the tree of the same shape numbered in preorder, and both the
bytes and the code table depend on the shape alone. -/
theorem treeCodecRoundTrip : Obligations.TreeCodecRoundTrip := by
  intro s tree hp hvalid htree hobuf hibuf
  have hshape : (tree.shape.numbered 0).shape = tree.shape := numbered_shape _ _
  obtain ⟨t, hser, hout, hpct, hteq⟩ := exec_serialize hp hvalid htree hobuf
  have hparams : t.params = s.params := by rw [hteq]; rfl
  have hfit : t.output.length ≤ s.params.ibufCap := by rwa [hout, length_serial_of_treeOf htree]
  obtain ⟨u, hdes, hsucc, htree', hparams', hvalid'⟩ := exec_deserialize_loadInput (s := t) (hparams ▸ hp)
    (numNodes_le_nodeCap htree) (hparams ▸ hout) (hparams ▸ hfit)
  rw [hparams] at hparams'
  have hleaves : u.nleaf.toNat = s.nleaf.toNat := by
    obtain ⟨-, -, -, hleaves⟩ := htree
    obtain ⟨-, -, -, hleaves'⟩ := htree'
    rw [← hleaves', hshape, hleaves]
  obtain ⟨v, hser', hout', hpcv, hveq⟩ := exec_serialize (hparams' ▸ hp) hvalid' htree'
    (by rwa [hleaves, hparams'])
  rw [hshape, hparams', ← hout] at hout'
  obtain ⟨x, hgen, -⟩ := exec_gencodes hvalid htree
  obtain ⟨y, hgen', -⟩ := exec_gencodes hvalid' htree'
  exact ⟨t, u, _, hser, succeeded_of_asSucceeded hpct hteq, hdes, hsucc, htree', hshape,
    ⟨v, hser', succeeded_of_asSucceeded hpcv hveq, hout'⟩, x, y, hgen, hgen',
    congrFun (lutRead_of_same_shape hvalid htree hvalid' htree' hshape hgen hgen')⟩

end Sys2Proof.Machine
end

section
/-! SUPPORT. The outcomes of SERIALIZE and DESERIALIZE (43_tree_codec.md R170 to R180): a tree that does not fit OBUF is
Resource, bytes that are not those of a tree NODE can hold are CorruptTree, and a parsed tree has freq 0 in every
record. -/

namespace Sys2Proof.Machine

variable {s t u : State} {a l r : Shape}

/-! ### Errors -/

theorem Run.All.of_raised {P : State → Prop} {r : Run} {e : ErrKind} (h : r.All P) (hr : r = .raised e s) : P s := by
  rw [hr] at h
  exact h

/-- Without room for all its bytes the run is Resource. -/
theorem Run.Puts.of_full {l : List Byte} {Q : State → Prop} {r : Run} (h : r.Puts l Q s)
    (hs : s.seq.opos ≤ s.params.obufCap) (hfull : s.params.obufCap < s.seq.opos + l.length) :
    ∃ t, r = .raised .resource t := by
  cases r with
  | ok t => exact absurd (h.1.room hs) (Nat.not_le.mpr hfull)
  | raised e t => exact ⟨t, congrArg (Run.raised · t) h.1⟩
  | stuck f => exact h.elim

theorem failed_of_asFailed {e : ErrKind} (hpc : t.seq.pc = .idle) (h : t = asFailed e t.seq u) : Failed e t := by
  rw [h] at hpc ⊢
  exact ⟨rfl, rfl, rfl, rfl, rfl, hpc⟩

/-! ### The outcomes of SERIALIZE -/

/-- Bytes put from offset 0 on that OUT_LEN can count are the output, and every byte behind them is as before (R172). -/
theorem Wrote.output_of_lt {l : List Byte} (h : Wrote l (s.setOpos 0) t) (hl : l.length < 2 ^ 32) :
    t.setOutLen.outLen.toNat = l.length ∧ t.setOutLen.output = l ∧ KeptFromOutLen s t.setOutLen := by
  have hopos : t.seq.opos = l.length := h.opos.trans (Nat.zero_add _)
  have hlen : t.setOutLen.outLen.toNat = l.length := by
    rw [State.setOutLen_outLen, hopos, BitVec.toNat_ofNat, Nat.mod_eq_of_lt hl]
  refine ⟨hlen, ?_, fun i hi => h.tail.kept i ?_⟩
  · rw [State.output, hlen]
    exact h.bytes
  · rwa [hopos, ← hlen]

/-- NLEAF is so small that OUT_LEN can count the bytes of every tree (R171). -/
theorem length_serial_lt_of_treeOf {b : NodeTree} (h : TreeOf s b) (i f : Byte) :
    (b.shape.serial i f).length < 2 ^ 32 := by
  have := s.nleaf.isLt
  rw [length_serial_of_treeOf h]
  omega

theorem exec_serialize_of_valid (hvalid : s.treeValid = true) :
    exec .serialize s
      = finish .serialize ((emitTree ((s.commandStart.setPhase .ser).setOpos 0)).map State.setOutLen) :=
  congrArg (finish .serialize) (if_pos hvalid)

/-- Settles O33: the emission puts the serialized tree from offset 0 on and nothing else. -/
theorem serializeWritesThePreorderBytes : Obligations.SerializeWritesThePreorderBytes := by
  intro s tree hvalid htree hroom
  have hlen := length_serial_of_treeOf htree s.params.flagInternal s.params.flagLeaf
  have hputs := emitTree_puts (s := (s.commandStart.setPhase .ser).setOpos 0) (treeOf_congr htree)
  obtain ⟨v, hv, hwrote, -⟩ := hputs.of_room ((Nat.zero_add _).trans_le (hlen.trans_le hroom))
  obtain ⟨hout, hbytes, hkept⟩ := hwrote.output_of_lt (length_serial_lt_of_treeOf htree _ _)
  refine ⟨v.setOutLen.successExit, ?_, hout.trans hlen, hbytes, hkept, rfl, ?_⟩
  · rw [exec_serialize_of_valid hvalid, hv]
    rfl
  · obtain ⟨o, q, rfl⟩ := hwrote.frame
    rfl

/-- Settles O34: the emission cannot put all bytes of the tree, and has changed OBUF alone when it stops. -/
theorem serializeBeyondObufIsResource : Obligations.SerializeBeyondObufIsResource := by
  intro s tree hvalid htree hfull
  have hlen := length_serial_of_treeOf htree s.params.flagInternal s.params.flagLeaf
  have hputs := emitTree_puts (s := (s.commandStart.setPhase .ser).setOpos 0) (treeOf_congr htree)
  obtain ⟨v, hv⟩ := hputs.of_full (Nat.zero_le _) (hfull.trans_eq (hlen.symm.trans (Nat.zero_add _).symm))
  have hexec : exec .serialize s = .next (v.errorEntry .serialize .resource) := by
    rw [exec_serialize_of_valid hvalid, hv]
    rfl
  obtain ⟨o, q, rfl⟩ := (emitTree_onlyOutput _).of_raised hv
  exact ⟨o.forget, Store.get?_forget o, _, hexec, rfl, rfl⟩

/-! ### What a call of Parse can do -/

/-- All that a call of `Parse` can do before its own calls (R175, R177): it raises CorruptTree, or NODE has room for a
node and the flag byte says which. -/
theorem parseNode_cases (stop : Nat) (s : State) :
    (∃ t, parseNode stop s = .raised .corruptTree t) ∨ s.seq.n < nodeCap ∧
      (s.memRead .ibuf s.seq.ipos = s.params.flagLeaf
          ∧ parseNode stop s = .ok (closeNode (BitVec.ofNat 9 s.seq.n) s.seq.stk
            (s.leafParsed (s.memRead .ibuf (s.seq.ipos + 1))))
        ∨ s.memRead .ibuf s.seq.ipos = s.params.flagInternal ∧ parseNode stop s = .ok s.nodeEntered) := by
  simp only [parseNode, parseLeaf]
  split_ifs with hstop hflag hcap hleaf hsym
  · exact .inl ⟨_, rfl⟩
  · exact .inl ⟨_, rfl⟩
  · exact .inl ⟨_, rfl⟩
  · exact .inl ⟨_, rfl⟩
  · exact .inr ⟨Nat.lt_of_not_le hcap, .inl ⟨hleaf, rfl⟩⟩
  · exact .inr ⟨Nat.lt_of_not_le hcap, .inr ⟨not_not.mp fun hinternal => hflag ⟨hleaf, hinternal⟩, rfl⟩⟩

/-! ### What a parse that goes on has read -/

/-- Every specified record of NODE has freq 0 (R179). -/
def ZeroFreqs (s : State) : Prop := ∀ k r, s.node.get? k = some r → r.freq = 0

theorem ZeroFreqs.nodeWrite (h : ZeroFreqs s) (i : NodeIdx) {r : NodeRec} (hr : r.freq = 0) :
    ZeroFreqs (s.nodeWrite i r) := by
  intro k q hq
  rw [State.nodeWrite_node] at hq
  by_cases hk : k = i.toNat
  · rw [hk, Store.get?_write_self] at hq
    exact Option.some.inj hq ▸ hr
  · rw [Store.get?_write_other _ hk] at hq
    exact h k q hq

/-- From `s` to `t` the parse has read the bytes of the tree `a` (R94) and put it in NODE, which had room for it. -/
structure ReadSubtree (a : Shape) (s t : State) : Prop extends ParsedSubtree a s t where
  bytes : s.bytes .ibuf s.seq.ipos (a.serial s.params.flagInternal s.params.flagLeaf).length
    = a.serial s.params.flagInternal s.params.flagLeaf
  room : s.seq.n + a.numNodes ≤ nodeCap
  freqs : ZeroFreqs s → ZeroFreqs t

theorem readSubtree_leafParsed (hn : s.seq.n < nodeCap) (hflag : s.memRead .ibuf s.seq.ipos = s.params.flagLeaf) :
    ReadSubtree (.leaf (s.memRead .ibuf (s.seq.ipos + 1))) s (s.leafParsed (s.memRead .ibuf (s.seq.ipos + 1))) where
  toParsedSubtree := parsedSubtree_leafParsed hn _
  bytes := by
    rw [Shape.serial, List.length_cons, List.length_singleton, bytes_succ, bytes_succ, hflag]
    rfl
  room := hn
  freqs h := h.nodeWrite (BitVec.ofNat 9 s.seq.n) rfl

/-- An internal node is read once its flag and both its subtrees are (R175). -/
theorem readSubtree_nodeClosed {fs : List Frame} (hflag : s.memRead .ibuf s.seq.ipos = s.params.flagInternal)
    (hl : ReadSubtree l s.nodeEntered t) (hr : ReadSubtree r (t.setStk fs) u) :
    ReadSubtree (.node l r) s (u.nodeClosed s.seq.n t.seq.n) := by
  have hparams : t.params = s.params := hl.frame.params_eq
  have hroom : s.seq.n + (Shape.node l r).numNodes ≤ nodeCap := by
    have hn : t.seq.n = s.seq.n + 1 + l.numNodes := hl.n
    have hright : t.seq.n + r.numNodes ≤ nodeCap := hr.room
    simp only [Shape.numNodes]
    omega
  refine ⟨parsedSubtree_nodeClosed hroom hl.toParsedSubtree hr.toParsedSubtree, ?_, hroom,
    fun h => (hr.freqs (hl.freqs h)).nodeWrite _ rfl⟩
  have hleft : s.bytes .ibuf (s.seq.ipos + 1) (l.serial s.params.flagInternal s.params.flagLeaf).length
      = l.serial s.params.flagInternal s.params.flagLeaf := hl.bytes
  have hright : t.bytes .ibuf t.seq.ipos (r.serial t.params.flagInternal t.params.flagLeaf).length
      = r.serial t.params.flagInternal t.params.flagLeaf := hr.bytes
  have hipos : t.seq.ipos = s.seq.ipos + 1 + (l.serial s.params.flagInternal s.params.flagLeaf).length := hl.ipos
  have hspace (i n : Nat) : t.bytes .ibuf i n = s.bytes .ibuf i n := hl.frame.bytes_eq .ibuf i n
  rw [hspace, hparams, hipos] at hright
  rw [Shape.serial, List.length_cons, List.length_append, bytes_succ, bytes_add, hflag, hleft, hright]

/-- All that the parse of a subtree can do (R175 to R178): it raises CorruptTree, or it has read the bytes of a tree and
what is left is to return its root to the open nodes and go on with fewer calls. -/
theorem parseLoop_cases (stop k : Nat) (s : State) :
    (∃ t, parseLoop stop k s = .raised .corruptTree t) ∨ ∃ a t j, j < k ∧ ReadSubtree a s t
      ∧ parseLoop stop k s = parseRest stop j (closeNode (BitVec.ofNat 9 s.seq.n) s.seq.stk t) := by
  induction k using Nat.strong_induction_on generalizing s with
  | h k ih =>
    cases k with
    | zero => exact .inl ⟨s, rfl⟩
    | succ k =>
      rw [parseLoop_succ]
      rcases parseNode_cases stop s with ⟨t, ht⟩ | ⟨hn, ⟨hflag, hnode⟩ | ⟨hflag, hnode⟩⟩
      · rw [ht]
        exact .inl ⟨t, rfl⟩
      · rw [hnode, Run.bind_ok]
        exact .inr ⟨_, _, k, Nat.lt_succ_self k, readSubtree_leafParsed hn hflag, rfl⟩
      · rw [hnode, Run.bind_ok, parseRest_of_open (List.cons_ne_nil _ _)]
        rcases ih k (Nat.lt_succ_self k) s.nodeEntered with hraised | ⟨l, t, j, hj, hl, hloopl⟩
        · exact .inl hraised
        · have hopen : parseLoop stop k s.nodeEntered = parseLoop stop j (t.setStk _) :=
            hloopl.trans (parseRest_of_open (List.cons_ne_nil _ _))
          rw [hopen]
          rcases ih j (by omega) (t.setStk _) with hraised | ⟨r, u, i, hi, hr, hloopr⟩
          · exact .inl hraised
          · exact .inr ⟨_, _, i, by omega, readSubtree_nodeClosed hflag hl hr, hloopr⟩

/-- All that DESERIALIZE's body can do (R175 to R179): it raises CorruptTree, with nothing but NODE and the transient
state changed, or its range holds the bytes of a tree that NODE can hold, with freq 0 in every record. -/
theorem deserializeRange_outcomes (start stop : Nat) (s : State) :
    (∃ t, deserializeRange start stop s = .raised .corruptTree t ∧ OnlyNode s t) ∨
    ∃ (a : Shape) (u : State), deserializeRange start stop s = .ok u ∧ a.numNodes ≤ nodeCap
      ∧ stop = start + (a.serial s.params.flagInternal s.params.flagLeaf).length
      ∧ s.bytes .ibuf start (a.serial s.params.flagInternal s.params.flagLeaf).length
        = a.serial s.params.flagInternal s.params.flagLeaf
      ∧ (ZeroFreqs s → ZeroFreqs u) := by
  rw [deserializeRange, ← State.parseStart]
  rcases parseLoop_cases stop (stop - start) (s.parseStart start) with ⟨t, hloop⟩ | ⟨a, t, j, -, ht, hloop⟩
  · have hframe := (parseLoop_onlyNode _ _ _).of_raised hloop
    rw [hloop]
    exact .inl ⟨t, rfl, OnlyNode.trans ⟨_, _, rfl⟩ hframe⟩
  · have hended : parseLoop stop (stop - start) (s.parseStart start) = .ok (t.setStk []) :=
      hloop.trans (parseRest_of_ended rfl)
    have hipos : t.seq.ipos = start + (a.serial s.params.flagInternal s.params.flagLeaf).length := ht.ipos
    rw [hended, Run.bind_ok]
    by_cases hstop : (t.setStk []).seq.ipos = stop
    · rw [if_neg (not_not_intro hstop)]
      exact .inr ⟨a, _, rfl, (Nat.zero_add _).symm.trans_le ht.room, hstop.symm.trans hipos, ht.bytes, ht.freqs⟩
    · rw [if_pos hstop]
      exact .inl ⟨_, rfl, OnlyNode.trans ⟨_, _, rfl⟩ (ht.frame.trans ⟨_, _, rfl⟩)⟩

/-! ### The outcomes of DESERIALIZE -/

theorem exec_deserialize_of_fits (hin : s.inLen.toNat ≤ s.params.ibufCap) :
    exec .deserialize s
      = finish .deserialize (deserializeRange 0 s.inLen.toNat (s.commandStart.setPhase .des).invalidateTree) :=
  congrArg (finish .deserialize) (if_neg (Nat.not_lt.mpr hin))

theorem errorEntry_of_deserializeRange (h : OnlyNode (s.commandStart.setPhase .des).invalidateTree t) (e : ErrKind) :
    t.errorEntry .deserialize e = asFailed e Seq.idle (withoutTree t.node.forget s.lut.forget s) := by
  obtain ⟨m, q, rfl⟩ := h
  rfl

/-- All that DESERIALIZE can do with an input within IBUF (R175 to R179): it is CorruptTree, or the input is that of a
tree that NODE can hold, and every record of NODE has freq 0. -/
theorem exec_deserialize_cases (hin : s.inLen.toNat ≤ s.params.ibufCap) :
    FailsWithoutTree .corruptTree .deserialize s s ∨
    ∃ (a : Shape) (t : State), exec .deserialize s = .next t ∧ a.numNodes ≤ nodeCap
      ∧ s.input = a.serial s.params.flagInternal s.params.flagLeaf ∧ ZeroFreqs t := by
  rcases deserializeRange_outcomes 0 s.inLen.toNat (s.commandStart.setPhase .des).invalidateTree with
    ⟨t, ht, hframe⟩ | ⟨a, u, hu, hcap, hstop, hbytes, hfreqs⟩
  · have hexec := (exec_deserialize_of_fits hin).trans (congrArg (finish .deserialize) ht)
    exact .inl ⟨_, _, Store.get?_forget _, Store.get?_forget _, _, hexec, rfl, errorEntry_of_deserializeRange hframe _⟩
  · have hexec := (exec_deserialize_of_fits hin).trans (congrArg (finish .deserialize) hu)
    refine .inr ⟨a, _, hexec, hcap, ?_, hfreqs fun _ _ hr => nomatch hr⟩
    rw [State.input, hstop, Nat.zero_add]
    exact hbytes

/-- DESERIALIZE writes no freq but 0, and on an error it leaves no record specified (R175, R179). -/
theorem zeroFreqs_of_deserialize (hin : s.inLen.toNat ≤ s.params.ibufCap) (h : exec .deserialize s = .next t) :
    ZeroFreqs t := by
  rcases exec_deserialize_cases hin with ⟨m, l, hm, -, u, hu, -, heq⟩ | ⟨-, u, hu, -, -, hfreqs⟩
  · obtain rfl := Host.Outcome.next.inj (h.symm.trans hu)
    intro k r hr
    rw [heq] at hr
    exact absurd hr (by simp [hm k, asFailed, withoutTree])
  · obtain rfl := Host.Outcome.next.inj (h.symm.trans hu)
    exact hfreqs

theorem numNodes_lt_of_le_nodeCap (h : a.numNodes ≤ nodeCap) : a.numNodes < 2 ^ 9 := Nat.lt_succ_of_le h

theorem numLeaves_lt_of_le_nodeCap (h : a.numNodes ≤ nodeCap) : a.numLeaves < 2 ^ 9 :=
  (numLeaves_le_numNodes a).trans_lt (numNodes_lt_of_le_nodeCap h)

/-- Settles O35: the parse of the bytes of a tree ends with that tree, and no parse writes a freq but 0. -/
theorem deserializeBuildsThePreorderTree : Obligations.DeserializeBuildsThePreorderTree := by
  intro s shape hflags hin hcap hinput
  obtain ⟨t, hexec, htree, hlut, hpc, heq⟩ := exec_deserialize hflags hin hcap hinput
  have hnnode : t.nnode.toNat = shape.numNodes := by
    rw [heq]
    exact Nat.mod_eq_of_lt (numNodes_lt_of_le_nodeCap hcap)
  have hnleaf : t.nleaf.toNat = shape.numLeaves := by
    rw [heq]
    exact Nat.mod_eq_of_lt (numLeaves_lt_of_le_nodeCap hcap)
  refine ⟨t, hexec, htree, by rw [heq]; rfl, hnnode, hnleaf, fun k hk => ?_, hpc, hlut, ?_⟩
  · obtain ⟨r, hr⟩ := exists_get?_of_treeOf htree (hnnode ▸ hk)
    exact ⟨r, hr, zeroFreqs_of_deserialize hin hexec k r hr⟩
  · rw [heq]
    rfl

/-- Settles O36: a parse that goes on to its end has read the bytes of a tree that NODE can hold. -/
theorem otherTreeBytesAreCorrupt : Obligations.OtherTreeBytesAreCorrupt := by
  intro s hin hother
  rcases exec_deserialize_cases hin with ⟨m, l, -, -, t, hexec, hpc, heq⟩ | ⟨a, -, -, hcap, hinput, -⟩
  · refine ⟨t, hexec, failed_of_asFailed hpc heq, ?_⟩
    rw [heq]
    exact ⟨rfl, rfl, rfl, rfl, rfl, rfl, rfl, rfl⟩
  · exact absurd hinput (hother a hcap)

end Sys2Proof.Machine
end

section
/-! SUPPORT. The ends of PACK and UNPACK, and the bits of what PACK puts (44_bit_codec.md R190 to R194). -/

namespace Sys2Proof.Machine

variable {s t u : State} {c : Instr} {r : Run} {l : List Byte} {p : BitString} {ph : Phase}

/-! ### The two ends of a command that writes OBUF -/

/-- A body that ends with the bytes `l` put from offset 0 on: the command completes with the output `l`, and changes
nothing but OBUF below OUT_LEN, OUT_LEN and STATUS (R74, R259). -/
theorem succeeds_of_wrote (hexec : exec c s = finish c (r.map State.setOutLen)) (hr : r = .ok u)
    (hwrote : Wrote l ((s.commandStart.setPhase ph).setOpos 0) u) (hl : l.length < 2 ^ 32) :
    ∃ t, exec c s = .next t ∧ t.output = l ∧ t.outLen.toNat = l.length ∧ KeptFromOutLen s t ∧ t.seq.pc = .idle
      ∧ t = asSucceeded t.seq { s with outLen := t.outLen, mem := { s.mem with obuf := t.mem.obuf } } := by
  obtain ⟨hlen, hout, hkept⟩ := hwrote.output_of_lt hl
  refine ⟨u.setOutLen.successExit, by rw [hexec, hr]; rfl, hout, hlen, hkept, rfl, ?_⟩
  obtain ⟨o, q, rfl⟩ := hwrote.frame
  rfl

/-- A body that raises having changed OBUF alone: the command leaves OBUF unspecified and the rest as before (R74). -/
theorem failsWithoutOutput_of_raised {e : ErrKind} (hc : c = .pack ∨ c = .unpack)
    (hexec : exec c s = finish c (r.map State.setOutLen)) (hr : r = .raised e t)
    (hframe : OnlyOutput ((s.commandStart.setPhase ph).setOpos 0) t) : FailsWithoutOutput e c s := by
  obtain ⟨o, q, rfl⟩ := hframe
  rw [hr] at hexec
  rcases hc with rfl | rfl <;> exact ⟨o.forget, Store.get?_forget o, _, hexec, rfl, rfl⟩

/-! ### The bits of the bytes put -/

/-- `v[7 − n] <- b` sets bit `n` from the top and keeps the others. -/
theorem getMsbD_setBitTo (v : Byte) {n k : Nat} (hn : n < 8) (hk : k < 8) (b : Bool) :
    (setBitTo v (7 - n) b).getMsbD k = if k = n then b else v.getMsbD k := by
  have hmask : ∀ n < 8, ∀ k < 8, ((1 : Byte) <<< (7 - n)).getMsbD k = decide (k = n) := by decide
  cases b with
  | false =>
    rw [setBitTo, if_neg Bool.false_ne_true, BitVec.getMsbD_and, BitVec.getMsbD_not, hmask n hn k hk]
    by_cases h : k = n <;> simp [h, hk]
  | true =>
    rw [setBitTo, if_pos rfl, BitVec.getMsbD_or, hmask n hn k hk]
    by_cases h : k = n <;> simp [h]

theorem getMsbD_accOf (hp : p.length ≤ 8) {k : Nat} (hk : k < 8) : (accOf p).getMsbD k = p.getD k false := by
  induction p using List.reverseRecOn with
  | nil => simp [accOf]
  | append_singleton p b ih =>
    have hlt : p.length < 8 := by simpa using hp
    rw [accOf_concat, getMsbD_setBitTo _ hlt hk, ih hlt.le]
    split
    · rename_i heq
      simp [heq]
    · rename_i hne
      rcases Nat.lt_or_gt_of_ne hne with h | h
      · rw [List.getD_append _ _ _ _ h]
      · rw [List.getD_eq_default _ _ h.le, List.getD_eq_default _ _ (by simpa using h)]

/-- The bits of ACC are those placed in it and then zeros (R190, R192). -/
theorem byteBits_accOf (hp : p.length ≤ 8) : byteBits (accOf p) = p ++ List.replicate (8 - p.length) false := by
  refine List.ext_getElem (by simp [byteBits]; omega) fun k hk _ => ?_
  have hk8 : k < 8 := by simpa [byteBits] using hk
  simp only [byteBits, List.getElem_map, List.getElem_range, getMsbD_accOf hp hk8]
  rcases Nat.lt_or_ge k p.length with h | h
  · rw [List.getElem_append_left h, List.getD_eq_getElem _ _ h]
  · rw [List.getElem_append_right h, List.getD_eq_default _ _ h, List.getElem_replicate]

theorem bitsOf_append (l m : List Byte) : bitsOf (l ++ m) = bitsOf l ++ bitsOf m := List.flatMap_append

theorem bitsOf_singleton (b : Byte) : bitsOf [b] = byteBits b := List.append_nil _

theorem bitsOf_layBit (p : BitString) (b : Bool) : bitsOf (layBit p b).1 ++ (layBit p b).2 = p ++ [b] := by
  unfold layBit
  split
  · rename_i hfull
    rw [bitsOf_singleton, byteBits_accOf (by simp [hfull])]
    simp [hfull]
  · rfl

theorem length_layBit_lt (hp : p.length < 8) (b : Bool) : (layBit p b).2.length < 8 := by
  unfold layBit
  split
  · exact Nat.succ_pos 7
  · rw [List.length_append, List.length_singleton]
    omega

/-- The bytes filled and the bits that wait then are together the bits that waited and those laid after them (R191). -/
theorem bitsOf_layBits (hp : p.length < 8) (l : BitString) :
    bitsOf (layBits p l).1 ++ (layBits p l).2 = p ++ l := by
  induction l generalizing p with
  | nil => exact (List.append_nil p).symm
  | cons b rest ih =>
    rw [layBits, bitsOf_append, List.append_assoc, ih (length_layBit_lt hp b), ← List.append_assoc, bitsOf_layBit,
      List.append_assoc, List.singleton_append]

/-- The bits of the packed bytes are the bits laid and then fewer than 8 zeros (R191, R192). -/
theorem exists_bitsOf_packedBytes (l : BitString) :
    ∃ pad < 8, bitsOf (packedBytes l) = l ++ List.replicate pad false := by
  have hlay := bitsOf_layBits (p := []) (Nat.succ_pos 7) l
  have hlt := (length_layBits (p := []) (Nat.succ_pos 7) l).2
  rw [List.nil_append] at hlay
  rw [packedBytes, flushBits, bitsOf_append]
  split
  · rename_i hnil
    exact ⟨0, Nat.succ_pos 7, by simpa [hnil, bitsOf] using hlay⟩
  · rename_i hne
    have hpos := List.length_pos_of_ne_nil hne
    refine ⟨8 - (layBits [] l).2.length, by omega, ?_⟩
    rw [bitsOf_singleton, byteBits_accOf hlt.le, ← List.append_assoc, hlay]

/-- As many bytes are filled as eight bits each allow (R190). -/
theorem length_layBits_nil (l : BitString) : (layBits [] l).1.length = l.length / 8 := by
  obtain ⟨hsum, hlt⟩ := length_layBits (p := []) (Nat.succ_pos 7) l
  rw [List.length_nil] at hsum
  omega

/-! ### PACK -/

theorem exec_pack_of_fits (hlut : s.lutValid = true) (hin : s.inLen.toNat ≤ s.params.ibufCap) :
    exec .pack s
      = finish .pack ((packRange 0 s.inLen.toNat ((s.commandStart.setPhase .pack).setOpos 0)).map State.setOutLen) :=
  congrArg (finish .pack) ((if_neg (by simp [hlut])).trans (if_neg (Nat.not_lt.mpr hin)))

/-- Settles O38: PACK puts the packed bytes of the payload, whose bits are the codes and the padding. -/
theorem packLaysTheCodesEndToEnd : Obligations.PackLaysTheCodesEndToEnd := by
  intro s hlut hin hcap hcoded hroom
  have hlen := length_packedBytes s.payloadBits
  have hputs := packRange_input_puts (s := (s.commandStart.setPhase .pack).setOpos 0) hcoded
  obtain ⟨u, hu, hwrote, -⟩ := hputs.of_room ((Nat.zero_add _).trans_le (hlen.trans_le hroom))
  obtain ⟨t, hexec, hout, houtLen, hkept, hpc, heq⟩ := succeeds_of_wrote (exec_pack_of_fits hlut hin) hu hwrote
    (hlen.trans_lt (hroom.trans_lt hcap))
  obtain ⟨pad, hpad, hbits⟩ := exists_bitsOf_packedBytes s.payloadBits
  exact ⟨t, pad, hexec, hpad, hout ▸ hbits, houtLen.trans hlen, hkept, hpc, heq⟩

theorem packLoop_add (m n : Nat) (s : State) : packLoop (m + n) s = (packLoop m s).bind (packLoop n) := by
  induction m generalizing s with
  | zero => rw [Nat.zero_add]; rfl
  | succ m ih =>
    rw [Nat.succ_add, packLoop, packLoop, Run.bind_assoc]
    exact congrArg _ (funext ih)

/-- Each round of the packing loop takes one byte (R190). -/
theorem ipos_of_packLoop_ok (k : Nat) (hw : Waiting p s) (h : packLoop k s = .ok t) :
    t.seq.ipos = s.seq.ipos + k := by
  induction k generalizing s p with
  | zero => cases h; rfl
  | succ k ih =>
    have hcoded := coded_of_packLoop_ok (k + 1) hw h
    rw [bytes_succ, List.forall_mem_cons] at hcoded
    obtain ⟨u, hu, hrest⟩ := Run.bind_eq_ok h
    obtain ⟨-, hwait, hipos⟩ := (packSymbol_puts hw hcoded.1).of_ok hu
    rw [ih hwait hrest, hipos, Nat.add_assoc, Nat.add_comm 1]

/-- The state in which PACK begins to read the input (R190). -/
def State.packStart (s : State) : State := { s with seq := { s.seq with acc := 0, nbits := 0, ipos := 0 } }

/-- PACK packs a beginning of the input first and then the rest. -/
theorem packRange_eq (m n : Nat) (s : State) :
    packRange 0 (m + n) s = ((packLoop m s.packStart).bind (packLoop n)).bind packFlush := by
  rw [packRange, Nat.sub_zero, packLoop_add]
  rfl

variable {before after : List Byte}

theorem bytes_of_input_eq_append (h : s.input = before ++ after) :
    s.inLen.toNat = before.length + after.length ∧ s.bytes .ibuf 0 before.length = before
      ∧ s.bytes .ibuf before.length after.length = after := by
  have hlen : s.inLen.toNat = before.length + after.length := by rw [← length_input, h, List.length_append]
  rw [State.input, hlen, bytes_add, Nat.zero_add] at h
  exact ⟨hlen, List.append_inj h (length_bytes _ _ _ _)⟩

/-- The packing of a beginning of the input puts the full bytes of its codes (R190). -/
theorem packLoop_beginning_puts (hbytes : s.bytes .ibuf 0 before.length = before)
    (hcoded : ∀ b ∈ before, (s.lutRead b).len ≠ 0) :
    (packLoop before.length s.packStart).Puts (layBits [] (s.bitsFor before)).1
      (Waiting (layBits [] (s.bitsFor before)).2) s := by
  have h := packLoop_puts (s := s.packStart) before.length (p := []) ⟨rfl, rfl⟩ (by rwa [← hbytes] at hcoded)
  rw [show s.packStart.bytes .ibuf s.packStart.seq.ipos before.length = before from hbytes] at h
  exact h.of_move

/-- A byte without a code after a beginning whose full bytes fit OBUF (R194). -/
theorem packRange_of_no_code {b : Byte} {rest : List Byte} (hinput : s.input = before ++ b :: rest)
    (hcoded : ∀ b ∈ before, (s.lutRead b).len ≠ 0) (hb : (s.lutRead b).len = 0)
    (hroom : s.seq.opos + (s.bitsFor before).length / 8 ≤ s.params.obufCap) :
    ∃ t, packRange 0 s.inLen.toNat s = .raised .precondition t := by
  obtain ⟨hlen, hbefore, hafter⟩ := bytes_of_input_eq_append hinput
  rw [List.length_cons, bytes_succ, List.cons.injEq] at hafter
  obtain ⟨u, hu, hwrote, -⟩ := (packLoop_beginning_puts hbefore hcoded).of_room (by rwa [length_layBits_nil])
  have hipos : u.seq.ipos = before.length := (ipos_of_packLoop_ok _ (p := []) ⟨rfl, rfl⟩ hu).trans (Nat.zero_add _)
  have hzero : (u.lutRead (u.memRead .ibuf u.seq.ipos)).len = 0 := by
    rw [hwrote.frame.lutRead_eq, hwrote.frame.memRead_ibuf, hipos, hafter.1, hb]
  have hraise : packLoop (rest.length + 1) u = .raised .precondition u := by
    rw [packLoop, packSymbol, if_pos hzero, Run.bind_raised]
  exact ⟨u, by rw [hlen, List.length_cons, packRange_eq, hu, Run.bind_ok, hraise, Run.bind_raised]⟩

/-- Full bytes of a beginning without room in OBUF (R194). -/
theorem packRange_of_full_beginning (hinput : s.input = before ++ after)
    (hcoded : ∀ b ∈ before, (s.lutRead b).len ≠ 0) (hs : s.seq.opos ≤ s.params.obufCap)
    (hfull : s.params.obufCap < s.seq.opos + (s.bitsFor before).length / 8) :
    ∃ t, packRange 0 s.inLen.toNat s = .raised .resource t := by
  obtain ⟨hlen, hbefore, -⟩ := bytes_of_input_eq_append hinput
  obtain ⟨t, ht⟩ := (packLoop_beginning_puts hbefore hcoded).of_full hs (by rwa [length_layBits_nil])
  exact ⟨t, by rw [hlen, packRange_eq, ht, Run.bind_raised, Run.bind_raised]⟩

/-- PACK whose packing raises. -/
theorem exec_pack_of_raised {e : ErrKind} (hlut : s.lutValid = true) (hin : s.inLen.toNat ≤ s.params.ibufCap)
    (h : ∃ t, packRange 0 s.inLen.toNat ((s.commandStart.setPhase .pack).setOpos 0) = .raised e t) :
    FailsWithoutOutput e .pack s := by
  obtain ⟨t, ht⟩ := h
  exact failsWithoutOutput_of_raised (.inl rfl) (exec_pack_of_fits hlut hin) ht
    ((packRange_onlyOutput _ _ _).of_raised ht)

/-- Settles O39: the beginning of the input is packed first; what stops PACK is the next byte, a full byte of the
beginning, or the flush. -/
theorem packErrorsInInputOrder : Obligations.PackErrorsInInputOrder := by
  intro s before after hlut hin hinput hcoded
  have hraised {e : ErrKind} := exec_pack_of_raised (e := e) hlut hin
  refine ⟨fun b rest hafter hb hroom => ?_, fun hfull => ?_, fun hafter hfull => ?_⟩
  · subst hafter
    exact hraised (packRange_of_no_code (s := (s.commandStart.setPhase .pack).setOpos 0) hinput hcoded hb
      ((Nat.zero_add _).trans_le hroom))
  · exact hraised (packRange_of_full_beginning (s := (s.commandStart.setPhase .pack).setOpos 0) hinput hcoded
      (Nat.zero_le _) (hfull.trans_eq (Nat.zero_add _).symm))
  · rw [hafter, List.append_nil] at hinput
    rw [← hinput] at hcoded hfull
    have hputs := packRange_input_puts (s := (s.commandStart.setPhase .pack).setOpos 0) hcoded
    exact hraised (hputs.of_full (Nat.zero_le _)
      (hfull.trans_eq ((length_packedBytes _).symm.trans (Nat.zero_add _).symm)))

end Sys2Proof.Machine
end

section
/-! SUPPORT. All the symbols that a bit-string holds under a tree (44_bit_codec.md R196 to R201): decoding a number of
them takes the first ones, and the bits of codes laid end to end hold the symbols of the codes. -/

namespace Sys2Proof.Machine

variable {a : Shape} {sym : Byte} {c p bs : BitString} {n : Nat}

/-- The symbols that a bit-string holds by the tree `root`, read from the subtree `cur` to the last bit (R196, R198). -/
def Shape.symbolsFrom (root : Shape) : Shape → BitString → List Byte
  | _, [] => []
  | cur, b :: bs =>
    match root with
    | .leaf s => s :: Shape.symbolsFrom root root bs
    | .node _ _ =>
      match cur with
      | .leaf _ => []
      | .node l r =>
        match (if b then r else l) with
        | .leaf s => s :: Shape.symbolsFrom root root bs
        | .node l' r' => Shape.symbolsFrom root (.node l' r') bs

/-- The same, read on from the subtree that a bit has led to: a leaf there is a symbol, and the next one starts at the
root. -/
def Shape.symbolsAt (root : Shape) (cur : Shape) (bs : BitString) : List Byte :=
  match cur with
  | .leaf s => s :: root.symbolsFrom root bs
  | .node l r => root.symbolsFrom (.node l r) bs

/-- A bit leads from an internal node to a child. -/
theorem symbolsFrom_node_cons (l' r' l r : Shape) (b : Bool) (bs : BitString) :
    (Shape.node l' r').symbolsFrom (.node l r) (b :: bs) = (Shape.node l' r').symbolsAt (if b then r else l) bs := by
  rw [Shape.symbolsFrom]
  cases if b then r else l <;> rfl

/-- Decoding `n` symbols gives the first `n` that the bits hold, if they hold as many (R197, R199). -/
theorem decodeFrom_eq (root cur : Shape) (n : Nat) (bs : BitString) :
    root.decodeFrom cur n bs
      = if n ≤ (root.symbolsFrom cur bs).length then some ((root.symbolsFrom cur bs).take n) else none := by
  induction bs generalizing cur n with
  | nil => cases n <;> simp [Shape.decodeFrom, Shape.symbolsFrom]
  | cons b bs ih =>
    cases n with
    | zero => simp [Shape.decodeFrom]
    | succ n =>
      cases root with
      | leaf x => simp [Shape.decodeFrom, Shape.symbolsFrom, ih, apply_ite]
      | node l' r' =>
        cases cur with
        | leaf x => simp [Shape.decodeFrom, Shape.symbolsFrom]
        | node l r =>
          rw [Shape.decodeFrom, Shape.symbolsFrom]
          cases if b then r else l with
          | leaf x => simp [ih, apply_ite]
          | node x y => exact ih (.node x y) (n + 1)

theorem decode_eq_some_iff {out : List Byte} :
    a.decode n bs = some out ↔ n ≤ (a.symbolsFrom a bs).length ∧ (a.symbolsFrom a bs).take n = out := by
  simp [Shape.decode, decodeFrom_eq]

theorem decode_eq_none_iff : a.decode n bs = none ↔ (a.symbolsFrom a bs).length < n := by
  simp [Shape.decode, decodeFrom_eq]

/-! ### The codes decode to their symbols -/

/-- The bits of the path from a subtree to a leaf lead to that leaf. -/
theorem symbolsAt_of_mem_paths (l' r' : Shape) (h : (sym, c) ∈ a.paths p) :
    ∃ d, c = p ++ d ∧ ∀ bs,
      (Shape.node l' r').symbolsAt a (d ++ bs) = sym :: (Shape.node l' r').symbolsFrom (.node l' r') bs := by
  induction a generalizing p with
  | leaf x =>
    obtain ⟨rfl, rfl⟩ : sym = x ∧ c = p := by simpa [Shape.paths] using h
    exact ⟨[], (List.append_nil c).symm, fun _ => rfl⟩
  | node l r ihl ihr =>
    rcases List.mem_append.mp h with h | h
    · obtain ⟨d, rfl, hd⟩ := ihl h
      exact ⟨false :: d, List.append_assoc _ _ _, fun bs => (symbolsFrom_node_cons ..).trans (hd bs)⟩
    · obtain ⟨d, rfl, hd⟩ := ihr h
      exact ⟨true :: d, List.append_assoc _ _ _, fun bs => (symbolsFrom_node_cons ..).trans (hd bs)⟩

/-- A code and the bits behind it hold its symbol and what those bits hold (R162, R163). -/
theorem symbolsFrom_of_mem_codes (h : (sym, c) ∈ a.codes) (bs : BitString) :
    a.symbolsFrom a (c ++ bs) = sym :: a.symbolsFrom a bs := by
  cases a with
  | leaf x =>
    obtain ⟨rfl, rfl⟩ : sym = x ∧ c = [false] := by simpa [Shape.codes] using h
    rfl
  | node l r =>
    obtain ⟨d, rfl, hd⟩ := symbolsAt_of_mem_paths (a := .node l r) l r h
    exact hd bs

/-- The codes of symbols of the tree, laid end to end, hold these symbols, whatever bits follow (R201). -/
theorem symbolsFrom_flatMap_codes {code : Byte → BitString} {syms : List Byte}
    (h : ∀ sym ∈ syms, (sym, code sym) ∈ a.codes) (bs : BitString) :
    a.symbolsFrom a (syms.flatMap code ++ bs) = syms ++ a.symbolsFrom a bs := by
  induction syms with
  | nil => rfl
  | cons sym rest ih =>
    rw [List.forall_mem_cons] at h
    rw [List.flatMap_cons, List.append_assoc, symbolsFrom_of_mem_codes h.1, ih h.2, List.cons_append]

end Sys2Proof.Machine
end

section
/-! SUPPORT. UNPACK (44_bit_codec.md R196 to R199): one bit moves CUR to a child or emits a symbol, and the loop puts
the symbols that the bits of the input hold, up to TOTAL of them. -/

namespace Sys2Proof.Machine

variable {s t : State} {root cur : NodeTree} {n : Nat}

/-! ### The bits of the input -/

/-- The bits `a` to `a + n − 1` of IBUF, those of a byte most significant first (R62). -/
def State.inputBits (s : State) (a n : Nat) : BitString :=
  (List.range n).map fun k => (s.memRead .ibuf ((a + k) / 8)).getMsbD ((a + k) % 8)

/-- The number of the next bit that UNPACK takes (R196). -/
def State.bitPos (s : State) : Nat := 8 * s.seq.ipos + s.seq.nbits.toNat

theorem inputBits_add (s : State) (a m n : Nat) :
    s.inputBits a (m + n) = s.inputBits a m ++ s.inputBits (a + m) n := by
  simp [State.inputBits, List.range_add, Function.comp_def, Nat.add_assoc]

theorem inputBits_succ (s : State) (a n : Nat) :
    s.inputBits a (n + 1) = (s.memRead .ibuf (a / 8)).getMsbD (a % 8) :: s.inputBits (a + 1) n := by
  rw [Nat.add_comm, inputBits_add]
  rfl

theorem inputBits_byte (s : State) (i : Nat) : s.inputBits (8 * i) 8 = byteBits (s.memRead .ibuf i) := by
  refine List.map_congr_left fun k hk => ?_
  have hk := List.mem_range.mp hk
  rw [show (8 * i + k) / 8 = i by omega, show (8 * i + k) % 8 = k by omega]

theorem inputBits_bytes (s : State) (i n : Nat) : s.inputBits (8 * i) (8 * n) = bitsOf (s.bytes .ibuf i n) := by
  induction n generalizing i with
  | zero => rfl
  | succ n ih =>
    rw [Nat.mul_succ, Nat.add_comm, inputBits_add, inputBits_byte, bytes_succ, ← Nat.mul_succ, ih]
    rfl

theorem OnlyOutput.inputBits_eq (h : OnlyOutput s t) (a n : Nat) : t.inputBits a n = s.inputBits a n := by
  simp only [State.inputBits, h.memRead_ibuf]

/-- What `takeBit` does: it gives the bit at the cursor, and the cursor moves on by one (R196). -/
theorem takeBit_eq (s : State) :
    ∃ q : Seq, takeBit s = ((s.memRead .ibuf (s.bitPos / 8)).getMsbD (s.bitPos % 8), { s with seq := q })
      ∧ q.opos = s.seq.opos ∧ q.cur = s.seq.cur ∧ q.emitted = s.seq.emitted
      ∧ ({ s with seq := q } : State).bitPos = s.bitPos + 1 := by
  have hlt : s.seq.nbits.toNat < 8 := s.seq.nbits.isLt
  have hbit : (s.memRead .ibuf (s.bitPos / 8)).getMsbD (s.bitPos % 8)
      = (s.memRead .ibuf s.seq.ipos).getLsbD (7 - s.seq.nbits.toNat) := by
    rw [State.bitPos, show (8 * s.seq.ipos + s.seq.nbits.toNat) / 8 = s.seq.ipos by omega,
      show (8 * s.seq.ipos + s.seq.nbits.toNat) % 8 = s.seq.nbits.toNat by omega, BitVec.getMsbD_eq_getLsbD]
    simp [hlt]
  rw [hbit, takeBit]
  split
  · rename_i hlast
    refine ⟨_, rfl, rfl, rfl, rfl, ?_⟩
    simp only [State.bitPos, hlast, BitVec.reduceToNat]
    omega
  · rename_i hopen
    have hne : s.seq.nbits.toNat ≠ 7 := fun h => hopen (BitVec.eq_of_toNat_eq h)
    refine ⟨_, rfl, rfl, rfl, rfl, ?_⟩
    simp only [State.bitPos, BitVec.toNat_add, BitVec.reduceToNat]
    omega

/-! ### One bit -/

theorem nodeRead_of_stored_leaf {i : NodeIdx} {sym : Byte} (h : (NodeTree.leaf i sym).stored s = true) :
    (s.nodeRead i).leaf = true ∧ (s.nodeRead i).sym = sym := by
  obtain ⟨f, hf⟩ := stored_leaf_iff.mp h
  rw [nodeRead_of_get? hf]
  exact ⟨rfl, rfl⟩

theorem nodeRead_of_stored_node {i : NodeIdx} {l r : NodeTree} (h : (NodeTree.node i l r).stored s = true) :
    (s.nodeRead i).leaf = false ∧ (s.nodeRead i).left = l.idx ∧ (s.nodeRead i).right = r.idx := by
  obtain ⟨⟨f, hf⟩, -⟩ := stored_node_iff.mp h
  rw [nodeRead_of_get? hf]
  exact ⟨rfl, rfl, rfl⟩

/-- Where a walk from the root may stand between two bits: at a leaf that is the root, or at an internal node. -/
inductive NodeTree.Walkable : NodeTree → NodeTree → Prop
  | leaf (i : NodeIdx) (sym : Byte) : Walkable (.leaf i sym) (.leaf i sym)
  | node (i : NodeIdx) (l r : NodeTree) (j : NodeIdx) (l' r' : NodeTree) : Walkable (.node i l r) (.node j l' r')

theorem NodeTree.Walkable.refl (a : NodeTree) : a.Walkable a := by
  cases a <;> constructor

/-- NODE holds the tree `root`, and CUR is at its subtree `cur` (R196). -/
structure Walks (root cur : NodeTree) (s : State) : Prop where
  rootStored : root.stored s = true
  rootIdx : root.idx = s.root
  curStored : cur.stored s = true
  curIdx : cur.idx = s.seq.cur
  walkable : root.Walkable cur

theorem OnlyOutput.root_eq (h : OnlyOutput s t) : t.root = s.root := by
  obtain ⟨_, _, rfl⟩ := h
  rfl

theorem Walks.onlyOutput {next : NodeTree} (h : Walks root cur s) (hframe : OnlyOutput s t)
    (hnext : next.stored s = true) (hidx : next.idx = t.seq.cur) (hwalk : root.Walkable next) : Walks root next t where
  rootStored := stored_of_node_eq h.rootStored hframe.node_eq
  rootIdx := h.rootIdx.trans hframe.root_eq.symm
  curStored := stored_of_node_eq hnext hframe.node_eq
  curIdx := hidx
  walkable := hwalk

/-- From `s` to `t` the symbols `l` have been emitted and CUR has moved to the subtree `next`, but no bit was taken. -/
structure Emitted (l : List Byte) (next : NodeTree) (s t : State) : Prop where
  cur : next.idx = t.seq.cur
  emitted : t.seq.emitted = s.seq.emitted + l.length
  bitPos : t.bitPos = s.bitPos

theorem emitSymbol_puts (sym : Byte) (h : cur.idx = s.seq.cur) :
    (emitSymbol sym s).Puts [sym] (Emitted [sym] cur s) s := by
  refine (put_puts sym s).map_seq _ (fun _ => rfl) fun t ht => ?_
  have ht : t.seq = { s.seq with opos := t.seq.opos } := ht
  rw [ht]
  exact ⟨h, rfl, rfl⟩

/-- CUR moves to a node (R196). -/
def State.walkTo (s : State) (i : NodeIdx) : State := { s with seq := { s.seq with cur := i } }

theorem unpackBit_of_root_leaf {i : NodeIdx} {sym : Byte} (h : (NodeTree.leaf i sym).stored s = true) (hi : i = s.root)
    (b : Bool) : unpackBit b s = emitSymbol sym s := by
  obtain ⟨hleaf, hsym⟩ := nodeRead_of_stored_leaf h
  rw [unpackBit, ← hi, if_pos hleaf, hsym]

/-- At an internal node the bit chooses the child (R196). -/
theorem unpackBit_of_node {j : NodeIdx} {l r : NodeTree} (hroot : (s.nodeRead s.root).leaf = false)
    (h : (NodeTree.node j l r).stored s = true) (hj : j = s.seq.cur) (b : Bool) :
    unpackBit b s =
      if (s.nodeRead (if b then r else l).idx).leaf then
        (emitSymbol (s.nodeRead (if b then r else l).idx).sym (s.walkTo (if b then r else l).idx)).map
          fun t => { t with seq := { t.seq with cur := t.root } }
      else .ok (s.walkTo (if b then r else l).idx) := by
  obtain ⟨-, hleft, hright⟩ := nodeRead_of_stored_node h
  rw [unpackBit, hroot, ← hj, hleft, hright, ← apply_ite]
  rfl

/-- One bit emits at most one symbol and moves CUR, just as it does in the bit-string's symbols (R196, R198). -/
theorem Walks.unpackBit_puts (h : Walks root cur s) (b : Bool) :
    ∃ l next, (unpackBit b s).Puts l (Emitted l next s) s ∧ l.length ≤ 1 ∧ next.stored s = true ∧ root.Walkable next
      ∧ ∀ bs, root.shape.symbolsFrom cur.shape (b :: bs) = l ++ root.shape.symbolsFrom next.shape bs := by
  obtain ⟨hroot, hrootIdx, hcur, hcurIdx, hwalk⟩ := h
  cases hwalk with
  | leaf i sym =>
    refine ⟨[sym], _, ?_, le_rfl, hroot, .refl _, fun _ => rfl⟩
    rw [unpackBit_of_root_leaf hroot hrootIdx]
    exact emitSymbol_puts sym hcurIdx
  | node i l r j l' r' =>
    obtain ⟨-, hl, hr⟩ := stored_node_iff.mp hcur
    have hchild : (if b then r' else l').stored s = true := by cases b; exacts [hl, hr]
    have hsyms (bs : BitString) : (NodeTree.node i l r).shape.symbolsFrom (NodeTree.node j l' r').shape (b :: bs)
        = (NodeTree.node i l r).shape.symbolsAt (if b then r' else l').shape bs := by
      rw [apply_ite NodeTree.shape]
      exact symbolsFrom_node_cons ..
    rw [unpackBit_of_node (hrootIdx ▸ (nodeRead_of_stored_node hroot).1) hcur hcurIdx]
    generalize (if b then r' else l') = child at hchild hsyms ⊢
    cases child with
    | leaf k sym =>
      obtain ⟨hleaf, hsym⟩ := nodeRead_of_stored_leaf hchild
      refine ⟨[sym], _, ?_, le_rfl, hroot, .refl _, hsyms⟩
      rw [NodeTree.idx, if_pos hleaf, hsym]
      have hemit := emitSymbol_puts (s := s.walkTo k) (cur := .leaf k sym) sym rfl
      have hreset := hemit.bind (m := []) (Q := Emitted [sym] (.node i l r) s)
        (k := fun t => .ok { t with seq := { t.seq with cur := t.root } }) fun t hwrote ht =>
          ⟨Wrote.move t _ rfl, hrootIdx.trans hwrote.frame.root_eq.symm, ht.emitted, ht.bitPos⟩
      exact hreset.of_move
    | node k x y =>
      refine ⟨[], _, ?_, Nat.zero_le 1, hchild, .node .., hsyms⟩
      rw [NodeTree.idx, if_neg (by simp [(nodeRead_of_stored_node hchild).1])]
      exact ⟨Wrote.move s _ rfl, rfl, rfl, rfl⟩

/-! ### The loop -/

/-- The run, which has to put the first `n` of the bytes `l`, does so; or it is Resource since they do not all fit OBUF;
or it is TruncatedStream since there are too few, and all of them fit. -/
def Run.Decodes (l : List Byte) (n : Nat) (s : State) : Run → Prop
  | .ok t => Wrote (l.take n) s t ∧ n ≤ l.length
  | .raised e _ =>
    (e = .resource ∧ s.params.obufCap < s.seq.opos + (l.take n).length)
      ∨ (e = .truncatedStream ∧ l.length < n
        ∧ (s.seq.opos ≤ s.params.obufCap → s.seq.opos + l.length ≤ s.params.obufCap))
  | .stuck _ => False

variable {l m : List Byte} {P : State → Prop} {r : Run}

/-- A run from a state that has put the first of the bytes already. -/
theorem Run.Decodes.after (hr : r.Decodes m (n - l.length) t) (h : Wrote l s t) (hn : l.length ≤ n) :
    r.Decodes (l ++ m) n s := by
  have htake : (l ++ m).take n = l ++ m.take (n - l.length) := by rw [List.take_append, List.take_of_length_le hn]
  cases r with
  | ok u => exact ⟨htake ▸ h.trans hr.1, by have := hr.2; rw [List.length_append]; omega⟩
  | raised e u =>
    rw [Run.Decodes, h.tail.params, h.opos] at hr
    rw [Run.Decodes, htake, List.length_append, List.length_append]
    rcases hr with ⟨he, hfull⟩ | ⟨he, hfew, hroom⟩
    · exact .inl ⟨he, by omega⟩
    · have := h.room
      exact .inr ⟨he, by omega, by omega⟩
  | stuck f => exact hr

/-- A run from a state whose other cursors have moved. -/
theorem Run.Decodes.of_move {q : Seq} (h : r.Decodes l n { s with seq := q }) (hq : q.opos = s.seq.opos := by rfl) :
    r.Decodes l n s :=
  h.after (Wrote.move s q hq) (Nat.zero_le n)

/-- Bytes put and then the rest of those to put. -/
theorem Run.Puts.decodes {k : State → Run} (h : r.Puts l P s) (hn : l.length ≤ n)
    (hk : ∀ t, Wrote l s t → P t → (k t).Decodes m (n - l.length) t) : (r.bind k).Decodes (l ++ m) n s := by
  cases r with
  | ok t => exact (hk t h.1 h.2).after h.1 hn
  | raised e t =>
    refine .inl ⟨h.1, h.2.trans_le (Nat.add_le_add_left ?_ _)⟩
    rw [List.length_take, List.length_append]
    omega
  | stuck f => exact h

/-- The loop puts the symbols that the next `k` bits hold, until COUNT are emitted (R196 to R199). -/
theorem unpackLoop_decodes (count k : Nat) (h : Walks root cur s) :
    (unpackLoop count k s).Decodes (root.shape.symbolsFrom cur.shape (s.inputBits s.bitPos k))
      (count - s.seq.emitted) s := by
  induction k generalizing s cur with
  | zero =>
    rw [unpackLoop]
    split
    · rename_i hlt
      exact .inr ⟨rfl, Nat.sub_pos_of_lt hlt, id⟩
    · rename_i hdone
      rw [Nat.sub_eq_zero_of_le (Nat.le_of_not_lt hdone)]
      exact ⟨Wrote.refl s, Nat.zero_le _⟩
  | succ k ih =>
    rw [unpackLoop]
    split
    · rename_i hlt
      obtain ⟨q, htake, hopos, hcur, hemitted, hpos⟩ := takeBit_eq s
      have hmoved : Walks root cur { s with seq := q } :=
        h.onlyOutput ((OnlyOutput.refl s).of_seq q) h.curStored (h.curIdx.trans hcur.symm) h.walkable
      rw [htake, inputBits_succ]
      obtain ⟨l, next, hputs, hone, hnext, hwalk, hsyms⟩ :=
        hmoved.unpackBit_puts ((s.memRead .ibuf (s.bitPos / 8)).getMsbD (s.bitPos % 8))
      rw [hsyms]
      refine (hputs.of_move hopos).decodes (by omega) fun t hwrote ht => ?_
      have hframe : OnlyOutput s t := ((OnlyOutput.refl s).of_seq q).trans hwrote.frame
      have hrest := ih (hmoved.onlyOutput hwrote.frame hnext ht.cur hwalk)
      rwa [hframe.inputBits_eq, ht.bitPos, hpos, ht.emitted, hemitted, ← Nat.sub_sub] at hrest
    · rename_i hdone
      rw [Nat.sub_eq_zero_of_le (Nat.le_of_not_lt hdone)]
      exact ⟨Wrote.refl s, Nat.zero_le _⟩

/-- With enough symbols and room for `n` of them the run goes on. -/
theorem Run.Decodes.of_room (h : r.Decodes l n s) (hn : n ≤ l.length) (hroom : s.seq.opos + n ≤ s.params.obufCap) :
    ∃ t, r = .ok t ∧ Wrote (l.take n) s t := by
  have hlen : (l.take n).length = n := List.length_take_of_le hn
  cases r with
  | ok t => exact ⟨t, rfl, h.1⟩
  | raised e t =>
    rcases h with ⟨-, hfull⟩ | ⟨-, hfew, -⟩
    · exact absurd hroom (Nat.not_le.mpr (hlen ▸ hfull))
    · exact absurd hn (Nat.not_le.mpr hfew)
  | stuck f => exact h.elim

/-- With too few symbols, all of which fit, the run is TruncatedStream. -/
theorem Run.Decodes.of_few (h : r.Decodes l n s) (hfew : l.length < n)
    (hroom : s.seq.opos + l.length ≤ s.params.obufCap) : ∃ t, r = .raised .truncatedStream t := by
  cases r with
  | ok t => exact absurd h.2 (Nat.not_le.mpr hfew)
  | raised e t =>
    rcases h with ⟨-, hfull⟩ | ⟨rfl, -⟩
    · rw [List.take_of_length_le hfew.le] at hfull
      exact absurd hroom (Nat.not_le.mpr hfull)
    · exact ⟨t, rfl⟩
  | stuck f => exact h.elim

/-- With more symbols than fit, and more than fit to put, the run is Resource. -/
theorem Run.Decodes.of_full (h : r.Decodes l n s) (hs : s.seq.opos ≤ s.params.obufCap)
    (hn : s.params.obufCap < s.seq.opos + n) (hl : s.params.obufCap < s.seq.opos + l.length) :
    ∃ t, r = .raised .resource t := by
  cases r with
  | ok t =>
    have hroom := h.1.room hs
    rw [List.length_take_of_le h.2] at hroom
    exact absurd hroom (Nat.not_le.mpr hn)
  | raised e t =>
    rcases h with ⟨rfl, -⟩ | ⟨-, -, hroom⟩
    · exact ⟨t, rfl⟩
    · exact absurd (hroom hs) (Nat.not_le.mpr hl)
  | stuck f => exact h.elim

/-! ### UNPACK -/

/-- UnpackRange over the whole input decodes by the tree in NODE (R196). -/
theorem unpackRange_decodes (htree : TreeOf s root) (count : Nat) :
    (unpackRange 0 s.inLen.toNat count s).Decodes (root.shape.symbolsFrom root.shape (bitsOf s.input)) count s := by
  obtain ⟨hstored, hidx, -⟩ := htree
  have hloop := unpackLoop_decodes (root := root) (cur := root) count (8 * s.inLen.toNat)
    (s := { s with seq := { s.seq with ipos := 0, nbits := 0, cur := s.root, emitted := 0 } })
    ⟨stored_of_node_eq hstored rfl, hidx, stored_of_node_eq hstored rfl, hidx, .refl root⟩
  rw [State.input, ← inputBits_bytes]
  exact hloop.of_move

theorem exec_unpack_of_fits (hvalid : s.treeValid = true) (hin : s.inLen.toNat ≤ s.params.ibufCap) :
    exec .unpack s
      = finish .unpack
        ((unpackRange 0 s.inLen.toNat s.total.toNat ((s.commandStart.setPhase .unpack).setOpos 0)).map
          State.setOutLen) :=
  congrArg (finish .unpack) ((if_neg (by simp [hvalid])).trans (if_neg (Nat.not_lt.mpr hin)))

/-- UNPACK of an input decodes by the tree in NODE, from OPOS 0 on (R196). -/
theorem exec_unpack_decodes (htree : TreeOf s root) :
    (unpackRange 0 s.inLen.toNat s.total.toNat ((s.commandStart.setPhase .unpack).setOpos 0)).Decodes
      (root.shape.symbolsFrom root.shape (bitsOf s.input)) s.total.toNat
      ((s.commandStart.setPhase .unpack).setOpos 0) :=
  unpackRange_decodes (s := (s.commandStart.setPhase .unpack).setOpos 0) (treeOf_congr htree) _

/-- Settles O40: with enough symbols in the bits and room for them the loop puts the first TOTAL. -/
theorem unpackDecodesTotalSymbols : Obligations.UnpackDecodesTotalSymbols := by
  intro s tree out hvalid htree hin hroom hdecode
  obtain ⟨hlen, rfl⟩ := decode_eq_some_iff.mp hdecode
  have htake := List.length_take_of_le hlen
  obtain ⟨u, hu, hwrote⟩ := (exec_unpack_decodes htree).of_room hlen ((Nat.zero_add _).trans_le hroom)
  obtain ⟨t, hexec, hout, houtLen, hkept, hpc, heq⟩ := succeeds_of_wrote (exec_unpack_of_fits hvalid hin) hu hwrote
    (htake.trans_lt s.total.isLt)
  exact ⟨t, hexec, hout, BitVec.eq_of_toNat_eq (houtLen.trans htake), hkept, hpc, heq⟩

/-- UNPACK whose decoding raises. -/
theorem exec_unpack_of_raised {e : ErrKind} (hvalid : s.treeValid = true) (hin : s.inLen.toNat ≤ s.params.ibufCap)
    (h : ∃ t, unpackRange 0 s.inLen.toNat s.total.toNat ((s.commandStart.setPhase .unpack).setOpos 0) = .raised e t) :
    FailsWithoutOutput e .unpack s := by
  obtain ⟨t, ht⟩ := h
  exact failsWithoutOutput_of_raised (.inr rfl) (exec_unpack_of_fits hvalid hin) ht
    ((unpackRange_onlyOutput _ _ _ _).of_raised ht)

/-- Settles O41: the bits hold too few symbols, all of which fit, or more symbols than fit. -/
theorem unpackErrorsInDecodeOrder : Obligations.UnpackErrorsInDecodeOrder := by
  intro s tree hvalid htree hin
  have hruns := exec_unpack_decodes htree
  simp only [ne_eq, decode_eq_none_iff, Nat.not_lt]
  refine ⟨fun hfew hfit => ?_, fun htotal hfull => ?_⟩
  · exact exec_unpack_of_raised hvalid hin (hruns.of_few hfew ((Nat.zero_add _).trans_le (Nat.le_of_lt_succ hfit)))
  · exact exec_unpack_of_raised hvalid hin (hruns.of_full (Nat.zero_le _) (htotal.trans_eq (Nat.zero_add _).symm)
      (Nat.lt_of_succ_le (hfull.trans_eq (Nat.zero_add _).symm)))

/-! ### The round trip -/

/-- The payload of symbols of the tree, in the code table of the tree, decodes to them, whatever bits follow (R201). -/
theorem decode_payloadBits (htree : TreeOf s root) (htable : TableOf s root.shape)
    (hsyms : ∀ b ∈ s.input, b ∈ root.shape.symbols) (bs : BitString) :
    root.shape.decode s.inLen.toNat (s.payloadBits ++ bs) = some s.input := by
  have hle := numLeaves_le_of_treeOf htree
  have hcodes : ∀ b ∈ s.input, (b, codeBits (s.lutRead b)) ∈ root.shape.codes := by
    intro b hb
    obtain ⟨c, hc⟩ := exists_codeOf_iff.mpr (hsyms b hb)
    rw [State.lutRead, Store.read_of_get? _ (htable b), codeBits_lutEntry hle hc]
    exact mem_codes_of_codeOf hc
  rw [decode_eq_some_iff, State.payloadBits, State.bitsFor, symbolsFrom_flatMap_codes hcodes, ← length_input]
  exact ⟨by simp, List.take_left⟩

/-- UNPACK of bytes loaded as the input, which decode to symbols with room for them in OBUF (R289). -/
theorem exec_unpack_loadInput {bytes out : List Byte} {total : Word} (hvalid : s.treeValid = true)
    (htree : TreeOf s root) (hlt : bytes.length < 2 ^ 32) (hfit : bytes.length ≤ s.params.ibufCap)
    (hroom : total.toNat ≤ s.params.obufCap) (hdecode : root.shape.decode total.toNat (bitsOf bytes) = some out) :
    ∃ t, exec .unpack { loadInput bytes s with total := total } = .next t ∧ Succeeded t ∧ t.output = out := by
  have hinput : ({ loadInput bytes s with total := total } : State).input = bytes := input_loadInput hlt s
  obtain ⟨t, hexec, hout, -, -, hpc, heq⟩ := unpackDecodesTotalSymbols { loadInput bytes s with total := total } root
    out hvalid (treeOf_congr htree) (by rwa [← length_input, hinput]) hroom (by rwa [hinput])
  exact ⟨t, hexec, succeeded_of_asSucceeded hpc heq, hout⟩

/-- Settles O42: the payload and its padding, loaded as the next input, decode to the bytes packed. -/
theorem unpackInvertsPack : Obligations.UnpackInvertsPack := by
  intro s tree hp hvalid hlut htree htable _ hsyms hin hroom hpackRoom hpackIn
  have hcoded : ∀ b ∈ s.input, (s.lutRead b).len ≠ 0 := fun b hb => by
    rw [State.lutRead, Store.read_of_get? _ (htable b)]
    exact (len_lutEntry_ne_zero_iff (numLeaves_le_of_treeOf htree)).mpr (hsyms b hb)
  obtain ⟨t, pad, hpack, -, hbits, hlen, -, hpc, heq⟩ :=
    packLaysTheCodesEndToEnd s hlut hin (obufCap_lt_of_wellFormed hp) hcoded hpackRoom
  have hparams : t.params = s.params := by rw [heq]; rfl
  have hvalid' : t.treeValid = true := by rw [heq]; exact hvalid
  have hsame : SameTree s t := by rw [heq]; exact ⟨rfl, rfl, rfl, rfl⟩
  obtain ⟨v, hunpack, hsucc, hout⟩ := exec_unpack_loadInput (bytes := t.output) hvalid' (treeOf_congr htree hsame)
    (by rw [length_output]; exact t.outLen.isLt) (by rwa [length_output, hlen, hparams]) (by rwa [hparams])
    (hbits ▸ decode_payloadBits htree htable hsyms _)
  exact ⟨t, v, hpack, succeeded_of_asSucceeded hpc heq, hunpack, hsucc, hout⟩

end Sys2Proof.Machine
end

section
/-! SUPPORT. The ends of COMPRESS and DECOMPRESS (45_orchestration.md R213; 60_exceptions.md R258, R259): each leaves
clean tables, with the flags of the success exit, or with those of the error entry and its registers 0. -/

namespace Sys2Proof.Machine

variable {s t u : State} {e : ErrKind}

/-! ### The two commands as their phases -/

/-- Where the phases of COMPRESS start: clean tables and TOTAL = 0 (R210, R213). -/
def State.compressStart (s : State) : State := (s.commandStart.setPhase .count).cleanTables.clearTotal

/-- Where the phases of DECOMPRESS start: clean tables and TOTAL = 0 (R213, R220). -/
def State.decompressStart (s : State) : State := (s.commandStart.setPhase .hdr).cleanTables.clearTotal

/-- `compressTables` stands as a variable `tables` here, since Lean would else try to run it on all symbols. -/
theorem exec_compress_eq (s : State) :
    exec .compress s = finish .compress
      (((compressTables s.compressStart).bind compressFile).map fun t => t.setOutLen.cleanTables) := by
  simp only [exec, execCompress]
  generalize compressTables = tables
  rfl

theorem exec_decompress_eq (s : State) :
    exec .decompress s = finish .decompress ((decompressBody s.decompressStart).map State.cleanTables) := rfl

/-! ### ERR and ERRCODE while they run -/

/-- ERR and ERRCODE are in `t` as in `s`. -/
structure SameError (s t : State) : Prop where
  err : t.err = s.err
  errCode : t.errCode = s.errCode

theorem SameError.trans (h : SameError s t) (k : SameError t u) : SameError s u :=
  ⟨k.err.trans h.err, k.errCode.trans h.errCode⟩

theorem OnlyTables.sameError (h : OnlyTables s t) : SameError s t := by
  obtain ⟨_, _, _, _, _, _, _, _, _, _, rfl⟩ := h
  exact ⟨rfl, rfl⟩

theorem OnlyOutput.sameError (h : OnlyOutput s t) : SameError s t := by
  obtain ⟨_, _, rfl⟩ := h
  exact ⟨rfl, rfl⟩

theorem copyExt_sameError (r k : Nat) (s : State) : SameError s (copyExt r k s) := by
  obtain ⟨_, ho⟩ := copyExt_frame r k s
  rw [ho]
  exact ⟨rfl, rfl⟩

/-- Sequencing for SameError. -/
theorem SameError.bind {r : Run} {k : State → Run} (hr : r.All (SameError s)) (hk : ∀ t, (k t).All (SameError t)) :
    (r.bind k).All (SameError s) :=
  Run.All.bind hr (fun _ h => h) fun t ht => Run.All.mono (hk t) fun _ hu => ht.trans hu

theorem decompressPayload_sameError (e p : Nat) (s : State) : (decompressPayload e p s).All (SameError s) := by
  simp only [decompressPayload]
  split_ifs
  · exact ⟨rfl, rfl⟩
  · exact ⟨rfl, rfl⟩
  · have hframe := (setPhase_onlyOutput .unpack s).trans (setOpos_onlyOutput 0 _)
    exact Run.All.map (Run.All.mono (unpackRange_onlyOutput _ _ _ _) fun _ h => (hframe.trans h).sameError)
      (fun _ h => h) fun _ h => ⟨h.err, h.errCode⟩

theorem decompressTree_sameError (e : Nat) (s : State) : (decompressTree e s).All (SameError s) := by
  simp only [decompressTree]
  split_ifs
  · exact ⟨rfl, rfl⟩
  · exact ⟨rfl, rfl⟩
  · exact ⟨rfl, rfl⟩
  · exact SameError.bind
      (Run.All.mono (deserializeRange_onlyTree _ _ _) fun _ h =>
        ((setPhase_onlyTables .des s).trans h.onlyTables).sameError)
      fun t => Run.All.mono (decompressPayload_sameError _ _ _) fun _ h =>
        (setPhase_onlyTables .hdr t).sameError.trans h

theorem decompressBody_sameError (s : State) : (decompressBody s).All (SameError s) := by
  simp only [decompressBody]
  split_ifs
  case neg => exact Run.All.mono (decompressTree_sameError _ _) fun _ h => (copyExt_sameError _ 0 s).trans h
  all_goals exact ⟨rfl, rfl⟩

/-! ### The two ends -/

theorem cleanTables_cleanTables (s : State) : CleanTables s.cleanTables :=
  ⟨fun _ => Vector.getElem_replicate _, rfl, rfl, rfl, rfl, rfl⟩

theorem cleanTables_errorEntry {c : Instr} (h : c = .compress ∨ c = .decompress) (e : ErrKind) (s : State) :
    CleanTables (s.errorEntry c e) := by
  obtain ⟨htree, hlut, hfreq, -, hnleaf, hnnode, hroot⟩ := errorEntry_composite h e s
  refine ⟨fun sym => ?_, htree, hlut, hnleaf, hnnode, hroot⟩
  simp only [State.freqOf, hfreq, Vector.getElem_replicate]

theorem failed_errorEntry (c : Instr) (e : ErrKind) (s : State) : Failed e (s.errorEntry c e) :=
  ⟨rfl, rfl, rfl, rfl, rfl, rfl⟩

/-- COMPRESS on `s` ends by the error entry of the kind `e`, with TOTAL = 0 and clean tables (R213, R258). -/
def CompressFails (e : ErrKind) (s : State) : Prop :=
  ∃ t, exec .compress s = .next t ∧ Failed e t ∧ t.total = 0 ∧ CleanTables t

/-- DECOMPRESS on `s` ends by the error entry of the kind `e`, with TOTAL = EXT_LEN = 0 and clean tables (R213,
R258). -/
def DecompressFails (e : ErrKind) (s : State) : Prop :=
  ∃ t, exec .decompress s = .next t ∧ Failed e t ∧ t.total = 0 ∧ t.extLen = 0 ∧ CleanTables t

/-- COMPRESS whose phases raise an error (R213, R258). -/
theorem compress_fails (h : (compressTables s.compressStart).bind compressFile = .raised e u) : CompressFails e s := by
  refine ⟨u.errorEntry .compress e, ?_, failed_errorEntry _ e u, rfl, cleanTables_errorEntry (.inl rfl) e u⟩
  rw [exec_compress_eq, h]
  rfl

/-- COMPRESS whose phases succeed (R259). -/
theorem compress_succeeds {x v : State} (hx : compressTables s.compressStart = .ok x) (hv : compressFile x = .ok v) :
    exec .compress s = .next v.setOutLen.cleanTables.successExit ∧ Succeeded v.setOutLen.cleanTables.successExit := by
  obtain ⟨herr, hcode⟩ := ((compressTables_onlyTables _).of_ok hx).sameError.trans
    ((compressFile_onlyOutput x).of_ok hv).sameError
  refine ⟨?_, rfl, rfl, herr, hcode, rfl⟩
  rw [exec_compress_eq, hx, Run.bind_ok, hv]
  rfl

/-- DECOMPRESS whose phases raise an error (R213, R258). -/
theorem decompress_fails (h : decompressBody s.decompressStart = .raised e u) : DecompressFails e s := by
  refine ⟨u.errorEntry .decompress e, ?_, failed_errorEntry _ e u, rfl, rfl, cleanTables_errorEntry (.inr rfl) e u⟩
  rw [exec_decompress_eq, h]
  rfl

/-- DECOMPRESS whose phases succeed (R259). -/
theorem decompress_succeeds (h : decompressBody s.decompressStart = .ok u) :
    exec .decompress s = .next u.cleanTables.successExit ∧ Succeeded u.cleanTables.successExit := by
  obtain ⟨herr, hcode⟩ := (decompressBody_sameError _).of_ok h
  refine ⟨?_, rfl, rfl, herr, hcode, rfl⟩
  rw [exec_decompress_eq, h]
  rfl

/-- All that COMPRESS can come to. -/
theorem compress_ends (h : exec .compress s = .next t) :
    CleanTables t ∧ (Succeeded t ∨ ∃ e, Failed e t ∧ t.total = 0) := by
  rw [exec_compress_eq] at h
  rcases finish_eq_next h with ⟨v, hv, rfl⟩ | ⟨e, v, -, rfl⟩
  · obtain ⟨w, hw, hv⟩ := Run.bind_eq_ok hv
    obtain ⟨x, hx, hw⟩ := Run.bind_eq_ok hw
    obtain rfl := Run.ok.inj hv
    exact ⟨cleanTables_cleanTables w, .inl (compress_succeeds hx hw).2⟩
  · exact ⟨cleanTables_errorEntry (.inl rfl) e v, .inr ⟨e, failed_errorEntry _ e v, rfl⟩⟩

/-- All that DECOMPRESS can come to. -/
theorem decompress_ends (h : exec .decompress s = .next t) :
    CleanTables t ∧ (Succeeded t ∨ ∃ e, Failed e t ∧ t.total = 0 ∧ t.extLen = 0) := by
  rw [exec_decompress_eq] at h
  rcases finish_eq_next h with ⟨v, hv, rfl⟩ | ⟨e, v, -, rfl⟩
  · obtain ⟨w, hw, hv⟩ := Run.bind_eq_ok hv
    obtain rfl := Run.ok.inj hv
    exact ⟨cleanTables_cleanTables w, .inl (decompress_succeeds hw).2⟩
  · exact ⟨cleanTables_errorEntry (.inr rfl) e v, .inr ⟨e, failed_errorEntry _ e v, rfl, rfl⟩⟩

theorem Succeeded.err (h : Succeeded t) : t.err = false := by
  obtain ⟨-, -, herr, -, -⟩ := h
  exact herr

/-- Settles O54: each of the two commands ends by one of its two ends, and both leave clean tables. -/
theorem compositeCommandsLeaveCleanTables : Obligations.CompositeCommandsLeaveCleanTables := by
  rintro i s t (rfl | rfl) h
  · obtain ⟨hclean, hsucc | ⟨e, -, htotal⟩⟩ := compress_ends h
    · exact ⟨hclean, fun herr => by simp [hsucc.err] at herr⟩
    · exact ⟨hclean, fun _ => ⟨htotal, nofun⟩⟩
  · obtain ⟨hclean, hsucc | ⟨e, -, htotal, hext⟩⟩ := decompress_ends h
    · exact ⟨hclean, fun herr => by simp [hsucc.err] at herr⟩
    · exact ⟨hclean, fun _ => ⟨htotal, fun _ => hext⟩⟩

end Sys2Proof.Machine
end

section
/-! SUPPORT. The checks of DECOMPRESS on the header of a file (45_orchestration.md R220, R222 rows 1 to 10): the first
that fails decides the error, and where none does the tree bytes are parsed next. -/

namespace Sys2Proof.Machine

variable {s t : State} {e : ErrKind} {n k : Nat}

/-! ### The first failing check -/

theorem firstFailing_cons (b : Bool) (kind : ErrKind) (l : List (Bool × ErrKind)) :
    firstFailing ((b, kind) :: l) = if b = true then some kind else firstFailing l := by
  cases b <;> rfl

theorem firstFailing_nil : firstFailing [] = none := rfl

/-- A body that makes the first check of a list and then goes on raises what the list says, if the rest of it does. -/
theorem raises_of_checks {c p : Prop} [Decidable c] [Decidable p] {kind : ErrKind} {l : List (Bool × ErrKind)} {r : Run}
    (hc : c ↔ p) (hrest : ¬ p → firstFailing l = some e → ∃ t, r = .raised e t)
    (h : firstFailing ((decide p, kind) :: l) = some e) : ∃ t, (if c then .raised kind s else r) = .raised e t := by
  rw [firstFailing_cons] at h
  by_cases hp : p
  · rw [if_pos (decide_eq_true hp)] at h
    exact ⟨s, by rw [if_pos (hc.mpr hp), Option.some.inj h]⟩
  · rw [if_neg (by simpa using hp)] at h
    obtain ⟨t, ht⟩ := hrest hp h
    exact ⟨t, by rw [if_neg (mt hc.mp hp), ht]⟩

theorem firstFailing_eq_none_iff {l : List (Bool × ErrKind)} : firstFailing l = none ↔ ∀ c ∈ l, c.1 = false := by
  simp [firstFailing]

/-! ### The copy of the extension -/

/-- The copy of the extension changes EXTBUF alone, so the bytes of IBUF stand (R220). -/
theorem copyExt_memRead_ibuf (r k : Nat) (s : State) (a : Nat) :
    (copyExt r k s).memRead .ibuf a = s.memRead .ibuf a := by
  obtain ⟨_, ho⟩ := copyExt_frame r k s
  rw [ho]
  rfl

theorem copyExt_memRead4_ibuf (r k : Nat) (s : State) (a : Nat) :
    (copyExt r k s).memRead4 .ibuf a = s.memRead4 .ibuf a := by
  simp only [State.memRead4, copyExt_memRead_ibuf]

theorem copyExt_inLen (r k : Nat) (s : State) : (copyExt r k s).inLen = s.inLen := by
  obtain ⟨_, ho⟩ := copyExt_frame r k s
  rw [ho]

/-- The bytes of EXTBUF before the copy's first are as before. -/
theorem copyExt_keeps_before (r k : Nat) (s : State) {a : Nat} (ha : a < k) :
    (copyExt r k s).memRead .extbuf a = s.memRead .extbuf a := by
  induction r generalizing k s with
  | zero => rfl
  | succ r ih =>
    rw [copyExt, ih (k + 1) _ (by omega)]
    exact s.mem.readByte_writeByte_other (by omega) _

/-- The copy puts the bytes of the file from offset 11 on into EXTBUF (R220). -/
theorem copyExt_bytes (r k : Nat) (s : State) : (copyExt r k s).bytes .extbuf k r = s.bytes .ibuf (11 + k) r := by
  induction r generalizing k s with
  | zero => rfl
  | succ r ih =>
    have hfirst : (copyExt (r + 1) k s).memRead .extbuf k = s.memRead .ibuf (11 + k) := by
      rw [copyExt, copyExt_keeps_before r (k + 1) _ (Nat.lt_succ_self k)]
      exact s.mem.readByte_writeByte_self .extbuf k _
    rw [bytes_succ, bytes_succ, hfirst, copyExt, ih]
    rfl

/-! ### A check that fails -/

/-- Rows 8 to 10 of R222. -/
theorem decompressTree_raises {n k : Int} (hn : 0 ≤ n)
    (hk : k = s32 (s.memRead4 .ibuf (11 + n.toNat)))
    (h : firstFailing
      [ (decide ((s.inLen.toNat : Int) < 15 + n), .badMagic), (decide (k < 0), .corruptTree),
        (decide ((s.inLen.toNat : Int) - (15 + n) < k), .corruptTree) ] = some e) :
    ∃ t, decompressTree n.toNat s = .raised e t := by
  subst hk
  exact raises_of_checks (by omega) (fun _ => raises_of_checks Iff.rfl fun _ =>
    raises_of_checks (by omega) fun _ hnone => nomatch (firstFailing_nil.symm.trans hnone)) h

/-- Rows 1 to 10 of R222: the body raises the error of the first check that fails. -/
theorem decompressBody_raises (h : firstFailing (headerChecks s) = some e) :
    ∃ t, decompressBody s = .raised e t := by
  simp only [headerChecks] at h
  unfold decompressBody
  refine raises_of_checks Nat.cast_lt.symm (fun _ => raises_of_checks (by omega) fun _ => raises_of_checks Iff.rfl
    fun _ => raises_of_checks (by omega) fun _ => raises_of_checks Iff.rfl fun hpos => raises_of_checks Iff.rfl
    fun _ => raises_of_checks Iff.rfl fun _ hrest => ?_) h
  refine decompressTree_raises (by omega) rfl ?_
  rwa [copyExt_memRead4_ibuf, copyExt_inLen]

theorem headerChecks_start (s : State) : headerChecks s.decompressStart = headerChecks s := by
  have hread : s.decompressStart.memRead4 = s.memRead4 := rfl
  have hbytes : s.decompressStart.bytes = s.bytes := rfl
  have hlen : s.decompressStart.inLen = s.inLen := rfl
  have hparams : s.decompressStart.params = s.params := rfl
  rw [headerChecks, hread, hbytes, hlen, hparams, headerChecks]

/-- Settles O48: the checks of the body are those of the list, in its order. -/
theorem decompressReportsTheFirstHeaderError : Obligations.DecompressReportsTheFirstHeaderError := by
  intro s e h
  obtain ⟨u, hu⟩ := decompressBody_raises ((headerChecks_start s).symm ▸ h)
  exact decompress_fails hu

/-! ### No check fails -/

/-- No check on the header fails (R222 rows 1 to 10): the file has an extension of `n` bytes and `k` tree bytes. -/
structure HeaderPasses (n k : Nat) (s : State) : Prop where
  input : s.inLen.toNat ≤ s.params.ibufCap
  magic : s.bytes .ibuf 0 7 = magicBytes
  extLen : s32 (s.memRead4 .ibuf 7) = n
  ext : n ≤ s.params.extCap
  treeLen : s32 (s.memRead4 .ibuf (11 + n)) = k
  length : 15 + n + k ≤ s.inLen.toNat

theorem headerPasses_of_none (h : firstFailing (headerChecks s) = none) (hn : s32 (s.memRead4 .ibuf 7) = n)
    (hk : s32 (s.memRead4 .ibuf (11 + n)) = k) : HeaderPasses n k s := by
  rw [firstFailing_eq_none_iff] at h
  simp only [headerChecks, hn, Int.toNat_natCast, hk, List.forall_mem_cons, decide_eq_false_iff_not, not_not] at h
  obtain ⟨hin, -, hmagic, -, -, -, hext, -, -, hlen, -⟩ := h
  exact ⟨by omega, hmagic, hn, by omega, hk, by omega⟩

theorem HeaderPasses.start (h : HeaderPasses n k s) : HeaderPasses n k s.decompressStart :=
  ⟨h.input, h.magic, h.extLen, h.ext, h.treeLen, h.length⟩

/-- With a header that passes the extension is copied and the tree bytes are parsed (R220). -/
theorem HeaderPasses.decompressBody_eq (h : HeaderPasses n k s) :
    decompressBody s
      = (deserializeRange (15 + n) (15 + n + k) ((copyExt n 0 s).setPhase .des)).bind fun t =>
          decompressPayload n (15 + n + k) (t.setPhase .hdr) := by
  obtain ⟨hin, hmagic, hext, hcap, htree, hlen⟩ := h
  have hbody : decompressBody s = decompressTree n (copyExt n 0 s) := by
    simp only [decompressBody, hext, Int.toNat_natCast]
    rw [if_neg (by omega), if_neg (by omega), if_neg (not_not_intro hmagic), if_neg (by omega), if_neg (by omega),
      if_neg (by omega), if_neg (by omega)]
  rw [hbody]
  simp only [decompressTree, copyExt_memRead4_ibuf, copyExt_inLen, htree, Int.toNat_natCast]
  rw [if_neg (by omega), if_neg (by omega), if_neg (by omega)]

end Sys2Proof.Machine
end

section
/-! SUPPORT. DECOMPRESS behind a header that passes (45_orchestration.md R220, R222 rows 11 to 15, R223): the tree bytes
are parsed, and the payload is decoded by the tree they make. -/

namespace Sys2Proof.Machine

variable {s t u : State} {a : Shape} {root : NodeTree} {n k c p : Nat}

/-! ### The tree -/

theorem copyExt_bytes_ibuf (r k : Nat) (s : State) (i n : Nat) :
    (copyExt r k s).bytes .ibuf i n = s.bytes .ibuf i n :=
  bytes_congr fun a _ _ => copyExt_memRead_ibuf r k s a

theorem copyExt_params (r k : Nat) (s : State) : (copyExt r k s).params = s.params := by
  obtain ⟨_, ho⟩ := copyExt_frame r k s
  rw [ho]

/-- The parameters and the file in IBUF are in `t` as in `s`. -/
structure FileKept (s t : State) : Prop where
  params : t.params = s.params
  inLen : t.inLen = s.inLen
  bytes : t.bytes .ibuf = s.bytes .ibuf
  memRead4 : t.memRead4 .ibuf = s.memRead4 .ibuf

theorem FileKept.of_start (h : FileKept s.decompressStart t) : FileKept s t :=
  ⟨h.params, h.inLen, h.bytes, h.memRead4⟩

theorem OnlyTree.fileKept_of_copyExt (h : OnlyTree (copyExt n 0 s) t) : FileKept s t := by
  obtain ⟨_, ho⟩ := copyExt_frame n 0 s
  obtain ⟨_, _, _, _, _, _, rfl⟩ := h
  rw [ho]
  exact ⟨rfl, rfl, rfl, rfl⟩

/-- Tree bytes that are those of a tree NODE can hold are parsed to that tree, and the totalChars field is read next
(R220, R222 row 11). -/
theorem HeaderPasses.decompressBody_of_tree (h : HeaderPasses n k s)
    (hflags : s.params.flagInternal ≠ s.params.flagLeaf) (hcap : a.numNodes ≤ nodeCap)
    (hbytes : s.bytes .ibuf (15 + n) k = a.serial s.params.flagInternal s.params.flagLeaf) :
    ∃ u, decompressBody s = decompressPayload n (15 + n + k) u ∧ TreeOf u (a.numbered 0)
      ∧ OnlyTree (copyExt n 0 s) u := by
  have hparams : ((copyExt n 0 s).setPhase .des).params = s.params := copyExt_params n 0 s
  have hk : (a.serial s.params.flagInternal s.params.flagLeaf).length = k := by rw [← hbytes, length_bytes]
  have hcopy : ((copyExt n 0 s).setPhase .des).bytes .ibuf (15 + n) k = s.bytes .ibuf (15 + n) k :=
    copyExt_bytes_ibuf n 0 s _ _
  obtain ⟨u, hu, htree, -⟩ := deserializeRange_of_serial (s := (copyExt n 0 s).setPhase .des) (a := a)
    (start := 15 + n) (stop := 15 + n + k) (by rw [hparams, hk]) (by rwa [hparams]) hcap
    (by rw [hparams, hk, hcopy, hbytes])
  have hframe := (deserializeRange_onlyTree _ _ _).of_ok hu
  refine ⟨u.setPhase .hdr, by rw [h.decompressBody_eq, hu, Run.bind_ok], treeOf_congr htree, ?_⟩
  exact OnlyTree.trans ⟨_, _, _, _, _, _, rfl⟩ (hframe.trans ⟨_, _, _, _, _, _, rfl⟩)

/-- Other tree bytes are CorruptTree (R222 row 11). -/
theorem HeaderPasses.decompressBody_of_corrupt (h : HeaderPasses n k s)
    (hother : ∀ a : Shape, a.numNodes ≤ nodeCap →
      s.bytes .ibuf (15 + n) k ≠ a.serial s.params.flagInternal s.params.flagLeaf) :
    ∃ t, decompressBody s = .raised .corruptTree t := by
  have hparams : ((copyExt n 0 s).setPhase .des).params = s.params := copyExt_params n 0 s
  rcases deserializeRange_outcomes (15 + n) (15 + n + k) ((copyExt n 0 s).setPhase .des) with
    ⟨t, ht, -⟩ | ⟨a, -, -, hcap, hstop, hbytes, -⟩
  · exact ⟨t, by rw [h.decompressBody_eq, ht, Run.bind_raised]⟩
  · have hk : (a.serial s.params.flagInternal s.params.flagLeaf).length = k := by
      rw [hparams] at hstop
      omega
    have hcopy : ((copyExt n 0 s).setPhase .des).bytes .ibuf (15 + n) k = s.bytes .ibuf (15 + n) k :=
      copyExt_bytes_ibuf n 0 s _ _
    rw [hparams, hk, hcopy] at hbytes
    exact absurd hbytes (hother a hcap)

/-! ### The payload -/

/-- A totalChars field that is missing or negative is BadMagic (R222 rows 12 and 13). -/
theorem decompressPayload_of_bad_total (h : s.inLen.toNat < p + 4 ∨ s32 (s.memRead4 .ibuf p) < 0) :
    decompressPayload n p s = .raised .badMagic s := by
  simp only [decompressPayload]
  split_ifs with hlen hneg
  · rfl
  · rfl
  · exact absurd h (not_or.mpr ⟨hlen, hneg⟩)

/-- With `c` symbols to decode the payload is unpacked, and the results go to their registers (R220). -/
theorem decompressPayload_of_total (hlen : p + 4 ≤ s.inLen.toNat) (hc : s32 (s.memRead4 .ibuf p) = c) :
    decompressPayload n p s
      = (unpackRange (p + 4) s.inLen.toNat c ((s.setPhase .unpack).setOpos 0)).map fun t =>
          { t.setOutLen with total := s.memRead4 .ibuf p, extLen := BitVec.ofNat 32 n } := by
  simp only [decompressPayload, hc, Int.toNat_natCast]
  rw [if_neg (by omega), if_neg (by omega)]

/-- UnpackRange decodes the bits of its range by the tree in NODE (R196). -/
theorem unpackRange_decodes_between (htree : TreeOf s root) (start stop count : Nat) :
    (unpackRange start stop count s).Decodes
      (root.shape.symbolsFrom root.shape (bitsOf (s.bytes .ibuf start (stop - start)))) count s := by
  obtain ⟨hstored, hidx, -⟩ := htree
  have hloop := unpackLoop_decodes (root := root) (cur := root) count (8 * (stop - start))
    (s := { s with seq := { s.seq with ipos := start, nbits := 0, cur := s.root, emitted := 0 } })
    ⟨stored_of_node_eq hstored rfl, hidx, stored_of_node_eq hstored rfl, hidx, .refl root⟩
  rw [← inputBits_bytes]
  exact hloop.of_move

/-- DECOMPRESS decodes the payload by the tree it has parsed, from OPOS 0 on (R220). -/
theorem payload_decodes (htree : TreeOf s (a.numbered 0)) (start count : Nat) :
    (unpackRange start s.inLen.toNat count ((s.setPhase .unpack).setOpos 0)).Decodes
      (a.symbolsFrom a (bitsOf (s.bytes .ibuf start (s.inLen.toNat - start)))) count
      ((s.setPhase .unpack).setOpos 0) := by
  have h := unpackRange_decodes_between (s := (s.setPhase .unpack).setOpos 0) (treeOf_congr htree) start s.inLen.toNat
    count
  rwa [numbered_shape] at h

/-- Bits that end before the symbols to decode do, and before more symbols than OBUF holds, are TruncatedStream; more
symbols than OBUF holds, to decode and in the bits, are Resource (R222 rows 14 and 15). -/
theorem decompressPayload_raises (htree : TreeOf s (a.numbered 0)) (hlen : p + 4 ≤ s.inLen.toNat)
    (hc : s32 (s.memRead4 .ibuf p) = c) {bits : BitString}
    (hbits : bits = bitsOf (s.bytes .ibuf (p + 4) (s.inLen.toNat - (p + 4)))) :
    (a.decode c bits = none → a.decode (s.params.obufCap + 1) bits = none →
      ∃ t, decompressPayload n p s = .raised .truncatedStream t)
    ∧ (s.params.obufCap < c → a.decode (s.params.obufCap + 1) bits ≠ none →
      ∃ t, decompressPayload n p s = .raised .resource t) := by
  have hruns := payload_decodes htree (p + 4) c
  rw [← hbits] at hruns
  rw [decompressPayload_of_total hlen hc]
  simp only [ne_eq, decode_eq_none_iff, Nat.not_lt]
  refine ⟨fun hfew hfit => ?_, fun hmany hfull => ?_⟩
  · obtain ⟨t, ht⟩ := hruns.of_few hfew ((Nat.zero_add _).trans_le (Nat.le_of_lt_succ hfit))
    exact ⟨t, by rw [ht, Run.map_raised]⟩
  · obtain ⟨t, ht⟩ := hruns.of_full (Nat.zero_le _) (hmany.trans_eq (Nat.zero_add _).symm)
      (Nat.lt_of_succ_le (hfull.trans_eq (Nat.zero_add _).symm))
    exact ⟨t, by rw [ht, Run.map_raised]⟩

theorem flags_ne_of_wellFormed {p : Params} (hp : p.wellFormed = true) : p.flagInternal ≠ p.flagLeaf := by
  simp_all [Params.wellFormed]

/-- Settles O49: what the parse and then the decoding do with the bytes behind a header that passes. -/
theorem decompressReportsTheLaterErrors : Obligations.DecompressReportsTheLaterErrors := by
  intro s e k hp hnone he hk
  have hpasses := (headerPasses_of_none hnone he hk).start
  refine ⟨fun hother => ?_, fun shape hcap hbytes => ?_⟩
  · obtain ⟨t, ht⟩ := hpasses.decompressBody_of_corrupt hother
    exact decompress_fails ht
  obtain ⟨u, hbody, htree, hframe⟩ := hpasses.decompressBody_of_tree (flags_ne_of_wellFormed hp) hcap hbytes
  obtain ⟨hparams, hlen, hread, hread4⟩ := hframe.fileKept_of_copyExt.of_start
  have hpos : 15 + e + k + 4 = 19 + e + k := by omega
  refine ⟨fun hbad => ?_, fun n hroom hn => ?_⟩
  · refine decompress_fails (hbody.trans (decompressPayload_of_bad_total ?_))
    rwa [hlen, hread4, hpos]
  · obtain ⟨hfew, hfull⟩ := decompressPayload_raises (n := e) (p := 15 + e + k) (c := n) htree (by rwa [hlen, hpos])
      (by rw [hread4, hn]) rfl
    rw [hlen, hread, hpos, hparams] at hfew hfull
    refine ⟨fun hc hobuf => ?_, fun hc hobuf => ?_⟩
    · obtain ⟨t, ht⟩ := hfew hc hobuf
      exact decompress_fails (hbody.trans ht)
    · obtain ⟨t, ht⟩ := hfull hc hobuf
      exact decompress_fails (hbody.trans ht)

end Sys2Proof.Machine
end

section
/-! SUPPORT. DECOMPRESS of a compressed file (30_encoding.md R96; 45_orchestration.md R220, R223): where the parts of
the file stand in IBUF, and what the command makes of them. -/

namespace Sys2Proof.Machine

variable {s t u : State} {a : Shape} {ext payload out : List Byte} {total : Word} {i n k : Nat}

/-! ### The parts of a file -/

/-- The input is a compressed file (R96), its parts where R220 looks for them; `k` is the number of tree bytes. -/
structure HoldsFile (ext : List Byte) (a : Shape) (total : Word) (payload : List Byte) (k : Nat) (s : State) :
    Prop where
  length : s.inLen.toNat = 15 + ext.length + k + 4 + payload.length
  magic : s.bytes .ibuf 0 7 = magicBytes
  extLenField : s.memRead4 .ibuf 7 = BitVec.ofNat 32 ext.length
  extBytes : s.bytes .ibuf 11 ext.length = ext
  treeLenField : s.memRead4 .ibuf (11 + ext.length) = BitVec.ofNat 32 k
  treeBytes : s.bytes .ibuf (15 + ext.length) k = a.serial s.params.flagInternal s.params.flagLeaf
  totalField : s.memRead4 .ibuf (15 + ext.length + k) = total
  payloadBytes : s.bytes .ibuf (15 + ext.length + k + 4) payload.length = payload

/-- A word stands where its four bytes do, least significant first (R61). -/
theorem memRead4_of_le32 {sp : Space} {i : Nat} {w : Word} (h : s.bytes sp i 4 = le32 w) : s.memRead4 sp i = w := by
  simp only [bytes_succ, le32, List.cons.injEq] at h
  obtain ⟨h0, h1, h2, h3, -⟩ := h
  exact memRead4_of_bytes h0 h1 h2 h3

theorem length_fileOf (p : Params) (ext : List Byte) (a : Shape) (total : Word) (payload : List Byte) :
    (fileOf p ext a total payload).length
      = 19 + ext.length + (a.serial p.flagInternal p.flagLeaf).length + payload.length := by
  simp only [fileOf, List.length_append, magicBytes, le32, List.length_cons, List.length_nil]
  omega

/-- A range whose bytes are two lists end to end holds the one and then, from offset `j` on, the other. -/
theorem bytes_split {sp : Space} {j m : Nat} {l r : List Byte} (h : s.bytes sp i (m + n) = l ++ r)
    (hm : l.length = m) (hj : i + m = j) : s.bytes sp i m = l ∧ s.bytes sp j n = r := by
  rw [bytes_add, hj] at h
  exact List.append_inj h ((length_bytes _ _ _ _).trans hm.symm)

theorem holdsFile_of_input (h : s.input = fileOf s.params ext a total payload) :
    HoldsFile ext a total payload (a.serial s.params.flagInternal s.params.flagLeaf).length s := by
  have hlen : s.inLen.toNat = 19 + ext.length + (a.serial s.params.flagInternal s.params.flagLeaf).length
      + payload.length := by rw [← length_input, h, length_fileOf]
  have hparts : s.bytes .ibuf 0 (7 + (4 + (ext.length + (4
      + ((a.serial s.params.flagInternal s.params.flagLeaf).length + (4 + payload.length)))))) = s.input := by
    rw [State.input]
    congr 1
    omega
  rw [h, fileOf] at hparts
  simp only [List.append_assoc] at hparts
  obtain ⟨hmagic, hparts⟩ := bytes_split (j := 7) hparts rfl rfl
  obtain ⟨hextLen, hparts⟩ := bytes_split (j := 11) hparts rfl rfl
  obtain ⟨hext, hparts⟩ := bytes_split (j := 11 + ext.length) hparts rfl rfl
  obtain ⟨htreeLen, hparts⟩ := bytes_split (j := 15 + ext.length) hparts rfl (by omega)
  obtain ⟨htree, hparts⟩ := bytes_split hparts rfl rfl
  obtain ⟨htotal, hpayload⟩ := bytes_split hparts rfl rfl
  exact ⟨by omega, hmagic, memRead4_of_le32 hextLen, hext, memRead4_of_le32 htreeLen, htree,
    memRead4_of_le32 htotal, hpayload⟩

theorem s32_of_lt {w : Word} (h : w.toNat < 2 ^ 31) : s32 w = w.toNat :=
  BitVec.toInt_eq_toNat_of_lt (by omega)

theorem s32_ofNat_of_lt (h : n < 2 ^ 31) : s32 (BitVec.ofNat 32 n) = n := by
  have hn : (BitVec.ofNat 32 n).toNat = n := by
    rw [BitVec.toNat_ofNat]
    omega
  rw [s32_of_lt (hn.symm ▸ h), hn]

theorem ibufCap_lt_of_wellFormed {p : Params} (hp : p.wellFormed = true) : p.ibufCap < 2 ^ 31 := by
  have hmax : p.ibufCap ≤ Params.maxCap := by simp_all [Params.wellFormed]
  exact hmax.trans_lt (by decide)

/-- A file within IBUF whose extension fits EXTBUF passes the checks on its header (R222). -/
theorem HoldsFile.headerPasses (h : HoldsFile ext a total payload k s) (hp : s.params.wellFormed = true)
    (hin : s.inLen.toNat ≤ s.params.ibufCap) (hext : ext.length ≤ s.params.extCap) :
    HeaderPasses ext.length k s := by
  have hlen := h.length
  have hcap := ibufCap_lt_of_wellFormed hp
  refine ⟨hin, h.magic, ?_, hext, ?_, by omega⟩
  · rw [h.extLenField, s32_ofNat_of_lt (by omega)]
  · rw [h.treeLenField, s32_ofNat_of_lt (by omega)]

theorem HoldsFile.start (h : HoldsFile ext a total payload k s) : HoldsFile ext a total payload k s.decompressStart :=
  ⟨h.length, h.magic, h.extLenField, h.extBytes, h.treeLenField, h.treeBytes, h.totalField, h.payloadBytes⟩

/-! ### What DECOMPRESS makes of it -/

/-- After the copy of an extension and the parse of a tree the extension stands in EXTBUF (R220). -/
theorem OnlyTree.bytes_extbuf_of_copyExt (h : OnlyTree (copyExt n 0 s) t) :
    t.bytes .extbuf 0 n = s.bytes .ibuf 11 n := by
  have hcopy := copyExt_bytes n 0 s
  obtain ⟨_, _, _, _, _, _, rfl⟩ := h
  exact hcopy

/-- Bits that hold the symbols to decode, with room for them in OBUF, are decoded (R220). -/
theorem decompressPayload_of_decoded (htree : TreeOf s (a.numbered 0)) (hlen : i + 4 ≤ s.inLen.toNat)
    (hfield : s.memRead4 .ibuf i = total) (htotal : total.toNat < 2 ^ 31) (hroom : total.toNat ≤ s.params.obufCap)
    (hdecode : a.decode total.toNat (bitsOf (s.bytes .ibuf (i + 4) (s.inLen.toNat - (i + 4)))) = some out) :
    ∃ w, decompressPayload n i s = .ok w ∧ w.output = out ∧ w.outLen = total ∧ w.total = total
      ∧ w.extLen = BitVec.ofNat 32 n ∧ w.mem.extbuf = s.mem.extbuf := by
  obtain ⟨hcount, rfl⟩ := decode_eq_some_iff.mp hdecode
  have htake := List.length_take_of_le hcount
  obtain ⟨v, hv, hwrote⟩ := (payload_decodes htree (i + 4) total.toNat).of_room hcount ((Nat.zero_add _).trans_le hroom)
  obtain ⟨houtLen, hout, -⟩ := hwrote.output_of_lt (s := s.setPhase .unpack) (htake.trans_lt total.isLt)
  refine ⟨{ v.setOutLen with total := total, extLen := BitVec.ofNat 32 n }, ?_, hout,
    BitVec.eq_of_toNat_eq (houtLen.trans htake), rfl, rfl, ?_⟩
  · rw [decompressPayload_of_total hlen (c := total.toNat) (by rw [hfield, s32_of_lt htotal]), hv, Run.map_ok, hfield]
  · obtain ⟨_, _, rfl⟩ := hwrote.frame
    rfl

/-- DECOMPRESS of a file within the capacities decodes the symbols and copies the extension (R220, R223). -/
theorem HoldsFile.decompressBody_eq (h : HoldsFile ext a total payload k s) (hp : s.params.wellFormed = true)
    (hin : s.inLen.toNat ≤ s.params.ibufCap) (hext : ext.length ≤ s.params.extCap) (hcap : a.numNodes ≤ nodeCap)
    (htotal : total.toNat < 2 ^ 31) (hroom : total.toNat ≤ s.params.obufCap)
    (hdecode : a.decode total.toNat (bitsOf payload) = some out) :
    ∃ w, decompressBody s = .ok w ∧ w.output = out ∧ w.outLen = total ∧ w.total = total
      ∧ w.extLen.toNat = ext.length ∧ w.extension = ext := by
  have hlen := h.length
  have hcapLt := ibufCap_lt_of_wellFormed hp
  obtain ⟨u, hbody, htree, hframe⟩ :=
    (h.headerPasses hp hin hext).decompressBody_of_tree (flags_ne_of_wellFormed hp) hcap h.treeBytes
  obtain ⟨hparams, hinLen, hread, hread4⟩ := hframe.fileKept_of_copyExt
  obtain ⟨w, hw, hout, houtLen, htot, hextLen, hextbuf⟩ := decompressPayload_of_decoded (n := ext.length)
    (i := 15 + ext.length + k) htree (by rw [hinLen]; omega) (by rw [hread4, h.totalField]) htotal
    (by rwa [hparams]) (by rwa [hread, hinLen, hlen, Nat.add_sub_cancel_left, h.payloadBytes])
  have hextNat : w.extLen.toNat = ext.length := by
    rw [hextLen, BitVec.toNat_ofNat]
    omega
  refine ⟨w, hbody.trans hw, hout, houtLen, htot, hextNat, ?_⟩
  calc w.extension = w.bytes .extbuf 0 ext.length := congrArg (w.bytes .extbuf 0) hextNat
    _ = u.bytes .extbuf 0 ext.length := bytes_congr fun _ _ _ => memRead_congr (sp := .extbuf) hextbuf _
    _ = s.bytes .ibuf 11 ext.length := hframe.bytes_extbuf_of_copyExt
    _ = ext := h.extBytes

/-- Settles O47: the file's parts stand where DECOMPRESS looks for them, and what it keeps it keeps in every outcome. -/
theorem decompressReadsAWellFormedFile : Obligations.DecompressReadsAWellFormedFile := by
  intro s ext payload out shape total hp hin hinput hext hcap htotal hroom hdecode
  obtain ⟨w, hbody, hout, houtLen, htot, hextLen, hextension⟩ :=
    (holdsFile_of_input hinput).start.decompressBody_eq hp hin hext hcap htotal hroom hdecode
  obtain ⟨hexec, hsucc⟩ := decompress_succeeds hbody
  obtain ⟨henv, hinLen, -⟩ := commandsKeepTheOtherRegisters _ _ _ hexec
  obtain ⟨hibuf, -, hobuf, -, hextbuf, -⟩ := commandsKeepTheOtherBytes _ _ _ hp hexec
  exact ⟨_, hexec, hsucc, cleanTables_cleanTables w, hout, houtLen, htot, hextLen, hextension, hinLen nofun, henv,
    hibuf, hobuf (by simp) hsucc.err, hextbuf rfl hsucc.err⟩

end Sys2Proof.Machine
end

section
/-! SUPPORT. The tables that COMPRESS makes of its input (45_orchestration.md R210, R211, R217): on every input within
IBUF the first phases end, and the tree they leave depends on the input alone. -/

namespace Sys2Proof.Machine

variable {s t u v x : State} {a : NodeTree}

/-! ### COUNT and BUILD -/

theorem leafRecords_ne_nil (h : present s ≠ []) : s.leafRecords ≠ [] := by
  simpa [State.leafRecords] using h

/-- BUILD's body makes of some present symbols a tree that carries each of them once; from the same counts it makes the
same tree (R140, R141). -/
theorem exists_tree_of_present (hs : present s ≠ []) (hcells : s.node.cells = []) :
    ∃ a : NodeTree, a.shape.symbols.Perm (present s)
      ∧ ∀ t : State, t.freq = s.freq → t.node.cells = [] → ∃ u, buildBody t = .ok u ∧ TreeOf u a := by
  obtain ⟨u, hu, hbuilt⟩ := buildBody_of_present (leafRecords_ne_nil hs)
  have hcases := @buildBody_cases s (by simp [Store.wf, hcells, risingFrom]) (by simp [Store.below, hcells])
  obtain ⟨u', a, hu', -, -, -, -, htree⟩ := hcases.resolve_left (by simp [hu])
  obtain rfl : u' = u := Run.ok.inj (hu'.symm.trans hu)
  refine ⟨a, hbuilt.symbols_perm htree, fun t hfreq ht => ?_⟩
  obtain ⟨v, hv, hsame⟩ := buildBody_of_same_freq hfreq hcells ht hu
  exact ⟨v, hv, treeOf_congr htree hsame⟩

/-- COUNT's body on an input within IBUF, from the start of COMPRESS (R130). -/
theorem countBody_of_compressStart (hne : s.inLen ≠ 0) (hcap : s.inLen.toNat ≤ s.params.ibufCap) :
    ∃ c, countBody s.compressStart = .ok c ∧ c.total = s.inLen ∧ c.node.cells = []
      ∧ ∀ sym, (c.freqOf sym).toNat = s.input.count sym := by
  obtain ⟨f, q, hc, hcount⟩ := countBody_of_clean (s := s.compressStart) hne hcap fun _ => Vector.getElem_replicate _
  exact ⟨_, hc, rfl, rfl, hcount⟩

/-- The symbols present in the counts of an input are those of the input (R131). -/
theorem mem_present_of_counts {l : List Byte} (h : ∀ sym, (t.freqOf sym).toNat = l.count sym) {sym : Byte} :
    sym ∈ present t ↔ sym ∈ l := by
  rw [mem_present, ← List.count_pos_iff, ← h sym, Nat.pos_iff_ne_zero, ne_eq, ne_eq, ← BitVec.toNat_inj]
  rfl

theorem input_ne_nil (hne : s.inLen ≠ 0) : s.input ≠ [] := by
  intro h
  exact hne (BitVec.eq_of_toNat_eq ((length_input s).symm.trans (congrArg List.length h)))

/-! ### The tables -/

/-- The first phases of COMPRESS on `s` end in `x`, with the tree `a` in NODE and its code table in LUT; every byte of
the input is a symbol of the tree (R210, R211). -/
structure Tabulates (s : State) (a : NodeTree) (x : State) : Prop where
  made : compressTables s.compressStart = .ok x
  total : x.total = s.inLen
  tree : TreeOf x a
  table : TableOf x a.shape
  symbols : ∀ b ∈ s.input, b ∈ a.shape.symbols

/-- The first phases of COMPRESS end on every input within IBUF, with a tree that depends on the input alone (R217). -/
theorem exists_tabulates_of_input (hne : s.inLen ≠ 0) (hcap : s.inLen.toNat ≤ s.params.ibufCap) :
    ∃ a, ∀ t : State, t.input = s.input → t.inLen = s.inLen → t.inLen.toNat ≤ t.params.ibufCap →
      ∃ x, Tabulates t a x := by
  obtain ⟨c, -, -, hcells, hcount⟩ := countBody_of_compressStart hne hcap
  have hpresent (sym : Byte) : sym ∈ present c ↔ sym ∈ s.input := mem_present_of_counts hcount
  obtain ⟨b, hb⟩ := List.exists_mem_of_ne_nil _ (input_ne_nil hne)
  obtain ⟨a, hperm, hbuild⟩ := exists_tree_of_present (List.ne_nil_of_mem ((hpresent b).mpr hb)) hcells
  refine ⟨a, fun t hinput hlen hcapt => ?_⟩
  obtain ⟨d, hd, htotal, hcellst, hcountt⟩ := countBody_of_compressStart (hlen ▸ hne) hcapt
  have hfreq : d.freq = c.freq :=
    freq_ext fun sym => BitVec.eq_of_toNat_eq (by rw [hcountt, hcount, hinput])
  obtain ⟨u, hu, htree⟩ := hbuild (d.setPhase .build) hfreq hcellst
  obtain ⟨l, q, hx, -, -, htable⟩ := gencodesBody_of_tree (s := u.setPhase .gen) (treeOf_congr htree)
  have hframe := onlyTree_of_buildBody hu
  have hmade : compressTables t.compressStart = gencodesBody (u.setPhase .gen) := by
    rw [compressTables, hd, Run.bind_ok, hu, Run.bind_ok]
  refine ⟨_, hmade.trans hx, ?_, treeOf_congr htree, htable,
    fun b hb => hperm.mem_iff.mpr ((hpresent b).mpr (hinput ▸ hb))⟩
  obtain ⟨_, _, _, _, _, _, rfl⟩ := hframe
  exact htotal

theorem exists_tabulates (hne : s.inLen ≠ 0) (hcap : s.inLen.toNat ≤ s.params.ibufCap) : ∃ a x, Tabulates s a x := by
  obtain ⟨a, h⟩ := exists_tabulates_of_input hne hcap
  exact ⟨a, h s rfl rfl hcap⟩

/-- What the first phases of COMPRESS keep (R210). -/
theorem Tabulates.keeps (h : Tabulates s a x) :
    x.params = s.params ∧ x.extLen = s.extLen ∧ x.extension = s.extension ∧ x.input = s.input := by
  obtain ⟨hparams, hextLen, hextension, hinput, -⟩ := compressTables_keeps h.made
  exact ⟨hparams, hextLen, hextension, hinput⟩

/-- Every byte of the input has a code (R162). -/
theorem Tabulates.coded (h : Tabulates s a x) : ∀ b ∈ x.input, (x.lutRead b).len ≠ 0 := by
  obtain ⟨-, -, -, hinput⟩ := h.keeps
  intro b hb
  rw [State.lutRead, Store.read_of_get? _ (h.table b), len_lutEntry_ne_zero_iff (numLeaves_le_of_treeOf h.tree)]
  exact h.symbols b (hinput ▸ hb)

/-! ### The file -/

/-- The file COMPRESS makes of the input and the extension of `s` and the tables in `x` (R96, R210). -/
def State.fileWith (s : State) (a : NodeTree) (x : State) : List Byte :=
  fileOf s.params s.extension a.shape s.inLen (packedBytes x.payloadBits)

/-- Behind their tables the phases of COMPRESS put the file, or are Resource since it does not fit OBUF (R210, R255). -/
theorem Tabulates.compressFile_puts (h : Tabulates s a x) (hext : s.extLen.toNat ≤ s.params.extCap) :
    (compressFile x).Puts (s.fileWith a x) (fun _ => True) (x.setOpos 0) := by
  obtain ⟨hparams, hextLen, hextension, -⟩ := h.keeps
  have hputs := Machine.compressFile_puts h.tree (by rwa [hextLen, hparams]) h.coded
  rwa [hparams, hextension, h.total] at hputs

/-- The length of the file (R100). -/
theorem Tabulates.length_fileWith (h : Tabulates s a x) :
    (s.fileWith a x).length = 19 + s.extLen.toNat + (3 * x.nleaf.toNat - 1) + (x.payloadBits.length + 7) / 8 := by
  rw [State.fileWith, length_fileOf, length_extension, length_serial_of_treeOf h.tree, length_packedBytes]

/-! ### The outcomes of COMPRESS behind its tables -/

/-- An extension that does not fit EXTBUF is Resource (R210, R255). -/
theorem Tabulates.compress_of_long_ext (h : Tabulates s a x) (hext : s.params.extCap < s.extLen.toNat) :
    CompressFails .resource s := by
  obtain ⟨hparams, hextLen, -⟩ := h.keeps
  have hlong : (x.setPhase .hdr).params.extCap < (x.setPhase .hdr).extLen.toNat := by
    simpa [hparams, hextLen] using hext
  refine compress_fails (u := x.setPhase .hdr) ?_
  rw [h.made, Run.bind_ok, compressFile, compressHeader, if_pos hlong, Run.bind_raised]

/-- A file that does not fit OBUF is Resource (R255). -/
theorem Tabulates.compress_of_full (h : Tabulates s a x) (hext : s.extLen.toNat ≤ s.params.extCap)
    (hfull : s.params.obufCap < (s.fileWith a x).length) : CompressFails .resource s := by
  obtain ⟨hparams, -⟩ := h.keeps
  obtain ⟨t, ht⟩ := (h.compressFile_puts hext).of_full (Nat.zero_le _) (by simpa [hparams] using hfull)
  exact compress_fails (by rw [h.made, Run.bind_ok, ht])

/-- A file that fits OBUF is the output, as far as OUT_LEN can count it (R210). -/
theorem Tabulates.compress_of_room (h : Tabulates s a x) (hext : s.extLen.toNat ≤ s.params.extCap)
    (hroom : (s.fileWith a x).length ≤ s.params.obufCap) :
    ∃ t, exec .compress s = .next t ∧ Succeeded t ∧ CleanTables t ∧ t.total = s.inLen
      ∧ t.outLen = BitVec.ofNat 32 (s.fileWith a x).length ∧ t.output = (s.fileWith a x).take t.outLen.toNat := by
  obtain ⟨hparams, -⟩ := h.keeps
  obtain ⟨v, hv, hwrote, -⟩ := (h.compressFile_puts hext).of_room (by simpa [hparams] using hroom)
  obtain ⟨hexec, hsucc⟩ := compress_succeeds h.made hv
  have hopos : v.seq.opos = (s.fileWith a x).length := hwrote.opos.trans (Nat.zero_add _)
  refine ⟨_, hexec, hsucc, cleanTables_cleanTables v.setOutLen, hwrote.frame.total_eq.trans h.total,
    congrArg (BitVec.ofNat 32) hopos, ?_⟩
  have hle : v.setOutLen.outLen.toNat ≤ (s.fileWith a x).length := by
    rw [State.setOutLen_outLen, hopos, BitVec.toNat_ofNat]
    exact Nat.mod_le _ _
  have hbytes : v.bytes .obuf 0 (s.fileWith a x).length = s.fileWith a x := hwrote.bytes
  have htake := bytes_add v .obuf 0 v.setOutLen.outLen.toNat ((s.fileWith a x).length - v.setOutLen.outLen.toNat)
  rw [Nat.add_sub_cancel' hle, hbytes] at htake
  change v.bytes .obuf 0 v.setOutLen.outLen.toNat = (s.fileWith a x).take v.setOutLen.outLen.toNat
  rw [htake, List.take_left' (length_bytes _ _ _ _)]

end Sys2Proof.Machine
end

section
/-! SUPPORT. The outcomes of COMPRESS (45_orchestration.md R210, R212, R213, R217): its errors in their order, room for
its longest file, and that it depends on its inputs and the capacities alone. -/

namespace Sys2Proof.Machine

variable {s s' t t' u v x x' : State} {a : NodeTree} {e : ErrKind}

/-! ### The errors -/

/-- A check of COUNT that fails ends COMPRESS (R210, R212). -/
theorem compress_of_count_raised (h : countBody s.compressStart = .raised e s.compressStart) :
    CompressFails e s :=
  compress_fails (by rw [compressTables, h, Run.bind_raised, Run.bind_raised])

theorem compress_of_oversized (h : s.params.ibufCap < s.inLen.toNat) : CompressFails .resource s :=
  compress_of_count_raised (countBody_of_oversized h)

theorem compress_of_empty (h : s.inLen = 0) : CompressFails .emptyInput s :=
  compress_of_count_raised (countBody_of_empty h)

/-- COUNT, BUILD and GENCODES succeed on an input within IBUF and keep it. -/
theorem components_keep_input (hne : s.inLen ≠ 0) (hcap : s.inLen.toNat ≤ s.params.ibufCap)
    (hcount : exec .count s = .next t) (hbuild : exec .build t = .next u) (hgen : exec .gencodes u = .next v) :
    t.err = false ∧ v.treeValid = true ∧ v.input = s.input := by
  obtain ⟨t', ht, hpc, -, -, hteq, -⟩ := countCompletes s hne hcap
  obtain rfl := Host.Outcome.next.inj (ht.symm.trans hcount)
  obtain ⟨-, -, herr, -⟩ := succeeded_of_asSucceeded hpc hteq
  obtain ⟨u', a, hu, -, htree, -, -, hueq⟩ := exec_build (present_ne_nil_of_count hcount herr)
  obtain rfl := Host.Outcome.next.inj (hu.symm.trans hbuild)
  have hvalid : u'.treeValid = true := by
    rw [hueq]
    rfl
  obtain ⟨v', hv, -, -, hveq⟩ := exec_gencodes hvalid htree
  obtain rfl := Host.Outcome.next.inj (hv.symm.trans hgen)
  have hinputt : t'.input = s.input := by
    rw [hteq]
    rfl
  have hinputu : u'.input = t'.input := by
    rw [hueq]
    rfl
  have hinputv : v'.input = u'.input := by
    rw [hveq]
    rfl
  exact ⟨herr, by rw [hveq]; exact hvalid, hinputv.trans (hinputu.trans hinputt)⟩

/-- The tables of COMPRESS and those of COUNT, BUILD and GENCODES have the same number of leaves and give the input the
same codes (R104). -/
theorem Tabulates.agrees_with_components (h : Tabulates s a x) (hne : s.inLen ≠ 0)
    (hcap : s.inLen.toNat ≤ s.params.ibufCap) (hcount : exec .count s = .next t) (hbuild : exec .build t = .next u)
    (hgen : exec .gencodes u = .next v) : x.nleaf = v.nleaf ∧ x.payloadBits = v.payloadBits := by
  obtain ⟨herr, hvalid, hinput⟩ := components_keep_input hne hcap hcount hbuild hgen
  obtain ⟨y, b, hy, -, ⟨-, -, -, hleavesy⟩, ⟨-, -, -, hleavesv⟩, hlut⟩ :=
    compressTables_of_components hcount herr hbuild hgen hvalid
  obtain rfl : y = x := Run.ok.inj (hy.symm.trans h.made)
  obtain ⟨-, -, -, hinputx⟩ := h.keeps
  exact ⟨BitVec.eq_of_toNat_eq (hleavesy.symm.trans hleavesv), payloadBits_congr (hinputx.trans hinput.symm) hlut⟩

/-- Settles O45: the checks of COUNT come first, then that on the extension, and last the file has to fit OBUF. -/
theorem compressErrors : Obligations.CompressErrors := by
  intro s
  refine ⟨compress_of_oversized, compress_of_empty, fun hne hcap hext => ?_,
    fun t u v hne hcap hext hcount hbuild hgen hfull => ?_⟩
  · obtain ⟨a, x, h⟩ := exists_tabulates hne hcap
    exact h.compress_of_long_ext hext
  · obtain ⟨a, x, h⟩ := exists_tabulates hne hcap
    obtain ⟨hleaves, hbits⟩ := h.agrees_with_components hne hcap hcount hbuild hgen
    exact h.compress_of_full hext (by rwa [h.length_fileWith, hleaves, hbits])

/-! ### Room for the longest file -/

/-- A code has at most 255 bits (R31). -/
theorem length_bitsFor_le (s : State) (l : List Byte) : (s.bitsFor l).length ≤ 255 * l.length := by
  induction l with
  | nil => exact Nat.le_refl 0
  | cons b rest ih =>
    have hlen := length_codeBits (s.lutRead b)
    have hlt := (s.lutRead b).len.isLt
    have hcons : s.bitsFor (b :: rest) = codeBits (s.lutRead b) ++ s.bitsFor rest := List.flatMap_cons
    rw [hcons, List.length_append, List.length_cons]
    omega

/-- No file is longer than its 19 bytes of header, the largest tree, the extension and 32 bytes for each symbol. -/
theorem Tabulates.length_fileWith_le (h : Tabulates s a x) (hne : s.inLen ≠ 0) :
    (s.fileWith a x).length ≤ 786 + s.extLen.toNat + 32 * s.inLen.toNat := by
  obtain ⟨-, -, -, hinput⟩ := h.keeps
  have hbits := length_bitsFor_le x x.input
  rw [← State.payloadBits, hinput, length_input] at hbits
  have hleaves := numLeaves_le_of_treeOf h.tree
  obtain ⟨-, -, -, hnleaf⟩ := h.tree
  have hpos : s.inLen.toNat ≠ 0 := fun h0 => hne (BitVec.eq_of_toNat_eq h0)
  rw [h.length_fileWith]
  omega

/-- Settles O43: the longest file fits OBUF, and what COMPRESS keeps it keeps in every outcome. -/
theorem compressCompletes : Obligations.CompressCompletes := by
  intro s hp hne hcap hext hroom
  obtain ⟨a, x, h⟩ := exists_tabulates hne hcap
  obtain ⟨t, hexec, hsucc, hclean, htotal, -⟩ :=
    h.compress_of_room hext ((h.length_fileWith_le hne).trans hroom)
  obtain ⟨⟨hparams, hhost, hlast, hfree⟩, hinLen, hextLen, -⟩ := commandsKeepTheOtherRegisters _ _ _ hexec
  obtain ⟨-, -, hobuf, -⟩ := commandsKeepTheOtherBytes _ _ _ hp hexec
  obtain ⟨⟨hibuf, -, hextbuf⟩, -⟩ := exec_keepsBytes _ hp hexec
  refine ⟨t, hexec, hsucc, hclean, htotal, hobuf (by simp) hsucc.err, ?_⟩
  simp only [← hibuf, ← hextbuf nofun, ← hparams, ← hhost, ← hlast, ← hfree, ← hinLen nofun, ← hextLen nofun nofun]

/-! ### The inputs alone -/

/-- The inputs, the capacities and the flag bytes of the format are in `s'` as in `s` (R217). -/
structure SameInputs (s s' : State) : Prop where
  ibufCap : s'.params.ibufCap = s.params.ibufCap
  obufCap : s'.params.obufCap = s.params.obufCap
  extCap : s'.params.extCap = s.params.extCap
  flagInternal : s'.params.flagInternal = s.params.flagInternal
  flagLeaf : s'.params.flagLeaf = s.params.flagLeaf
  inLen : s'.inLen = s.inLen
  extLen : s'.extLen = s.extLen
  input : s'.input = s.input
  extension : s'.extension = s.extension

/-- What two ends of COMPRESS have in common: the output and its registers, STATUS but for the two flags of the tables,
and pc. -/
structure SameEnd (t t' : State) : Prop where
  output : t'.output = t.output
  outLen : t'.outLen = t.outLen
  total : t'.total = t.total
  busy : t'.busy = t.busy
  done : t'.done = t.done
  err : t'.err = t.err
  errCode : t'.errCode = t.errCode
  pc : t'.seq.pc = t.seq.pc

theorem output_of_outLen_zero (h : t.outLen = 0) : t.output = [] :=
  List.eq_nil_of_length_eq_zero (by rw [length_output, h]; rfl)

/-- From `s` and `s'` COMPRESS fails with the same error. -/
theorem sameEnd_of_failed (h : CompressFails e s) (h' : CompressFails e s') :
    ∃ t t', exec .compress s = .next t ∧ exec .compress s' = .next t' ∧ SameEnd t t' := by
  obtain ⟨t, hexec, ⟨hbusy, hdone, herr, hcode, hout, hpc⟩, htotal, -⟩ := h
  obtain ⟨t', hexec', ⟨hbusy', hdone', herr', hcode', hout', hpc'⟩, htotal', -⟩ := h'
  exact ⟨t, t', hexec, hexec', by rw [output_of_outLen_zero hout, output_of_outLen_zero hout'],
    hout'.trans hout.symm, htotal'.trans htotal.symm, hbusy'.trans hbusy.symm, hdone'.trans hdone.symm,
    herr'.trans herr.symm, hcode'.trans hcode.symm, hpc'.trans hpc.symm⟩

/-- The file depends on the inputs and the tree alone (R217). -/
theorem SameInputs.fileWith_eq (hs : SameInputs s s') (h : Tabulates s a x) (h' : Tabulates s' a x') :
    s'.fileWith a x' = s.fileWith a x := by
  obtain ⟨-, -, -, hinput⟩ := h.keeps
  obtain ⟨-, -, -, hinput'⟩ := h'.keeps
  have hbits : x'.payloadBits = x.payloadBits :=
    payloadBits_congr (hinput'.trans (hs.input.trans hinput.symm)) (TableOf.lutRead_eq h.table h'.table)
  simp only [State.fileWith, fileOf, hbits, hs.extension, hs.inLen, hs.flagInternal, hs.flagLeaf]

/-- From the same inputs COMPRESS comes to the same end: the same check fails, or the same file is put. -/
theorem SameInputs.sameEnd (hs : SameInputs s s') :
    ∃ t t', exec .compress s = .next t ∧ exec .compress s' = .next t' ∧ SameEnd t t' := by
  by_cases hcap : s.params.ibufCap < s.inLen.toNat
  · exact sameEnd_of_failed (compress_of_oversized hcap) (compress_of_oversized (by rwa [hs.ibufCap, hs.inLen]))
  by_cases hne : s.inLen = 0
  · exact sameEnd_of_failed (compress_of_empty hne) (compress_of_empty (by rw [hs.inLen, hne]))
  obtain ⟨a, htables⟩ := exists_tabulates_of_input hne (Nat.le_of_not_lt hcap)
  obtain ⟨x, h⟩ := htables s rfl rfl (Nat.le_of_not_lt hcap)
  obtain ⟨x', h'⟩ := htables s' hs.input hs.inLen (by rw [hs.ibufCap, hs.inLen]; exact Nat.le_of_not_lt hcap)
  have hfile := hs.fileWith_eq h h'
  by_cases hext : s.params.extCap < s.extLen.toNat
  · exact sameEnd_of_failed (h.compress_of_long_ext hext) (h'.compress_of_long_ext (by rwa [hs.extCap, hs.extLen]))
  have hext' : s'.extLen.toNat ≤ s'.params.extCap := by rw [hs.extCap, hs.extLen]; exact Nat.le_of_not_lt hext
  by_cases hfull : s.params.obufCap < (s.fileWith a x).length
  · exact sameEnd_of_failed (h.compress_of_full (Nat.le_of_not_lt hext) hfull)
      (h'.compress_of_full hext' (by rwa [hs.obufCap, hfile]))
  obtain ⟨t, hexec, ⟨hbusy, hdone, herr, hcode, hpc⟩, -, htotal, houtLen, hout⟩ :=
    h.compress_of_room (Nat.le_of_not_lt hext) (Nat.le_of_not_lt hfull)
  obtain ⟨t', hexec', ⟨hbusy', hdone', herr', hcode', hpc'⟩, -, htotal', houtLen', hout'⟩ :=
    h'.compress_of_room hext' (by rw [hs.obufCap, hfile]; exact Nat.le_of_not_lt hfull)
  rw [hfile] at houtLen' hout'
  have hlen : t'.outLen = t.outLen := houtLen'.trans houtLen.symm
  exact ⟨t, t', hexec, hexec', by rw [hout', hlen, hout], hlen, by rw [htotal', htotal, hs.inLen],
    hbusy'.trans hbusy.symm, hdone'.trans hdone.symm, herr'.trans herr.symm, hcode'.trans hcode.symm,
    hpc'.trans hpc.symm⟩

/-- Settles O46: the same end on the same inputs, and the rest of the state is clean tables and kept registers. -/
theorem compressIsPure : Obligations.CompressIsPure := by
  intro s s' t hibuf hobuf hextCap hinternal hleaf hinLen hextLen hinput hextension h
  obtain ⟨u, t', hu, h', hend⟩ :=
    SameInputs.sameEnd ⟨hibuf, hobuf, hextCap, hinternal, hleaf, hinLen, hextLen, hinput, hextension⟩
  obtain rfl := Host.Outcome.next.inj (hu.symm.trans h)
  obtain ⟨⟨hfreq, hvalid, hlut, hnleaf, hnnode, hroot⟩, -⟩ := compress_ends h
  obtain ⟨⟨hfreq', hvalid', hlut', hnleaf', hnnode', hroot'⟩, -⟩ := compress_ends h'
  obtain ⟨-, hkeptIn, hkeptExt, -⟩ := commandsKeepTheOtherRegisters _ _ _ h
  obtain ⟨-, hkeptIn', hkeptExt', -⟩ := commandsKeepTheOtherRegisters _ _ _ h'
  refine ⟨t', h', hend.output, hend.outLen, hend.total, ?_, ?_, ?_, hend.pc,
    freq_ext fun sym => (hfreq' sym).trans (hfreq sym).symm, hnleaf'.trans hnleaf.symm, hnnode'.trans hnnode.symm,
    hroot'.trans hroot.symm⟩
  · rw [hkeptIn' nofun, hkeptIn nofun, hinLen]
  · rw [hkeptExt' nofun nofun, hkeptExt nofun nofun, hextLen]
  · simp only [State.statusWord, hend.busy, hend.done, hend.err, hend.errCode, hvalid, hvalid', hlut, hlut']

end Sys2Proof.Machine
end

section
/-! SUPPORT. The round trip (45_orchestration.md R224): the file of COMPRESS, loaded as the next input, is one that
DECOMPRESS reads, and its payload decodes to the input. -/

namespace Sys2Proof.Machine

variable {s t x : State} {a : NodeTree}

/-- A COMPRESS without error has written the file of its tables (R210, R212). -/
theorem compress_results (hp : s.params.wellFormed = true) (h : exec .compress s = .next t) (ht : t.err = false) :
    ∃ a x, Tabulates s a x ∧ s.inLen.toNat ≤ s.params.ibufCap ∧ s.extLen.toNat ≤ s.params.extCap
      ∧ t.output = s.fileWith a x := by
  have hno {e : ErrKind} (hfail : CompressFails e s) :
      False := by
    obtain ⟨t', h', ⟨-, -, herr, -⟩, -⟩ := hfail
    obtain rfl := Host.Outcome.next.inj (h'.symm.trans h)
    simp [ht] at herr
  have hcap := Nat.le_of_not_lt fun hlt => hno (compress_of_oversized hlt)
  have hne : s.inLen ≠ 0 := fun h0 => hno (compress_of_empty h0)
  obtain ⟨a, x, htab⟩ := exists_tabulates hne hcap
  have hext := Nat.le_of_not_lt fun hlt => hno (htab.compress_of_long_ext hlt)
  have hroom := Nat.le_of_not_lt fun hlt => hno (htab.compress_of_full hext hlt)
  obtain ⟨t', h', -, -, -, houtLen, hout⟩ := htab.compress_of_room hext hroom
  obtain rfl := Host.Outcome.next.inj (h'.symm.trans h)
  have hlen : t'.outLen.toNat = (s.fileWith a x).length := by
    rw [houtLen, BitVec.toNat_ofNat, Nat.mod_eq_of_lt (hroom.trans_lt (obufCap_lt_of_wellFormed hp))]
  exact ⟨a, x, htab, hcap, hext, by rw [hout, hlen, List.take_length]⟩

/-- The payload of the tables of COMPRESS decodes to the input (R201). -/
theorem Tabulates.decode_payload (h : Tabulates s a x) :
    a.shape.decode s.inLen.toNat (bitsOf (packedBytes x.payloadBits)) = some s.input := by
  obtain ⟨-, -, -, hinput⟩ := h.keeps
  obtain ⟨pad, -, hbits⟩ := exists_bitsOf_packedBytes x.payloadBits
  have hlen : x.inLen.toNat = s.inLen.toNat := by rw [← length_input, hinput, length_input]
  rw [hbits, ← hlen, ← hinput]
  exact decode_payloadBits h.tree h.table (hinput ▸ h.symbols) _

/-- Settles O50: DECOMPRESS reads the file of COMPRESS as one of R96 within the capacities. -/
theorem decompressInvertsCompress : Obligations.DecompressInvertsCompress := by
  intro s t hp h ht hfit hroom
  obtain ⟨a, x, htab, hcap, hext, hout⟩ := compress_results hp h ht
  obtain ⟨⟨hparams, -⟩, -⟩ := commandsKeepTheOtherRegisters _ _ _ h
  have hinput : (loadInput t.output t).input = fileOf (loadInput t.output t).params s.extension a.shape s.inLen
      (packedBytes x.payloadBits) := by
    rw [input_loadInput (by rw [length_output]; exact t.outLen.isLt), hout, State.fileWith, ← hparams]
    rfl
  have hlen : (loadInput t.output t).inLen.toNat = t.outLen.toNat := by
    rw [← length_input, input_loadInput (by rw [length_output]; exact t.outLen.isLt), length_output]
  have hload : (loadInput t.output t).params = s.params := hparams
  obtain ⟨v, hexec, hsucc, -, hresult, houtLen, htotal, hextLen, hextension, -⟩ :=
    decompressReadsAWellFormedFile _ _ _ s.input a.shape s.inLen (hload ▸ hp) (by rwa [hlen, hload]) hinput
      (by rwa [length_extension, hload]) (numNodes_le_nodeCap htab.tree)
      (hcap.trans_lt (ibufCap_lt_of_wellFormed hp)) (by rwa [hload]) htab.decode_payload
  exact ⟨v, hexec, hsucc, hresult, htotal.trans houtLen.symm, houtLen,
    BitVec.eq_of_toNat_eq (hextLen.trans (length_extension s)), hextension⟩

end Sys2Proof.Machine
end

section
/-! SUPPORT. What NOP and CLEAR answer (46_control.md R240, R241). Neither has an error; each is the command start, its
pseudocode and the success exit (60_exceptions.md R257, R259). -/

namespace Sys2Proof.Machine

/-- The start and the success exit of a command together set only STATUS and the sequencer (R257, R259). -/
theorem successExit_commandStart (p : Phase) (s : State) :
    (s.commandStart.setPhase p).successExit = asSucceeded Seq.idle s := rfl

theorem exec_nop (s : State) : exec .nop s = .next (asSucceeded Seq.idle s) := by
  rw [← successExit_commandStart .idle s]
  exact command_of_ok (c := .nop) (body := .ok) rfl

/-- CLEAR answers the reset state with DONE = 1, and forgets the records of NODE and LUT; the buffers stay (R241). -/
theorem exec_clear (s : State) :
    exec .clear s = .next { State.resetWith s.params with
      done := true, mem := s.mem, host := s.host, lastRead := s.lastRead, freeCount := s.freeCount,
      node := s.node.forget, lut := s.lut.forget } := by
  calc exec .clear s
      = .next (State.successExit { (s.commandStart.setPhase .idle).cleanTables.clearTotal with
          inLen := 0, outLen := 0, extLen := 0 }) := by
        simp only [exec, execClear]
        exact command_of_ok rfl
    _ = _ := rfl

/-- Settles O21: NOP has no pseudocode between the command start and the success exit. -/
theorem nopOnlyAcknowledges : Obligations.NopOnlyAcknowledges :=
  fun s => ⟨_, exec_nop s, rfl, rfl⟩

/-- Settles O22: a forgotten store has no specified entry, and every other field is that of the state CLEAR answers. -/
theorem clearReturnsToReset : Obligations.ClearReturnsToReset :=
  fun s => ⟨_, exec_clear s, ⟨rfl, rfl, rfl, rfl⟩, rfl, rfl, Store.get?_forget s.node, Store.get?_forget s.lut, rfl⟩

end Sys2Proof.Machine
end

section
/-! SUPPORT. The errors that come before a command has done anything (60_exceptions.md R255, R256, R262, R263): an
illegal command word, a table that is not there, an input longer than IBUF; and the step without a host access. -/

namespace Sys2Proof.Machine

variable {s u : State} {e : ErrKind} {c : Instr}

/-! ### No command -/

/-- A word whose upper bits are not all zero, or whose opcode is none of R91's, is no command (R90, R102). -/
theorem decode_eq_error_of_illegal {w : Word}
    (h : zeroField w ≠ 0 ∨ opcodeField w ∉
      [0x00, 0x01, 0x02, 0x03, 0x04, 0x05, 0x06, 0x07, 0x08, 0x09, (0x0F : BitVec 8)]) :
    ∃ err, decode w = .error err := by
  cases hdec : decode w with
  | error err => exact ⟨err, rfl⟩
  | ok i =>
    obtain ⟨hzero, hop⟩ := decode_eq_ok_iff.mp hdec
    rcases h with hupper | hlisted
    · exact absurd hzero hupper
    · exact absurd (by rw [hop]; cases i <;> decide) hlisted

/-- Settles O8: the word does not decode, so only the command start and the error entry take place. -/
theorem illegalWordChangesOnlyStatusAndOutLen : Obligations.IllegalWordChangesOnlyStatusAndOutLen := by
  intro s w rest hb hhost hillegal
  obtain ⟨err, hdec⟩ := decode_eq_error_of_illegal hillegal
  refine ⟨State.illegalEntry (State.commandStart { s with host := rest }), ?_, rfl, rfl⟩
  rw [step_writeWord (off := 0) hhost rfl (by decide), hb]
  simp [regAt, writeReg, startCommand, hdec]

/-- Settles O9: the step has no access to perform. -/
theorem idleBlockKeepsItsState : Obligations.IdleBlockKeepsItsState := by
  intro s hhost
  simp only [step, hhost]

/-! ### A check that fails first -/

/-- A command that writes OBUF and fails its first checks leaves OBUF unspecified and the rest as before (R74, R258). -/
theorem failsWithoutOutput_of_check {p : Phase} (hc : c ∈ [Instr.serialize, .pack, .unpack])
    (h : exec c s = finish c (.raised e (s.commandStart.setPhase p))) : FailsWithoutOutput e c s := by
  refine ⟨s.mem.obuf.forget, Store.get?_forget _, (s.commandStart.setPhase p).errorEntry c e, h, rfl, ?_⟩
  simp only [List.mem_cons, List.not_mem_nil, or_false] at hc
  rcases hc with rfl | rfl | rfl <;> rfl

theorem gencodes_of_no_tree (h : s.treeValid = false) : FailsAs .precondition .gencodes s s := by
  have hcheck : ¬ (s.commandStart.setPhase .gen).treeValid = true := by simp [h]
  exact ⟨_, congrArg (finish .gencodes) (if_neg hcheck), rfl, rfl⟩

theorem serialize_of_no_tree (h : s.treeValid = false) : FailsWithoutOutput .precondition .serialize s := by
  have hcheck : ¬ (s.commandStart.setPhase .ser).treeValid = true := by simp [h]
  exact failsWithoutOutput_of_check (by simp) (congrArg (finish .serialize) (if_neg hcheck))

theorem unpack_of_no_tree (h : s.treeValid = false) : FailsWithoutOutput .precondition .unpack s :=
  failsWithoutOutput_of_check (p := .unpack) (by simp) (congrArg (finish .unpack) (if_pos h))

theorem pack_of_no_table (h : s.lutValid = false) : FailsWithoutOutput .precondition .pack s :=
  failsWithoutOutput_of_check (p := .pack) (by simp) (congrArg (finish .pack) (if_pos h))

/-- Settles O52: the check of the table is the first of each of the four commands. -/
theorem missingTableIsPrecondition : Obligations.MissingTableIsPrecondition := fun _ =>
  ⟨fun htree => ⟨gencodes_of_no_tree htree, serialize_of_no_tree htree, unpack_of_no_tree htree⟩, pack_of_no_table⟩

/-! ### An input longer than IBUF -/

theorem deserialize_of_oversized (h : s.params.ibufCap < s.inLen.toNat) :
    FailsWithoutTree .resource .deserialize s s :=
  ⟨_, _, Store.get?_forget _, Store.get?_forget _, _, congrArg (finish .deserialize) (if_pos h), rfl,
    errorEntry_of_deserializeRange (OnlyNode.refl _) _⟩

theorem pack_of_oversized (hlut : s.lutValid = true) (h : s.params.ibufCap < s.inLen.toNat) :
    FailsWithoutOutput .resource .pack s :=
  failsWithoutOutput_of_check (p := .pack) (by simp)
    (congrArg (finish .pack) ((if_neg (by simp [hlut])).trans (if_pos h)))

theorem unpack_of_oversized (htree : s.treeValid = true) (h : s.params.ibufCap < s.inLen.toNat) :
    FailsWithoutOutput .resource .unpack s :=
  failsWithoutOutput_of_check (p := .unpack) (by simp)
    (congrArg (finish .unpack) ((if_neg (by simp [htree])).trans (if_pos h)))

theorem decompress_of_oversized (h : s.params.ibufCap < s.inLen.toNat) : DecompressFails .resource s :=
  decompress_fails (u := s.decompressStart) (if_pos h)

/-! ### What fails shows the error -/

/-- The command `i` answers a next state from `s` that shows the error entry of the kind `e` (R258). -/
def Fails (e : ErrKind) (i : Instr) (s : State) : Prop := ∃ t, exec i s = .next t ∧ Failed e t

theorem FailsAs.fails (h : FailsAs e c s u) : Fails e c s := by
  obtain ⟨t, hexec, hpc, heq⟩ := h
  exact ⟨t, hexec, failed_of_asFailed hpc heq⟩

theorem FailsWithoutOutput.fails (h : FailsWithoutOutput e c s) : Fails e c s := by
  obtain ⟨_, -, hfails⟩ := h
  exact hfails.fails

theorem FailsWithoutTree.fails (h : FailsWithoutTree e c s u) : Fails e c s := by
  obtain ⟨_, _, -, -, hfails⟩ := h
  exact hfails.fails

theorem CompressFails.fails (h : CompressFails e s) : Fails e .compress s := by
  obtain ⟨t, hexec, hfailed, -⟩ := h
  exact ⟨t, hexec, hfailed⟩

theorem DecompressFails.fails (h : DecompressFails e s) : Fails e .decompress s := by
  obtain ⟨t, hexec, hfailed, -⟩ := h
  exact ⟨t, hexec, hfailed⟩

/-- Settles O51: each command checks IN_LEN first, or right behind the check of its table. -/
theorem oversizedInputIsResource : Obligations.OversizedInputIsResource := by
  intro s h
  refine ⟨?_, deserialize_of_oversized h, fun hlut => pack_of_oversized hlut h,
    fun htree => unpack_of_oversized htree h⟩
  simp only [List.forall_mem_cons, List.not_mem_nil, false_implies, implies_true, and_true]
  obtain ⟨hcount, -⟩ := countErrors s
  exact ⟨(hcount h).fails, (compress_of_oversized h).fails, (decompress_of_oversized h).fails⟩

end Sys2Proof.Machine
end

section
/-! SUPPORT. The error kinds that each piece of pseudocode can raise, whatever state it runs in (60_exceptions.md R250,
R264). -/

namespace Sys2Proof.Machine

variable {s : State} {e : ErrKind} {l : List ErrKind}

/-! ### The kinds a run can raise -/

/-- Where the run raises, the kind is one of the list. -/
def Run.RaisesOnly (l : List ErrKind) : Run → Prop
  | .ok _ => True
  | .raised e _ => e ∈ l
  | .stuck _ => True

@[simp] theorem Run.raised_raisesOnly : (Run.raised e s).RaisesOnly l ↔ e ∈ l := Iff.rfl

theorem Run.RaisesOnly.bind {r : Run} {k : State → Run} (hr : r.RaisesOnly l) (hk : ∀ t, (k t).RaisesOnly l) :
    (r.bind k).RaisesOnly l := by
  cases r with
  | ok t => exact hk t
  | raised e t => exact hr
  | stuck f => trivial

theorem Run.RaisesOnly.map {r : Run} {k : State → State} (hr : r.RaisesOnly l) : (r.map k).RaisesOnly l :=
  hr.bind fun _ => trivial

/-! ### The writers of OBUF -/

section
variable (hres : ErrKind.resource ∈ l)
include hres

theorem put_raisesOnly (b : Byte) (s : State) : (s.put b).RaisesOnly l := by
  rcases put_cases s b with ⟨-, h⟩ | ⟨-, h⟩
  · rw [h]; exact hres
  · rw [h]; trivial

theorem emitVisit_raisesOnly (i : NodeIdx) (s : State) : (emitVisit i s).RaisesOnly l := by
  simp only [emitVisit]
  split
  · exact (put_raisesOnly hres _ s).bind (put_raisesOnly hres _)
  · exact (put_raisesOnly hres _ s).map

theorem emitLoop_raisesOnly (k : Nat) (s : State) : (emitLoop k s).RaisesOnly l := by
  induction k generalizing s with
  | zero =>
    simp only [emitLoop]
    split <;> trivial
  | succ k ih =>
    simp only [emitLoop]
    split
    · trivial
    · exact (emitVisit_raisesOnly hres _ _).bind ih

theorem putBit_raisesOnly (b : Bool) (s : State) : (putBit b s).RaisesOnly l := by
  simp only [putBit]
  split
  · exact (put_raisesOnly hres _ _).map
  · trivial

theorem putBits_raisesOnly (bs : BitString) (s : State) : (putBits bs s).RaisesOnly l := by
  induction bs generalizing s with
  | nil => trivial
  | cons b rest ih => exact (putBit_raisesOnly hres b s).bind ih

theorem packSymbol_raisesOnly (hpre : ErrKind.precondition ∈ l) (s : State) : (packSymbol s).RaisesOnly l := by
  simp only [packSymbol]
  split
  · exact hpre
  · exact (putBits_raisesOnly hres _ s).map

theorem packLoop_raisesOnly (hpre : ErrKind.precondition ∈ l) (k : Nat) (s : State) : (packLoop k s).RaisesOnly l := by
  induction k generalizing s with
  | zero => trivial
  | succ k ih => exact (packSymbol_raisesOnly hres hpre s).bind ih

theorem packFlush_raisesOnly (s : State) : (packFlush s).RaisesOnly l := by
  simp only [packFlush]
  split
  · trivial
  · exact put_raisesOnly hres _ s

theorem packRange_raisesOnly (hpre : ErrKind.precondition ∈ l) (start stop : Nat) (s : State) :
    (packRange start stop s).RaisesOnly l :=
  (packLoop_raisesOnly hres hpre _ _).bind (packFlush_raisesOnly hres)

theorem emitSymbol_raisesOnly (sym : Byte) (s : State) : (emitSymbol sym s).RaisesOnly l :=
  (put_raisesOnly hres sym s).map

theorem unpackBit_raisesOnly (bit : Bool) (s : State) : (unpackBit bit s).RaisesOnly l := by
  unfold unpackBit
  split
  · exact emitSymbol_raisesOnly hres _ s
  · dsimp only
    generalize (if bit then (s.nodeRead s.seq.cur).right else (s.nodeRead s.seq.cur).left) = child
    split
    · exact (emitSymbol_raisesOnly hres _ _).map
    · trivial

theorem unpackLoop_raisesOnly (htrunc : ErrKind.truncatedStream ∈ l) (count k : Nat) (s : State) :
    (unpackLoop count k s).RaisesOnly l := by
  induction k generalizing s with
  | zero =>
    simp only [unpackLoop]
    split
    · exact htrunc
    · trivial
  | succ k ih =>
    simp only [unpackLoop]
    split
    · exact (unpackBit_raisesOnly hres _ _).bind ih
    · trivial

end

/-! ### The other pieces -/

/-- GENCODES raises nothing behind the check of its table (R160). -/
theorem walkLoop_raisesOnly (k : Nat) (s : State) : (walkLoop k s).RaisesOnly l := by
  induction k generalizing s with
  | zero =>
    simp only [walkLoop]
    split <;> trivial
  | succ k ih =>
    simp only [walkLoop]
    split
    · trivial
    · exact ih _

theorem gencodesBody_raisesOnly (s : State) : (gencodesBody s).RaisesOnly l := by
  refine Run.RaisesOnly.map ?_
  dsimp only
  split
  · trivial
  · exact walkLoop_raisesOnly _ _

/-- A parse raises CorruptTree alone (R177). -/
theorem deserializeRange_raisesOnly (hcorrupt : ErrKind.corruptTree ∈ l) (start stop : Nat) (s : State) :
    (deserializeRange start stop s).RaisesOnly l := by
  rcases deserializeRange_outcomes start stop s with ⟨t, ht, -⟩ | ⟨a, u, hu, -⟩
  · rw [ht]; exact hcorrupt
  · rw [hu]; trivial

theorem decompressPayload_raisesOnly (e p : Nat) (s : State) :
    (decompressPayload e p s).RaisesOnly (mayRaise .decompress) := by
  simp only [decompressPayload]
  split_ifs
  case neg => exact (unpackLoop_raisesOnly (by decide) (by decide) _ _ _).map
  all_goals simp [mayRaise]

theorem decompressTree_raisesOnly (e : Nat) (s : State) :
    (decompressTree e s).RaisesOnly (mayRaise .decompress) := by
  simp only [decompressTree]
  split_ifs
  case neg =>
    exact (deserializeRange_raisesOnly (by decide) _ _ _).bind fun _ => decompressPayload_raisesOnly _ _ _
  all_goals simp [mayRaise]

/-- The rows of R222: DECOMPRESS raises the kinds of its checks, of the parse and of the unpacker. -/
theorem decompressBody_raisesOnly (s : State) : (decompressBody s).RaisesOnly (mayRaise .decompress) := by
  simp only [decompressBody]
  split_ifs
  case neg => exact decompressTree_raisesOnly _ _
  all_goals simp [mayRaise]

end Sys2Proof.Machine
end

section
/-! SUPPORT. How every command ends, in every state: by the success exit, or by the error entry of a kind of its row of
the error matrix (60_exceptions.md R258, R259, R264). -/

namespace Sys2Proof.Machine

variable {s t : State} {e : ErrKind} {i : Instr}

/-! ### How a command ends -/

/-- Whenever the command `i` answers a next state from `s`, it has succeeded, or has failed with a kind of its row of
the error matrix (R264). -/
def EndsByMatrix (i : Instr) (s : State) : Prop :=
  ∀ t, exec i s = .next t → Succeeded t ∨ ∃ e ∈ mayRaise i, Failed e t

theorem Fails.endsByMatrix (h : Fails e i s) (he : e ∈ mayRaise i := by decide) : EndsByMatrix i s := by
  obtain ⟨u, hu, hfailed⟩ := h
  intro t ht
  obtain rfl : u = t := Host.Outcome.next.inj (hu.symm.trans ht)
  exact .inr ⟨e, he, hfailed⟩

theorem endsByMatrix_of_succeeds (h : ∃ u, exec i s = .next u ∧ Succeeded u) : EndsByMatrix i s := by
  obtain ⟨u, hu, hsucceeded⟩ := h
  intro t ht
  obtain rfl : u = t := Host.Outcome.next.inj (hu.symm.trans ht)
  exact .inl hsucceeded

/-- A command whose pseudocode keeps the ERR and ERRCODE of the command start and raises kinds of its row alone (R257,
R258, R259). -/
theorem endsByMatrix_of_run {r : Run} (hexec : exec i s = finish i r) (hframe : r.All (SameError t))
    (hkinds : r.RaisesOnly (mayRaise i)) (herr : t.err = false := by rfl) (hcode : t.errCode = 0 := by rfl) :
    EndsByMatrix i s := by
  intro v hv
  rcases finish_eq_next (hexec.symm.trans hv) with ⟨u, rfl, rfl⟩ | ⟨e, u, rfl, rfl⟩
  · exact .inl ⟨rfl, rfl, hframe.err.trans herr, hframe.errCode.trans hcode, rfl⟩
  · exact .inr ⟨e, hkinds, failed_errorEntry i e u⟩

/-- The commands that write OBUF, behind their checks (R172, R190, R196). -/
theorem endsByMatrix_of_output {r : Run} {p : Phase} (hexec : exec i s = finish i (r.map State.setOutLen))
    (hframe : r.All (OnlyOutput ((s.commandStart.setPhase p).setOpos 0))) (hkinds : r.RaisesOnly (mayRaise i)) :
    EndsByMatrix i s :=
  endsByMatrix_of_run hexec
    ((hframe.mono fun _ h => h.sameError).map (fun _ h => h) fun _ h => ⟨h.err, h.errCode⟩) hkinds.map

/-! ### Every command -/

theorem count_endsByMatrix (s : State) : EndsByMatrix .count s := by
  obtain ⟨hlong, hempty⟩ := countErrors s
  by_cases hcap : s.params.ibufCap < s.inLen.toNat
  · exact (hlong hcap).fails.endsByMatrix
  by_cases hne : s.inLen = 0
  · exact (hempty hne).fails.endsByMatrix
  obtain ⟨t, ht, hpc, -, -, heq, -⟩ := countCompletes s hne (Nat.le_of_not_lt hcap)
  exact endsByMatrix_of_succeeds ⟨t, ht, succeeded_of_asSucceeded hpc heq⟩

theorem build_endsByMatrix (s : State) : EndsByMatrix .build s := by
  by_cases hs : present s = []
  · exact (buildOfNothingIsEmptyInput s (freqOf_eq_zero_of_present_nil hs)).fails.endsByMatrix
  · obtain ⟨t, -, ht, -, -, -, hpc, heq⟩ := exec_build hs
    exact endsByMatrix_of_succeeds ⟨t, ht, succeeded_of_asSucceeded hpc heq⟩

theorem gencodes_endsByMatrix (s : State) : EndsByMatrix .gencodes s := by
  cases htree : s.treeValid with
  | false => exact (gencodes_of_no_tree htree).fails.endsByMatrix
  | true =>
    have hexec : exec .gencodes s = finish .gencodes (gencodesBody (s.commandStart.setPhase .gen)) :=
      congrArg (finish .gencodes) (if_pos htree)
    exact endsByMatrix_of_run hexec ((gencodesBody_onlyTable _).mono fun _ h => h.onlyTables.sameError)
      (gencodesBody_raisesOnly _)

theorem serialize_endsByMatrix (s : State) : EndsByMatrix .serialize s := by
  cases htree : s.treeValid with
  | false => exact (serialize_of_no_tree htree).fails.endsByMatrix
  | true =>
    exact endsByMatrix_of_output (exec_serialize_of_valid htree) (emitTree_onlyOutput _)
      (emitLoop_raisesOnly (by decide) _ _)

theorem deserialize_endsByMatrix (s : State) : EndsByMatrix .deserialize s := by
  rcases Nat.lt_or_ge s.params.ibufCap s.inLen.toNat with hcap | hcap
  · exact (deserialize_of_oversized hcap).fails.endsByMatrix
  · exact endsByMatrix_of_run (exec_deserialize_of_fits hcap)
      ((deserializeRange_onlyTree _ _ _).mono fun _ h => h.onlyTables.sameError)
      (deserializeRange_raisesOnly (by decide) _ _ _)

theorem pack_endsByMatrix (s : State) : EndsByMatrix .pack s := by
  cases hlut : s.lutValid with
  | false => exact (pack_of_no_table hlut).fails.endsByMatrix
  | true =>
    rcases Nat.lt_or_ge s.params.ibufCap s.inLen.toNat with hcap | hcap
    · exact (pack_of_oversized hlut hcap).fails.endsByMatrix
    · exact endsByMatrix_of_output (exec_pack_of_fits hlut hcap) (packRange_onlyOutput _ _ _)
        (packRange_raisesOnly (by decide) (by decide) _ _ _)

theorem unpack_endsByMatrix (s : State) : EndsByMatrix .unpack s := by
  cases htree : s.treeValid with
  | false => exact (unpack_of_no_tree htree).fails.endsByMatrix
  | true =>
    rcases Nat.lt_or_ge s.params.ibufCap s.inLen.toNat with hcap | hcap
    · exact (unpack_of_oversized htree hcap).fails.endsByMatrix
    · exact endsByMatrix_of_output (exec_unpack_of_fits htree hcap) (unpackRange_onlyOutput _ _ _ _)
        (unpackLoop_raisesOnly (by decide) (by decide) _ _ _)

/-- PACK's Precondition cannot come up in COMPRESS, since its tables give every byte of the input a code (R162). -/
theorem compress_endsByMatrix (s : State) : EndsByMatrix .compress s := by
  by_cases hcap : s.params.ibufCap < s.inLen.toNat
  · exact (compress_of_oversized hcap).fails.endsByMatrix
  by_cases hne : s.inLen = 0
  · exact (compress_of_empty hne).fails.endsByMatrix
  obtain ⟨a, x, h⟩ := exists_tabulates hne (Nat.le_of_not_lt hcap)
  rcases Nat.lt_or_ge s.params.extCap s.extLen.toNat with hext | hext
  · exact (h.compress_of_long_ext hext).fails.endsByMatrix
  rcases Nat.lt_or_ge s.params.obufCap (s.fileWith a x).length with hfull | hroom
  · exact (h.compress_of_full hext hfull).fails.endsByMatrix
  · obtain ⟨t, ht, hsucceeded, -⟩ := h.compress_of_room hext hroom
    exact endsByMatrix_of_succeeds ⟨t, ht, hsucceeded⟩

theorem decompress_endsByMatrix (s : State) : EndsByMatrix .decompress s :=
  endsByMatrix_of_run (exec_decompress_eq s)
    ((decompressBody_sameError _).map (fun _ h => h) fun _ h => ⟨h.err, h.errCode⟩) (decompressBody_raisesOnly _).map

theorem exec_endsByMatrix (i : Instr) (s : State) : EndsByMatrix i s := by
  cases i with
  | nop => exact endsByMatrix_of_succeeds ⟨_, exec_nop s, rfl, rfl, rfl, rfl, rfl⟩
  | count => exact count_endsByMatrix s
  | build => exact build_endsByMatrix s
  | gencodes => exact gencodes_endsByMatrix s
  | serialize => exact serialize_endsByMatrix s
  | deserialize => exact deserialize_endsByMatrix s
  | pack => exact pack_endsByMatrix s
  | unpack => exact unpack_endsByMatrix s
  | compress => exact compress_endsByMatrix s
  | decompress => exact decompress_endsByMatrix s
  | clear => exact endsByMatrix_of_succeeds ⟨_, exec_clear s, rfl, rfl, rfl, rfl, rfl⟩

theorem Failed.err (h : Failed e t) : t.err = true := by
  obtain ⟨-, -, herr, -⟩ := h
  exact herr

/-- Settles O53: the two ends of a command are told apart by ERR. -/
theorem commandsEndByTheErrorMatrix : Obligations.CommandsEndByTheErrorMatrix := by
  intro i s t h
  rcases exec_endsByMatrix i s t h with hsucceeded | ⟨e, he, hfailed⟩
  · exact ⟨fun _ => hsucceeded, fun herr => by simp [hsucceeded.err] at herr⟩
  · exact ⟨fun herr => by simp [hfailed.err] at herr, fun _ => ⟨e, he, hfailed⟩⟩

end Sys2Proof.Machine
end

section
/-! SUPPORT. The platform's reset, the window reads of tables that are not valid and the placed command word
(10_state.md R29, R33, R39; 70_reset_and_hazards.md R280, R292). -/

namespace Sys2Proof.Machine

variable {s : State} {rest : List HostAccess} {off : Nat}

/-! ### Reset -/

/-- Settles O2: NODE, LUT and each of the three spaces are forgotten, and the rest is the reset state's. -/
theorem platformResetReturnsToReset : Obligations.PlatformResetReturnsToReset := by
  intro s rest hhost
  refine ⟨platformReset { s with host := rest }, step_of_host hhost, ⟨rfl, rfl, rfl, rfl⟩, rfl,
    Store.get?_forget s.node, Store.get?_forget s.lut, fun sp => ?_, rfl⟩
  cases sp with
  | ibuf => exact Store.get?_forget s.mem.ibuf
  | obuf => exact Store.get?_forget s.mem.obuf
  | extbuf => exact Store.get?_forget s.mem.extbuf

/-! ### Window reads without a record -/

/-- Every word of the NODE window belongs to the record of its number (R66). -/
theorem regAt_nodeWindow (hlo : 0x1000 ≤ off) (hhi : off < 0x1FF8) :
    regAt off = .nodeFreq (BitVec.ofNat 9 ((off - 0x1000) / 8))
      ∨ regAt off = .nodeLinks (BitVec.ofNat 9 ((off - 0x1000) / 8)) := by
  rw [regAt]
  repeat rw [if_neg (by omega)]
  rw [if_pos ⟨hlo, hhi⟩]
  split
  · exact .inl rfl
  · exact .inr rfl

/-- Every word of the LUT length window belongs to the record of its symbol (R66). -/
theorem regAt_lutLenWindow (hlo : 0x0800 ≤ off) (hhi : off < 0x0C00) :
    regAt off = .lutLen (BitVec.ofNat 8 ((off - 0x0800) / 4)) := by
  rw [regAt]
  repeat rw [if_neg (by omega)]
  rw [if_pos ⟨hlo, hhi⟩]

/-- Every word of the LUT code window belongs to the record of its symbol (R66). -/
theorem regAt_lutCodeWindow (hlo : 0x2000 ≤ off) (hhi : off < 0x4000) :
    regAt off = .lutCode (BitVec.ofNat 8 ((off - 0x2000) / 32)) ((off - 0x2000) % 32 / 4) := by
  rw [regAt]
  repeat rw [if_neg (by omega)]
  rw [if_pos ⟨hlo, hhi⟩]

/-- The NODE window shows no record without a tree, and none from NNODE on (R292, U1). -/
theorem windowNode_eq_none {i : NodeIdx} (h : s.treeValid = false ∨ s.nnode.toNat ≤ i.toNat) :
    s.windowNode i = none := by
  refine if_neg fun ⟨hvalid, hlt⟩ => ?_
  rcases h with htree | hle
  · simp [htree] at hvalid
  · exact absurd hlt (Nat.not_lt.mpr hle)

/-- The LUT windows show no record without a code table (R292, U2). -/
theorem windowLut_eq_none (h : s.lutValid = false) (sym : Byte) : s.windowLut sym = none :=
  if_neg (by simp [h])

theorem regWord_nodeWindow (hlo : 0x1000 ≤ off) (hhi : off < 0x1FF8)
    (h : s.treeValid = false ∨ s.nnode.toNat ≤ (off - 0x1000) / 8) : s.regWord (regAt off) = none := by
  have hidx : (BitVec.ofNat 9 ((off - 0x1000) / 8)).toNat = (off - 0x1000) / 8 := by
    rw [BitVec.toNat_ofNat]
    omega
  have hnone : s.windowNode (BitVec.ofNat 9 ((off - 0x1000) / 8)) = none := windowNode_eq_none (hidx.symm ▸ h)
  rcases regAt_nodeWindow hlo hhi with hreg | hreg <;> rw [hreg, State.regWord, hnone] <;> rfl

theorem regWord_lutLenWindow (hlo : 0x0800 ≤ off) (hhi : off < 0x0C00) (h : s.lutValid = false) :
    s.regWord (regAt off) = none := by
  rw [regAt_lutLenWindow hlo hhi, State.regWord, windowLut_eq_none h]
  rfl

theorem regWord_lutCodeWindow (hlo : 0x2000 ≤ off) (hhi : off < 0x4000) (h : s.lutValid = false) :
    s.regWord (regAt off) = none := by
  rw [regAt_lutCodeWindow hlo hhi, State.regWord, windowLut_eq_none h]
  rfl

theorem readReg_of_regWord_none {r : RegName} (hb : s.busy = false) (hv : s.regWord r = none) :
    readReg r s
      = { s with freeCount := s.freeCount + 1, lastRead := some (.word (Config.freeWord s.freeCount)) } := by
  simp [readReg, hb, hv, State.takeFree, State.deliver]

/-- While BUSY = 0 a word read of a register whose value is unspecified delivers the next free word (R38; log 8). -/
theorem step_readWord_of_regWord_none (hb : s.busy = false)
    (h : s.host = .readWord (s.params.regBase + off) :: rest) (ha : off % 4 = 0) (hl : off < 0x4000)
    (hv : s.regWord (regAt off) = none) :
    step s = .next { s with
      host := rest, freeCount := s.freeCount + 1, lastRead := some (.word (Config.freeWord s.freeCount)) } := by
  rw [step_readWord h ha hl,
    readReg_of_regWord_none (s := { s with host := rest }) hb ((regWord_with_host _).trans hv)]

/-- Settles O15: in each of the three windows the register has no specified word. -/
theorem windowsOfInvalidTablesGiveAFreeWord : Obligations.WindowsOfInvalidTablesGiveAFreeWord := by
  intro s off rest hb ha hhost hwindow
  rcases hwindow with ⟨hlo, hhi, hnone⟩ | ⟨hlo, hhi, hlut⟩ | ⟨hlo, hhi, hlut⟩
  · exact step_readWord_of_regWord_none hb hhost ha (by omega) (regWord_nodeWindow hlo hhi hnone)
  · exact step_readWord_of_regWord_none hb hhost ha (by omega) (regWord_lutLenWindow hlo hhi hlut)
  · exact step_readWord_of_regWord_none hb hhost ha hhi (regWord_lutCodeWindow hlo hhi hlut)

/-! ### The placed command word -/

theorem decode_of_decodeTableWord {w : Nat} {i : Instr} (h : decodeTableWord 32 w = some i) :
    decode (BitVec.ofNat 32 (w % 2 ^ 32)) = .ok i := by
  simp only [decodeTableWord] at h
  split at h
  · cases h
  · split at h
    · rename_i hdec
      exact hdec.trans (congrArg _ (Option.some.inj h))
    · cases h

/-- Settles O7, by O6 at the state with the word placed. -/
theorem stepRunsThePlacedWord : Obligations.StepRunsThePlacedWord := fun s w i h =>
  stepRunsTheDecodedCommand (s.withFetchWord 32 w) _ s.host i rfl rfl (decode_of_decodeTableWord h)

end Sys2Proof.Machine
end

section
/-! SUPPORT. Every command ends (70_reset_and_hazards.md R290). The walks of GENCODES and SERIALIZE end since NODE holds
a tree; no other piece of pseudocode can be stuck, whatever state it runs in. -/

namespace Sys2Proof.Machine

variable {s : State} {e : ErrKind} {i : Instr}

/-! ### Runs that are not stuck -/

/-- The run goes on or raises an error. -/
def Run.Ends : Run → Prop
  | .ok _ => True
  | .raised _ _ => True
  | .stuck _ => False

theorem Run.Ends.bind {r : Run} {k : State → Run} (hr : r.Ends) (hk : ∀ t, (k t).Ends) : (r.bind k).Ends := by
  cases r with
  | ok t => exact hk t
  | raised e t => trivial
  | stuck f => exact hr

theorem Run.Ends.map {r : Run} {k : State → State} (hr : r.Ends) : (r.map k).Ends :=
  hr.bind fun _ => trivial

/-- A run that puts bytes, or is Resource, ends (R172). -/
theorem Run.Puts.ends {r : Run} {l : List Byte} {Q : State → Prop} (h : r.Puts l Q s) : r.Ends := by
  cases r with
  | ok t => trivial
  | raised e t => trivial
  | stuck f => exact h

/-! ### PACK -/

theorem put_ends (b : Byte) (s : State) : (s.put b).Ends := (put_puts b s).ends

theorem putBit_ends (b : Bool) (s : State) : (putBit b s).Ends := by
  simp only [putBit]
  split
  · exact (put_ends _ _).map
  · trivial

theorem putBits_ends (l : BitString) (s : State) : (putBits l s).Ends := by
  induction l generalizing s with
  | nil => trivial
  | cons b rest ih => exact (putBit_ends b s).bind ih

theorem packSymbol_ends (s : State) : (packSymbol s).Ends := by
  simp only [packSymbol]
  split
  · trivial
  · exact (putBits_ends _ s).map

theorem packLoop_ends (k : Nat) (s : State) : (packLoop k s).Ends := by
  induction k generalizing s with
  | zero => trivial
  | succ k ih => exact (packSymbol_ends s).bind ih

theorem packFlush_ends (s : State) : (packFlush s).Ends := by
  simp only [packFlush]
  split
  · trivial
  · exact put_ends _ s

theorem packRange_ends (start stop : Nat) (s : State) : (packRange start stop s).Ends :=
  (packLoop_ends _ _).bind packFlush_ends

/-! ### UNPACK -/

theorem emitSymbol_ends (sym : Byte) (s : State) : (emitSymbol sym s).Ends := (put_ends sym s).map

theorem unpackBit_ends (bit : Bool) (s : State) : (unpackBit bit s).Ends := by
  unfold unpackBit
  split
  · exact emitSymbol_ends _ s
  · dsimp only
    generalize (if bit then (s.nodeRead s.seq.cur).right else (s.nodeRead s.seq.cur).left) = child
    split
    · exact (emitSymbol_ends _ _).map
    · trivial

theorem unpackLoop_ends (count k : Nat) (s : State) : (unpackLoop count k s).Ends := by
  induction k generalizing s with
  | zero =>
    simp only [unpackLoop]
    split <;> trivial
  | succ k ih =>
    simp only [unpackLoop]
    split
    · exact (unpackBit_ends _ _).bind ih
    · trivial

theorem unpackRange_ends (start stop count : Nat) (s : State) : (unpackRange start stop count s).Ends :=
  unpackLoop_ends _ _ _

/-! ### DESERIALIZE and DECOMPRESS -/

theorem deserializeRange_ends (start stop : Nat) (s : State) : (deserializeRange start stop s).Ends := by
  rcases deserializeRange_outcomes start stop s with ⟨t, ht, -⟩ | ⟨a, u, hu, -⟩
  · rw [ht]; trivial
  · rw [hu]; trivial

theorem decompressPayload_ends (e p : Nat) (s : State) : (decompressPayload e p s).Ends := by
  simp only [decompressPayload]
  split_ifs
  case neg => exact (unpackRange_ends _ _ _ _).map
  all_goals trivial

theorem decompressTree_ends (e : Nat) (s : State) : (decompressTree e s).Ends := by
  simp only [decompressTree]
  split_ifs
  case neg => exact (deserializeRange_ends _ _ _).bind fun _ => decompressPayload_ends _ _ _
  all_goals trivial

theorem decompressBody_ends (s : State) : (decompressBody s).Ends := by
  simp only [decompressBody]
  split_ifs
  case neg => exact decompressTree_ends _ _
  all_goals trivial

/-! ### Commands that end -/

/-- The command `i` answers a next state from `s`. -/
def CommandEnds (i : Instr) (s : State) : Prop := ∃ t, exec i s = .next t

/-- A command ends by the success exit or by the error entry where its pseudocode is not stuck (R258, R259). -/
theorem commandEnds_of_run {r : Run} (hexec : exec i s = finish i r) (hr : r.Ends) : CommandEnds i s := by
  cases r with
  | ok t => exact ⟨_, hexec⟩
  | raised e t => exact ⟨_, hexec⟩
  | stuck f => exact hr.elim

theorem Fails.commandEnds (h : Fails e i s) : CommandEnds i s := by
  obtain ⟨t, hexec, -⟩ := h
  exact ⟨t, hexec⟩

theorem count_commandEnds (s : State) : CommandEnds .count s := by
  refine commandEnds_of_run (exec_count s) ?_
  simp only [countBody]
  split_ifs <;> trivial

theorem build_commandEnds (s : State) : CommandEnds .build s := by
  by_cases hs : present s = []
  · exact (buildOfNothingIsEmptyInput s (freqOf_eq_zero_of_present_nil hs)).fails.commandEnds
  · obtain ⟨t, -, hexec, -⟩ := exec_build hs
    exact ⟨t, hexec⟩

/-- GENCODES ends where TREE_VALID = 1 means that NODE holds a tree (R30). -/
theorem gencodes_commandEnds (htree : TreeInv s) : CommandEnds .gencodes s := by
  cases hvalid : s.treeValid with
  | false => exact (gencodes_of_no_tree hvalid).fails.commandEnds
  | true =>
    obtain ⟨a, ha, -⟩ := htree hvalid
    obtain ⟨t, hexec, -⟩ := exec_gencodes hvalid ha
    exact ⟨t, hexec⟩

/-- SERIALIZE ends where TREE_VALID = 1 means that NODE holds a tree (R30). -/
theorem serialize_commandEnds (htree : TreeInv s) : CommandEnds .serialize s := by
  cases hvalid : s.treeValid with
  | false => exact (serialize_of_no_tree hvalid).fails.commandEnds
  | true =>
    obtain ⟨a, ha, -⟩ := htree hvalid
    exact commandEnds_of_run (exec_serialize_of_valid hvalid) (emitTree_puts (treeOf_congr ha)).ends.map

theorem deserialize_commandEnds (s : State) : CommandEnds .deserialize s := by
  rcases Nat.lt_or_ge s.params.ibufCap s.inLen.toNat with hcap | hcap
  · exact (deserialize_of_oversized hcap).fails.commandEnds
  · exact commandEnds_of_run (exec_deserialize_of_fits hcap) (deserializeRange_ends _ _ _)

theorem pack_commandEnds (s : State) : CommandEnds .pack s := by
  cases hlut : s.lutValid with
  | false => exact (pack_of_no_table hlut).fails.commandEnds
  | true =>
    rcases Nat.lt_or_ge s.params.ibufCap s.inLen.toNat with hcap | hcap
    · exact (pack_of_oversized hlut hcap).fails.commandEnds
    · exact commandEnds_of_run (exec_pack_of_fits hlut hcap) (packRange_ends _ _ _).map

theorem unpack_commandEnds (s : State) : CommandEnds .unpack s := by
  cases htree : s.treeValid with
  | false => exact (unpack_of_no_tree htree).fails.commandEnds
  | true =>
    rcases Nat.lt_or_ge s.params.ibufCap s.inLen.toNat with hcap | hcap
    · exact (unpack_of_oversized htree hcap).fails.commandEnds
    · exact commandEnds_of_run (exec_unpack_of_fits htree hcap) (unpackRange_ends _ _ _ _).map

/-- The walks of COMPRESS end since it has made the tree itself (R210, R217). -/
theorem compress_commandEnds (s : State) : CommandEnds .compress s := by
  by_cases hcap : s.params.ibufCap < s.inLen.toNat
  · exact (compress_of_oversized hcap).fails.commandEnds
  by_cases hne : s.inLen = 0
  · exact (compress_of_empty hne).fails.commandEnds
  obtain ⟨a, x, h⟩ := exists_tabulates hne (Nat.le_of_not_lt hcap)
  rcases Nat.lt_or_ge s.params.extCap s.extLen.toNat with hext | hext
  · exact (h.compress_of_long_ext hext).fails.commandEnds
  · have hrun : (compressTables s.compressStart).bind compressFile = compressFile x := by rw [h.made, Run.bind_ok]
    exact commandEnds_of_run (exec_compress_eq s) (hrun ▸ (h.compressFile_puts hext).ends).map

theorem decompress_commandEnds (s : State) : CommandEnds .decompress s :=
  commandEnds_of_run (exec_decompress_eq s) (decompressBody_ends _).map

/-- Settles O57: of the invariant the stand-alone walks need R30, the other commands nothing. -/
theorem everyCommandEnds : Obligations.EveryCommandEnds := by
  intro i s hinv
  obtain ⟨-, -, -, -, -, -, -, -, htree⟩ := hinv
  cases i with
  | nop => exact ⟨_, exec_nop s⟩
  | count => exact count_commandEnds s
  | build => exact build_commandEnds s
  | gencodes => exact gencodes_commandEnds htree
  | serialize => exact serialize_commandEnds htree
  | deserialize => exact deserialize_commandEnds s
  | pack => exact pack_commandEnds s
  | unpack => exact unpack_commandEnds s
  | compress => exact compress_commandEnds s
  | decompress => exact decompress_commandEnds s
  | clear => exact ⟨_, exec_clear s⟩

end Sys2Proof.Machine
end
